-- ==== Sys2Proof/Word.lean ====
section
/-! DEFINITION. The word, byte and block types of TF256-CORE (00_scope.md rule R5). Operations on
them that a rule of the spec gives stand in Sys2Proof/Machine/. -/

namespace Sys2Proof

/-- A byte, 8 bits (rule R5). -/
abbrev Byte := BitVec 8

/-- A word of the round engine: 64 bits, bit 0 the least significant (rules R5, R120). -/
abbrev Word := BitVec 64

/-- A byte string, first byte first (rule R5). -/
abbrev Bytes := List Byte

/-- `zeros(n)` of rule R5: `n` bytes of value 0. -/
def zeros (n : Nat) : Bytes := List.replicate n 0

/-- A file of `NW = 4` words: the shape of `V`, `E`, `F` and of one subkey group (rules R21, R22, R30). -/
structure Quad where
  w0 : Word
  w1 : Word
  w2 : Word
  w3 : Word
deriving DecidableEq, Repr

end Sys2Proof
end

