-- ==== Sys2Proof/Machine/WordCodec.lean ====
section
/-! DEFINITION. The Word Codec (40_word_codec.md rules R110 to R113): bytes to 64-bit little-endian
words and back, and the sized views of a block that the round engine uses. -/

namespace Sys2Proof.Machine

/-- The unsigned value of a byte string, the byte at the lowest offset least significant
(20_memory.md rules R52, R53; the sum of rule R110). -/
def leValue : Bytes → Nat
  | []      => 0
  | b :: bs => b.toNat + 256 * leValue bs

/-- One word from (the first) 8 bytes, little-endian (rule R110). -/
def leWord (b : Bytes) : Word := BitVec.ofNat 64 (leValue b)

/-- `b2w` (rule R110): `floor(n/8)` words; a trailing partial group is neither read nor converted. -/
def b2w (b : Bytes) : List Word :=
  (List.range (b.length / 8)).map fun i => leWord ((b.drop (8 * i)).take 8)

/-- Byte `k` of a word: bits `8k+7 : 8k` (rules R52, R111). -/
def wordByte (w : Word) (k : Nat) : Byte := w.extractLsb' (8 * k) 8

/-- The 8 bytes of one word, least significant first (rule R111). -/
def wordBytes (w : Word) : Bytes := (List.range 8).map (wordByte w)

/-- `w2b` (rule R111): exactly `8m` bytes for `m` words. -/
def w2b (w : List Word) : Bytes := w.flatMap wordBytes

/-- A byte string of exactly `n` bytes as a sized operand, none of another length (rule R113). -/
def sized (n : Nat) (b : Bytes) : Option (Vector Byte n) :=
  if h : b.length = n then some ⟨b.toArray, by simpa using h⟩ else none

/-- A file of words as a word sequence, word 0 first. -/
def quadWords (q : Quad) : List Word := [q.w0, q.w1, q.w2, q.w3]

/-- `b2w` on a block or a key, the sized form of rule R113: 32 bytes to 4 words. -/
def blockWords (b : Vector Byte 32) : Quad :=
  have h : (b2w b.toList).length = 4 := by simp [b2w]
  ⟨(b2w b.toList)[0], (b2w b.toList)[1], (b2w b.toList)[2], (b2w b.toList)[3]⟩

/-- `b2w` on a tweak or a word pair, the sized form of rule R113: 16 bytes to 2 words. -/
def pairWords (b : Vector Byte 16) : Word × Word :=
  have h : (b2w b.toList).length = 2 := by simp [b2w]
  ((b2w b.toList)[0], (b2w b.toList)[1])

/-- `w2b` on a file of words: 4 words to 32 bytes. -/
def blockBytes (q : Quad) : Bytes := w2b (quadWords q)

/-- A byte string as the content of an `n`-byte register, byte 0 first. Every rule that loads a
register gives it exactly `n` bytes; a shorter string is filled up with zero bytes and a longer one is
cut, which no rule reaches (20_memory.md rule R59). -/
def regOfBytes (n : Nat) (b : Bytes) : Vector Byte n :=
  ⟨((b ++ zeros n).take n).toArray, by simp [zeros]⟩

end Sys2Proof.Machine
end

