-- ==== Sys2Proof/Syntax.lean ====
section
/-! DEFINITION. The commands of TF256-CORE (30_encoding.md rules R81 to R85), one constructor per row
of spec/opcode_table.json. Each constructor carries the fields of its header format other than `OP`
and the reserved bits; the payload is not part of the header and stands in the byte space `IBUF`. -/

namespace Sys2Proof

/-- The twelve commands. `len` is the header's `LEN` (bits 63:32), the length of the payload in bytes;
`lena` is `LENA` of format X (bits 31:8); `row`, `col` are `ROW` (bits 10:8) and `COL` (bit 11) of
format M. -/
inductive Instr where
  | setkey   (len : BitVec 32)                                        -- 0x01, format L
  | settweak (len : BitVec 32)                                        -- 0x02, format L
  | xora     (lena : BitVec 24) (len : BitVec 32)                     -- 0x03, format X
  | encb     (len : BitVec 32)                                        -- 0x10, format L
  | decb     (len : BitVec 32)                                        -- 0x11, format L
  | enc      (len : BitVec 32)                                        -- 0x18, format L
  | dec      (len : BitVec 32)                                        -- 0x19, format L
  | mix      (row : BitVec 3) (col : BitVec 1) (len : BitVec 32)      -- 0x20, format M
  | unmix    (row : BitVec 3) (col : BitVec 1) (len : BitVec 32)      -- 0x21, format M
  | perm     (len : BitVec 32)                                        -- 0x22, format L
  | unperm   (len : BitVec 32)                                        -- 0x23, format L
  | ksx      (len : BitVec 32)                                        -- 0x24, format L
deriving DecidableEq, Repr

/-- The opcode map's names (rule R85). -/
inductive Opcode where
  | setkey | settweak | xora | encb | decb | enc | dec | mix | unmix | perm | unperm | ksx
deriving DecidableEq, Repr

/-- The header formats (rules R81, R82, R83). -/
inductive Format where
  | L | X | M
deriving DecidableEq, Repr

/-- Why the decoder reads no command from a header (rule R87) or from a byte string. -/
inductive DecodeError where
  /-- `OP` is not one of the twelve values of rule R85. -/
  | unknownOpcode (op : Byte)
  /-- A reserved bit is 1: bits 31:8 in format L, bits 31:12 in format M. -/
  | reservedBits
  /-- Fewer than the 8 bytes of a header are there. -/
  | truncated
deriving DecidableEq, Repr

/-- Why a command that the decoder reads is still illegal (rules R86, R87): the payload length its
encoding requires is not the one it carries. -/
inductive IllFormed where
  /-- Format X with `LENA > LEN`. -/
  | lenaAboveLen
  /-- MIX or UNMIX with `LEN` not 16, PERM or UNPERM with `LEN` not 32, KSX with `LEN` not 48. -/
  | wrongLen
deriving DecidableEq, Repr

end Sys2Proof
end

