-- ==== Sys2Proof/WellFormed.lean ====
section
/-! DEFINITION. The constraints on `LEN` and `LENA` that are part of a command's encoding
(30_encoding.md rules R86, R87). A command that breaks one is illegal and its meaning fails with
`ILLEGAL`; for every other command `LEN` is an argument and never an encoding error. -/

namespace Sys2Proof

/-- The length constraint a command breaks, if any (rules R86, R87). -/
def Instr.check : Instr → Option IllFormed
  | .setkey _     => none
  | .settweak _   => none
  | .xora lena len => if len.toNat < lena.toNat then some .lenaAboveLen else none
  | .encb _       => none
  | .decb _       => none
  | .enc _        => none
  | .dec _        => none
  | .mix _ _ len   => if len = 16 then none else some .wrongLen
  | .unmix _ _ len => if len = 16 then none else some .wrongLen
  | .perm len     => if len = 32 then none else some .wrongLen
  | .unperm len   => if len = 32 then none else some .wrongLen
  | .ksx len      => if len = 48 then none else some .wrongLen

/-- A command whose length fields its encoding allows (rule R87). -/
abbrev Instr.WF (i : Instr) : Prop := i.check = none

end Sys2Proof
end

