-- ==== Sys2Proof/Decode.lean ====
section
/-! DEFINITION. The decoder of command headers and the encoder (30_encoding.md rules R81 to R88).
The decoder matches a header against the opcode table (`OP` and the reserved bits) and reads its
fields; the length constraints of rule R87 are `Instr.check`, and a command that breaks one is decoded
and then fails with `ILLEGAL` in its own meaning (notes/assumptions/5.md). -/

namespace Sys2Proof

/-- `OP`, bits 7:0 (rules R81 to R83). -/
def hdrOp (h : BitVec 64) : Byte := h.extractLsb' 0 8

/-- `LEN`, bits 63:32 (rules R81 to R83). -/
def hdrLen (h : BitVec 64) : BitVec 32 := h.extractLsb' 32 32

/-- `LENA`, bits 31:8 of format X (rule R82). -/
def hdrLena (h : BitVec 64) : BitVec 24 := h.extractLsb' 8 24

/-- `ROW`, bits 10:8 of format M (rule R83). -/
def hdrRow (h : BitVec 64) : BitVec 3 := h.extractLsb' 8 3

/-- `COL`, bit 11 of format M (rule R83). -/
def hdrCol (h : BitVec 64) : BitVec 1 := h.extractLsb' 11 1

/-- The reserved bits 31:8 of format L (rule R81). -/
def hdrReservedL (h : BitVec 64) : BitVec 24 := h.extractLsb' 8 24

/-- The reserved bits 31:12 of format M (rule R83). -/
def hdrReservedM (h : BitVec 64) : BitVec 20 := h.extractLsb' 12 20

/-- The opcode map (rule R85). -/
def Opcode.byte : Opcode → Byte
  | .setkey   => 0x01
  | .settweak => 0x02
  | .xora     => 0x03
  | .encb     => 0x10
  | .decb     => 0x11
  | .enc      => 0x18
  | .dec      => 0x19
  | .mix      => 0x20
  | .unmix    => 0x21
  | .perm     => 0x22
  | .unperm   => 0x23
  | .ksx      => 0x24

/-- The format of each opcode (rule R85). -/
def Opcode.format : Opcode → Format
  | .setkey   => .L
  | .settweak => .L
  | .xora     => .X
  | .encb     => .L
  | .decb     => .L
  | .enc      => .L
  | .dec      => .L
  | .mix      => .M
  | .unmix    => .M
  | .perm     => .L
  | .unperm   => .L
  | .ksx      => .L

/-- The rows of the opcode map in the table's order. -/
def Opcode.all : List Opcode :=
  [.setkey, .settweak, .xora, .encb, .decb, .enc, .dec, .mix, .unmix, .perm, .unperm, .ksx]

/-- The opcode an `OP` byte names; the other 244 values name none (rules R85, R87). -/
def Opcode.ofByte (b : Byte) : Option Opcode := Opcode.all.find? fun o => o.byte == b

/-- The opcode table's `match` of a row (rule R85): the opcode in bits 7:0, zero elsewhere. -/
def Opcode.tableMatch (o : Opcode) : BitVec 64 := o.byte.setWidth 64

/-- The opcode table's `mask` of a row (rule R85). -/
def Opcode.tableMask (o : Opcode) : BitVec 64 :=
  match o.format with
  | .L => 0x00000000FFFFFFFF
  | .X => 0x00000000000000FF
  | .M => 0x00000000FFFFF0FF

/-- A format L header: the reserved bits must be 0 (rules R81, R87). -/
def decodeL (h : BitVec 64) (mk : BitVec 32 → Instr) : Except DecodeError Instr :=
  if hdrReservedL h = 0 then .ok (mk (hdrLen h)) else .error .reservedBits

/-- A format M header: the reserved bits must be 0 (rules R83, R87). -/
def decodeM (h : BitVec 64) (mk : BitVec 3 → BitVec 1 → BitVec 32 → Instr) : Except DecodeError Instr :=
  if hdrReservedM h = 0 then .ok (mk (hdrRow h) (hdrCol h) (hdrLen h)) else .error .reservedBits

/-- The command a 64-bit header word names (rules R81 to R87), total on all headers. -/
def decode (h : BitVec 64) : Except DecodeError Instr :=
  match Opcode.ofByte (hdrOp h) with
  | none           => .error (.unknownOpcode (hdrOp h))
  | some .setkey   => decodeL h .setkey
  | some .settweak => decodeL h .settweak
  | some .xora     => .ok (.xora (hdrLena h) (hdrLen h))
  | some .encb     => decodeL h .encb
  | some .decb     => decodeL h .decb
  | some .enc      => decodeL h .enc
  | some .dec      => decodeL h .dec
  | some .mix      => decodeM h .mix
  | some .unmix    => decodeM h .unmix
  | some .perm     => decodeL h .perm
  | some .unperm   => decodeL h .unperm
  | some .ksx      => decodeL h .ksx

/-- A header carried as bytes is carried little-endian, as any other word (rule R80): the first 8
bytes are the header and the rest, the payload, is handed back (rule R88). -/
def decodeBytes (b : Bytes) : Except DecodeError (Instr × Bytes) :=
  if b.length < 8 then .error .truncated
  else
    match decode (Machine.leWord (b.take 8)) with
    | .ok i    => .ok (i, b.drop 8)
    | .error e => .error e

/-- A format L header word (rule R81). -/
def packL (o : Opcode) (len : BitVec 32) : BitVec 64 := len ++ (0#24) ++ o.byte

/-- A format X header word (rule R82). -/
def packX (o : Opcode) (lena : BitVec 24) (len : BitVec 32) : BitVec 64 := len ++ lena ++ o.byte

/-- A format M header word (rule R83). -/
def packM (o : Opcode) (row : BitVec 3) (col : BitVec 1) (len : BitVec 32) : BitVec 64 :=
  len ++ (0#20) ++ col ++ row ++ o.byte

/-- The header word of a command (rules R81 to R85). -/
def encode : Instr → BitVec 64
  | .setkey len       => packL .setkey len
  | .settweak len     => packL .settweak len
  | .xora lena len    => packX .xora lena len
  | .encb len         => packL .encb len
  | .decb len         => packL .decb len
  | .enc len          => packL .enc len
  | .dec len          => packL .dec len
  | .mix row col len  => packM .mix row col len
  | .unmix row col len => packM .unmix row col len
  | .perm len         => packL .perm len
  | .unperm len       => packL .unperm len
  | .ksx len          => packL .ksx len

/-- The 8 bytes of a command's header as they are sent (rules R80, R89). -/
def encodeBytes (i : Instr) : Bytes := Machine.wordBytes (encode i)

/-- The opcode of a command (rule R85). -/
def Instr.opcode : Instr → Opcode
  | .setkey _    => .setkey
  | .settweak _  => .settweak
  | .xora _ _    => .xora
  | .encb _      => .encb
  | .decb _      => .decb
  | .enc _       => .enc
  | .dec _       => .dec
  | .mix _ _ _   => .mix
  | .unmix _ _ _ => .unmix
  | .perm _      => .perm
  | .unperm _    => .unperm
  | .ksx _       => .ksx

/-- The `LEN` a command carries: the length of its payload in bytes (rules R81 to R83). -/
def Instr.len : Instr → BitVec 32
  | .setkey len    => len
  | .settweak len  => len
  | .xora _ len    => len
  | .encb len      => len
  | .decb len      => len
  | .enc len       => len
  | .dec len       => len
  | .mix _ _ len   => len
  | .unmix _ _ len => len
  | .perm len      => len
  | .unperm len    => len
  | .ksx len       => len

/-- The length of a command in bytes, known from its header alone: `8 + H[63:32]` (rule R88). -/
def commandBytes (h : BitVec 64) : Nat := 8 + (hdrLen h).toNat

/-- The header whose bits are `w`, as the opcode table numbers them: bit 0 the least significant bit of
the header word, every bit from `nbits` up 0. -/
def tableHeader (nbits w : Nat) : BitVec 64 := BitVec.ofNat 64 (w % 2 ^ nbits)

/-- What the decoder reads from that header laid out as its 8 bytes. -/
def decodeTableWord (nbits w : Nat) : Option Instr :=
  match decodeBytes (Machine.wordBytes (tableHeader nbits w)) with
  | .ok (i, _) => some i
  | .error _   => none

end Sys2Proof
end

