-- ==== Sys2Proof/Config.lean ====
section
/-! DEFINITION. The open parameters of 00_scope.md rule R4 that are fixed for one machine: the
rotation table `ROT` and the setting of `DEC_PARTIAL_TAIL`. The state carries one `Config`, so every
statement about all states holds for every table and both settings (92_eei_decisions.md D7, D11).
The two oracles `RNG` and `SCRATCH_OK` are inputs of a step and stand in State as input queues. -/

namespace Sys2Proof

/-- `ROT`: 8 rows by 2 columns of rotation amounts, each in 0..63 (rule R121). -/
abbrev RotTable := Vector (Vector (BitVec 6) 2) 8

/-- `DEC_PARTIAL_TAIL`: what DEC does with a body that is not a whole number of blocks (rule R197, D11). -/
inductive PartialTail where
  | reject   -- fail with CORRUPT
  | ignore   -- never read the trailing bytes
deriving DecidableEq, Repr

/-- The parameters that the model takes as an argument (rule R4, status "open"). -/
structure Config where
  rot            : RotTable
  decPartialTail : PartialTail
deriving DecidableEq, Repr

end Sys2Proof
end

