-- ==== Sys2Proof/Machine/Params.lean ====
section
/-! DEFINITION. The fixed parameters of 00_scope.md rule R4 and the default of the open ones
(rules R121, R197; 92_eei_decisions.md D7, D11). -/

namespace Sys2Proof.Machine

/-- The key-schedule parity constant `C240` (rules R1, R140). -/
def c240 : Word := 0x1BD11BDAA9FC1A22

/-- `NR`, the number of rounds (rule R4). -/
def numRounds : Nat := 72

/-- `NG = NR/4 + 1`, the number of subkey groups (rule R4). -/
def numGroups : Nat := numRounds / 4 + 1

/-- `KEY_BYTES` (rule R4, D4). -/
def keyLen : Nat := 32

/-- `TWEAK_BYTES` (rule R4). -/
def tweakLen : Nat := 16

/-- `BLOCK_BYTES` (rule R4): the length of a block, of the IV and of the chain value. -/
def blockLen : Nat := 32

/-- `TRAILER_BYTES` (rule R4). -/
def trailerLen : Nat := 4

/-- `MAX_PLAIN = 2^31 - 1`, the longest plaintext ENC accepts (rules R4, R192). -/
def maxPlain : Nat := 2 ^ 31 - 1

/-- The default rotation table (rule R121). The spec marks its sixteen values as general knowledge;
no meaning depends on them, since each reads the table of the state's own `Config`. -/
def defaultRot : RotTable :=
  #v[#v[14, 16], #v[52, 57], #v[23, 40], #v[5, 37], #v[25, 33], #v[46, 12], #v[58, 22], #v[32, 32]]

/-- The default parameters (92_eei_decisions.md section 5). -/
def defaultConfig : Config := ⟨defaultRot, .reject⟩

end Sys2Proof.Machine
end

