-- ==== Sys2Proof/Machine/RoundPrims.lean ====
section
/-! DEFINITION. The round primitives of the Threefish Round Engine as functions on words
(41_round_primitives.md rules R120 to R127). -/

namespace Sys2Proof.Machine

/-- `rotl(a, r)` for `0 <= r <= 63` (rule R120). -/
def rotl (a : Word) (r : BitVec 6) : Word := a.rotateLeft r.toNat

/-- `rotr(a, r)`, the inverse of `rotl` (rule R120). -/
def rotr (a : Word) (r : BitVec 6) : Word := a.rotateRight r.toNat

/-- `ROT[d mod 8][j]` for a round index `d` and a pair index `j` in 0..1 (rule R121). -/
def rotAmount (t : RotTable) (d j : Nat) : BitVec 6 :=
  (t[d % 8]'(Nat.mod_lt d (by decide)))[j % 2]'(Nat.mod_lt j (by decide))

/-- `mix` (rule R122); `y1` uses the new `y0`. -/
def mix (t : RotTable) (x0 x1 : Word) (d j : Nat) : Word × Word :=
  let r  := rotAmount t d j
  let y0 := x0 + x1
  (y0, rotl x1 r ^^^ y0)

/-- `unmix` (rule R123); `x0` uses the new `x1`. -/
def unmix (t : RotTable) (y0 y1 : Word) (d j : Nat) : Word × Word :=
  let r  := rotAmount t d j
  let x1 := rotr (y0 ^^^ y1) r
  (y0 - x1, x1)

/-- Word `i` of a file of four words (rule R21). -/
def wordAt (q : Quad) (i : Nat) : Word :=
  if i = 0 then q.w0 else if i = 1 then q.w1 else if i = 2 then q.w2 else q.w3

/-- `PI`, the word permutation table (rules R4, R124). -/
def piTable : Vector Nat 4 := #v[0, 3, 2, 1]

/-- `perm` (rule R124): `v[i] <- f[PI[i]]` with `PI = [0, 3, 2, 1]`, all sources read first. -/
def perm (f : Quad) : Quad := ⟨f.w0, f.w3, f.w2, f.w1⟩

/-- `unperm` (rule R125): `f[PI[i]] <- v[i]`. -/
def unperm (v : Quad) : Quad := ⟨v.w0, v.w3, v.w2, v.w1⟩

/-- `addsk` (rule R126) with the four words of the group: each word alone modulo `2^64`. -/
def addsk (v sk : Quad) : Quad := ⟨v.w0 + sk.w0, v.w1 + sk.w1, v.w2 + sk.w2, v.w3 + sk.w3⟩

/-- `subsk` (rule R127): each word alone modulo `2^64`. -/
def subsk (e sk : Quad) : Quad := ⟨e.w0 - sk.w0, e.w1 - sk.w1, e.w2 - sk.w2, e.w3 - sk.w3⟩

/-- Pair `j` of a file of words: the words `2j` and `2j+1` (rule R21). -/
def pairOf (q : Quad) (j : Nat) : Word × Word := if j = 0 then (q.w0, q.w1) else (q.w2, q.w3)

/-- Write of pair `j`: the other pair keeps its words (rule R21). -/
def setPair (q : Quad) (j : Nat) (p : Word × Word) : Quad :=
  if j = 0 then ⟨p.1, p.2, q.w2, q.w3⟩ else ⟨q.w0, q.w1, p.1, p.2⟩

end Sys2Proof.Machine
end

