-- ==== Sys2Proof/Machine/Flags.lean ====
section
/-! DEFINITION. The `STATUS` word (10_state.md rules R24, R28) and the failure reasons
(60_exceptions.md rule R231). `STATUS` is the only register HOST reads, so it stays one 64-bit word
with named accessors; `STATUS.OK` is the hardware's one flag. -/

namespace Sys2Proof.Machine

/-- The failure reasons (rule R231). -/
inductive Reason where
  | none       -- success
  | config     -- key or tweak unset, or a key or tweak of a wrong length
  | resource   -- the scratch of a block operation was not available
  | corrupt    -- DEC: short input, bad body length, trailer out of range
  | random     -- ENC: the RNG answered Fail
  | length     -- ENC: plaintext longer than MAX_PLAIN
  | argument   -- ENCB, DECB: payload length not 32
  | illegal    -- the header is illegal
deriving DecidableEq, Repr

/-- The numeric code of a reason (rule R231). -/
def Reason.code : Reason → BitVec 3
  | .none     => 0
  | .config   => 1
  | .resource => 2
  | .corrupt  => 3
  | .random   => 4
  | .length   => 5
  | .argument => 6
  | .illegal  => 7

/-- `STATUS` from its fields (rule R28): `RLEN` in bits 63:32, zeros in 31:4, `REASON` in 3:1, `OK` in
bit 0. -/
def statusWord (ok : Bool) (r : Reason) (rlen : BitVec 32) : BitVec 64 :=
  rlen ++ (0#28) ++ r.code ++ BitVec.ofBool ok

/-- `STATUS` after a success with a result of `n` bytes: `OK = 1`, `REASON = 0` (rule R28). -/
def statusOk (n : Nat) : BitVec 64 := statusWord true .none (BitVec.ofNat 32 n)

/-- `STATUS` after a failure: `OK = 0`, `REASON = R`, `RLEN = 0` (rule R234). -/
def statusFail (r : Reason) : BitVec 64 := statusWord false r 0

/-- The flag `STATUS.OK` (rule R24). -/
def okFlag (w : BitVec 64) : Bool := w.getLsbD 0

/-- The field `STATUS.REASON` (rule R28). -/
def reasonField (w : BitVec 64) : BitVec 3 := w.extractLsb' 1 3

/-- The reserved bits 31:4 of `STATUS` (rule R28). -/
def reservedField (w : BitVec 64) : BitVec 28 := w.extractLsb' 4 28

/-- The field `STATUS.RLEN` (rule R28). -/
def rlenField (w : BitVec 64) : BitVec 32 := w.extractLsb' 32 32

end Sys2Proof.Machine
end

