-- ==== Sys2Proof/Machine/State.lean ====
section
/-! DEFINITION. The state of TF256-CORE (10_state.md rules R20 to R36): the persistent registers, the
interface, the scratch of the round engine and of the mode controller, and the inputs of the other
agents (HOST, RNG, the `SCRATCH_OK` oracle) as queues of plain data. -/

namespace Sys2Proof.Machine

/-- A byte space (20_memory.md rule R50): offsets `0 .. len-1` exist and no other. The cells list the
offsets whose byte is not 0, strictly rising; an offset of the space that is not listed holds 0. -/
structure Memory where
  len   : Nat
  cells : List Host.Cell
deriving DecidableEq, Repr

/-- The space of length 0. -/
def Memory.empty : Memory := ⟨0, []⟩

/-- A space of `n` bytes of value 0. -/
def Memory.blank (n : Nat) : Memory := ⟨n, []⟩

/-- Cells strictly rising from offset `lo`, all below `hi`, none of value 0. -/
def Memory.canonical (lo hi : Nat) : List Host.Cell → Bool
  | []          => true
  | (a, b) :: cs => decide (lo ≤ a) && decide (a < hi) && (b != 0) && Memory.canonical (a + 1) hi cs

/-- The canonical form: the cells are in order, none is superfluous, none lies outside the space, and
the space is no longer than an offset can reach (rules R50, R66). -/
def Memory.wf (m : Memory) : Bool := Memory.canonical 0 m.len m.cells && decide (m.len < 2 ^ 32)

/-- The scratch of the Threefish Round Engine (rules R21, R22, R23, R29, R30). -/
structure Engine where
  /-- `V[0..3]`, the working words. -/
  v  : Quad
  /-- `E[0..3]`, the words after subkey injection. -/
  e  : Quad
  /-- `F[0..3]`, the words after MIX. -/
  f  : Quad
  /-- `KX[0..4]`, the extended key. -/
  kx : Vector Word 5
  /-- `TX[0..2]`, the extended tweak. -/
  tx : Vector Word 3
  /-- `SK[0..18][0..3]`, the subkey groups. -/
  sk : Vector Quad 19
  /-- `D`, the round index, 0..71. -/
  d  : BitVec 7
  /-- `G`, the subkey group index, 0..18. -/
  g  : BitVec 5
  /-- `J`, the pair index within a round. -/
  j  : BitVec 1
deriving DecidableEq, Repr

/-- Four zero words. -/
def quadZero : Quad := ⟨0, 0, 0, 0⟩

/-- Every scratch element of the round engine zero (rule R33). -/
def Engine.zero : Engine :=
  ⟨quadZero, quadZero, quadZero, Vector.replicate 5 0, Vector.replicate 3 0, Vector.replicate 19 quadZero, 0, 0, 0⟩

/-- The scratch of the mode controller (rules R23, R31; 20_memory.md rule R50). -/
structure ModeRegs where
  /-- `I`, the block index within a message. -/
  i     : BitVec 32
  /-- `NB`, the number of blocks of the message. -/
  nb    : BitVec 32
  /-- `IVR`, the IV of the message. -/
  ivr   : Vector Byte 32
  /-- `CHAIN`, the chain value. -/
  chain : Vector Byte 32
  /-- `BLK`, the block handed to the round engine, and after the operation the block it returned. -/
  blk   : Vector Byte 32
  /-- `PBUF`, the padded (ENC) or assembled (DEC) plaintext. -/
  pbuf  : Memory
deriving DecidableEq, Repr

/-- Every scratch element of the mode controller zero, `PBUF` of length 0 (rules R33, R50). -/
def ModeRegs.zero : ModeRegs :=
  ⟨0, 0, Vector.replicate 32 0, Vector.replicate 32 0, Vector.replicate 32 0, Memory.empty⟩

/-- One answer of the RNG port to a request for 32 bytes (20_memory.md rule R64). -/
inductive RngAnswer where
  | fail
  | bytes (b : Vector Byte 32)
deriving DecidableEq, Repr

/-- What HOST does at the interface (rules R80, R260). -/
inductive HostEvent where
  /-- A command: a header word and a payload (rule R80). `IBUF` takes exactly `LEN` bytes: payload
  bytes beyond `LEN` are not part of the command, bytes of it that are not listed are 0. -/
  | command (header : BitVec 64) (payload : Bytes)
  /-- The reset input while no command executes (rule R260). -/
  | reset
  /-- The reset input while this command executes (rule R260). `answers` says how far the abandoned command
  had come: how many answers of the RNG and of the scratch oracle, in the order it asks for them, it had taken
  of those that its complete run takes. -/
  | resetDuring (header : BitVec 64) (payload : Bytes) (answers : Nat)
deriving DecidableEq, Repr

/-- The state of the machine (rule R20). -/
structure State where
  /-- `KEY`, 32 bytes (rule R25). -/
  key       : Vector Byte 32
  /-- `KLEN`, 0 (unset) or 32 (rule R25). -/
  klen      : BitVec 6
  /-- `TWEAK`, 16 bytes (rule R26). -/
  tweak     : Vector Byte 16
  /-- `TLEN`, 0 (unset) or 16 (rule R26). -/
  tlen      : BitVec 5
  /-- `BLEN`, the block length (rule R27). -/
  blen      : BitVec 6
  /-- `STATUS` (rule R28). -/
  status    : BitVec 64
  /-- `OBUF`, the result of the last completed command (20_memory.md rule R50). -/
  obuf      : Memory
  /-- `IBUF`, the payload of the command being executed (20_memory.md rule R50). -/
  ibuf      : Memory
  /-- The round engine's scratch. -/
  eng       : Engine
  /-- The mode controller's scratch. -/
  mode      : ModeRegs
  /-- The parameters of this machine, fixed (rule R4). The model's own field. -/
  cfg       : Config
  /-- What HOST does, in order, the next event first (rules R8, R80). The model's own field. -/
  hostIn    : List HostEvent
  /-- The answers the RNG agent gives to the coming requests, in order; when the list is empty the RNG
  has not answered (rules R8, R64, R268). The model's own field. -/
  rngIn     : List RngAnswer
  /-- What the `SCRATCH_OK` oracle answers to the coming block operations, in order; after them it
  answers true, its default (rules R4, R152). The model's own field. -/
  scratchIn : List Bool
deriving DecidableEq, Repr

/-- Why the machine stops. -/
inductive Fault where
  /-- A stuck state (rule R268; 93_implementation_defined.md U7): ENC has made its RNG request and the
  RNG agent has not answered, so ENGINE has no step until it does. Raised by ENC alone. Safe: the spec
  gives ENGINE no step past a pending request. -/
  | rngPending
  /-- An access outside the current length of a byte space (rule R59). Raised by a meaning applied to a
  state whose `IBUF` is shorter than the command's `LEN`, which `step` never produces. Safe. -/
  | outOfBounds
deriving DecidableEq, Repr

/-- Why an instruction is given no meaning. -/
inductive Refusal where
  /-- No meaning written for the instruction. Raised by no instruction of this model. Safe. -/
  | notModelled (mnemonic : String)
deriving DecidableEq, Repr

/-- The machine right after reset (rules R36, R260): key and tweak unset and zero, `STATUS` with
`OK = 1`, `REASON = 0`, `RLEN = 0`, byte spaces empty, scratch zero, the default parameters, and no
input of HOST, RNG or the scratch oracle yet. -/
def State.reset : State where
  key       := Vector.replicate 32 0
  klen      := 0
  tweak     := Vector.replicate 16 0
  tlen      := 0
  blen      := 0
  status    := statusOk 0
  obuf      := Memory.empty
  ibuf      := Memory.empty
  eng       := Engine.zero
  mode      := ModeRegs.zero
  cfg       := defaultConfig
  hostIn    := []
  rngIn     := []
  scratchIn := []

end Sys2Proof.Machine
end

