-- ==== Sys2Proof/Machine/KeySchedule.lean ====
section
/-! DEFINITION. Key-schedule expansion (42_key_schedule.md rules R140 to R143). -/

namespace Sys2Proof.Machine

/-- The extended key (rule R140): the four key words and their parity word. -/
def extKey (k : Vector Byte 32) : Vector Word 5 :=
  let q := blockWords k
  #v[q.w0, q.w1, q.w2, q.w3, c240 ^^^ q.w0 ^^^ q.w1 ^^^ q.w2 ^^^ q.w3]

/-- The extended tweak (rule R141): the two tweak words and their XOR. -/
def extTweak (t : Vector Byte 16) : Vector Word 3 :=
  let w := pairWords t
  #v[w.1, w.2, w.1 ^^^ w.2]

/-- `KX[n mod 5]`. -/
def kxAt (kx : Vector Word 5) (n : Nat) : Word := kx[n % 5]'(Nat.mod_lt n (by decide))

/-- `TX[n mod 3]`. -/
def txAt (tx : Vector Word 3) (n : Nat) : Word := tx[n % 3]'(Nat.mod_lt n (by decide))

/-- Subkey group `g` (rule R142). -/
def subkey (kx : Vector Word 5) (tx : Vector Word 3) (g : Nat) : Quad :=
  ⟨kxAt kx g,
   kxAt kx (g + 1) + txAt tx g,
   kxAt kx (g + 2) + txAt tx (g + 1),
   kxAt kx (g + 3) + BitVec.ofNat 64 g⟩

/-- The step of rule R142 for one `G`: the counter and the group's four words are written. -/
def expandGroup (en : Engine) (g : Nat) : Engine :=
  { en with g := BitVec.ofNat 5 g, sk := en.sk.setIfInBounds g (subkey en.kx en.tx g) }

/-- `ksx` (rule R143): `KX`, then `TX`, then the 19 groups of `SK`. -/
def Engine.expand (en : Engine) (k : Vector Byte 32) (t : Vector Byte 16) : Engine :=
  (List.range numGroups).foldl expandGroup { en with kx := extKey k, tx := extTweak t }

/-- `SK[g]`, for `g` in 0..18. -/
def Engine.group (en : Engine) (g : Nat) : Quad := en.sk.getD g quadZero

end Sys2Proof.Machine
end

