-- ==== Sys2Proof/Machine/RoundEngine.lean ====
section
/-! DEFINITION. The 72 forward and the 72 backward rounds over the engine's registers
(43_block_ops.md rules R150, R151, R153). -/

namespace Sys2Proof.Machine

/-- MIX of pair `j` in round `d`: `(F[2J], F[2J+1]) <- mix(E[2J], E[2J+1], D, J)` (rule R150). -/
def Engine.mixPair (t : RotTable) (d : Nat) (en : Engine) (j : Nat) : Engine :=
  { en with
    j := BitVec.ofNat 1 j
    f := setPair en.f j (mix t (pairOf en.e j).1 (pairOf en.e j).2 d j) }

/-- Inverse MIX of pair `j` in round `d`: `(E[2J], E[2J+1]) <- unmix(F[2J], F[2J+1], D, J)` (rule R151). -/
def Engine.unmixPair (t : RotTable) (d : Nat) (en : Engine) (j : Nat) : Engine :=
  { en with
    j := BitVec.ofNat 1 j
    e := setPair en.e j (unmix t (pairOf en.f j).1 (pairOf en.f j).2 d j) }

/-- The first step of forward round `d`: `E <- addsk(V, D/4)` when `D mod 4 = 0`, else `E <- V` (rule R150). -/
def Engine.inject (en : Engine) (d : Nat) : Engine :=
  if d % 4 = 0 then
    { en with d := BitVec.ofNat 7 d, g := BitVec.ofNat 5 (d / 4), e := addsk en.v (en.group (d / 4)) }
  else
    { en with d := BitVec.ofNat 7 d, e := en.v }

/-- The last step of backward round `d`: `V <- subsk(E, D/4)` when `D mod 4 = 0`, else `V <- E` (rule R151). -/
def Engine.remove (en : Engine) (d : Nat) : Engine :=
  if d % 4 = 0 then
    { en with g := BitVec.ofNat 5 (d / 4), v := subsk en.e (en.group (d / 4)) }
  else
    { en with v := en.e }

/-- Forward round `d` (rule R150): subkey if due, MIX of both pairs, permutation. -/
def Engine.forwardRound (t : RotTable) (en : Engine) (d : Nat) : Engine :=
  let en := [0, 1].foldl (Engine.mixPair t d) (en.inject d)
  { en with v := perm en.f }

/-- Backward round `d` (rule R151): inverse permutation, inverse MIX of both pairs, subkey if due. -/
def Engine.backwardRound (t : RotTable) (en : Engine) (d : Nat) : Engine :=
  let en := { en with d := BitVec.ofNat 7 d, f := unperm en.v }
  ([0, 1].foldl (Engine.unmixPair t d) en).remove d

/-- The engine's registers at the end of the forward operation, before they are zeroized: `ksx`, load,
72 rounds, final group 18 (rule R150). -/
def Engine.runForward (t : RotTable) (p k : Vector Byte 32) (tw : Vector Byte 16) (en : Engine) : Engine :=
  let en := en.expand k tw
  let en := { en with v := blockWords p }
  let en := (List.range numRounds).foldl (Engine.forwardRound t) en
  { en with g := 18, v := addsk en.v (en.group 18) }

/-- The engine's registers at the end of the backward operation, before they are zeroized: `ksx`, load,
group 18 removed, the rounds descending (rule R151). -/
def Engine.runBackward (t : RotTable) (c k : Vector Byte 32) (tw : Vector Byte 16) (en : Engine) : Engine :=
  let en := en.expand k tw
  let en := { en with v := blockWords c }
  let en := { en with g := 18, v := subsk en.v (en.group 18) }
  (List.range numRounds).reverse.foldl (Engine.backwardRound t) en

/-- The end of a block operation (rule R153): every scratch element of the engine is zeroized. -/
def Engine.zeroize (_ : Engine) : Engine := Engine.zero

/-- The result bytes of the forward operation on 32-byte `p`, 32-byte `k`, 16-byte `tw`: the function
the engine computes (rule R150). -/
def cipherEncrypt (t : RotTable) (k : Vector Byte 32) (tw : Vector Byte 16) (p : Vector Byte 32) : Bytes :=
  blockBytes (Engine.zero.runForward t p k tw).v

/-- The result bytes of the backward operation (rule R151). -/
def cipherDecrypt (t : RotTable) (k : Vector Byte 32) (tw : Vector Byte 16) (c : Vector Byte 32) : Bytes :=
  blockBytes (Engine.zero.runBackward t c k tw).v

end Sys2Proof.Machine
end

