-- ==== Sys2Proof/Machine/Ops.lean ====
section
/-! DEFINITION. The named operations over the byte spaces, the registers and the ports: reads and
writes of a space (20_memory.md), zeroization, failure entry and success completion (rule R234 and the
end of every command's pseudocode), the RNG and `SCRATCH_OK` ports, the presentation of a command and
the reset event. -/

namespace Sys2Proof.Machine

/-- The byte the cells give offset `a`: 0 where they list none. -/
def cellAt : List Host.Cell → Nat → Byte
  | [],           _ => 0
  | (x, b) :: cs, a => if x = a then b else cellAt cs a

/-- The cells with offset `a` holding `b`, in canonical form: writing 0 removes the entry. -/
def setCell : List Host.Cell → Nat → Byte → List Host.Cell
  | [],           a, b => if b = 0 then [] else [(a, b)]
  | (x, c) :: cs, a, b =>
    if a < x then (if b = 0 then (x, c) :: cs else (a, b) :: (x, c) :: cs)
    else if x = a then (if b = 0 then cs else (a, b) :: cs)
    else (x, c) :: setCell cs a b

/-- The byte at offset `a` of a space; 0 outside it. -/
def Memory.byteAt (m : Memory) (a : Nat) : Byte := cellAt m.cells a

/-- The byte at offset `a`, none where the space has no such offset (rules R50, R59). -/
def Memory.byte? (m : Memory) (a : Nat) : Option Byte := if a < m.len then some (m.byteAt a) else none

/-- `MemRead(S+a, n)` (rule R7) for an access a rule has shown to lie inside the space. -/
def Memory.read (m : Memory) (a n : Nat) : Bytes := (List.range n).map fun i => m.byteAt (a + i)

/-- `MemRead(S+a, n)`, none when `a + n` exceeds the length of the space (rule R59). -/
def Memory.read? (m : Memory) (a n : Nat) : Option Bytes :=
  if a + n ≤ m.len then some (m.read a n) else none

/-- The whole content of a space as a byte string. -/
def Memory.bytes (m : Memory) : Bytes := m.read 0 m.len

/-- Write of one byte; an offset outside the space holds nothing (rule R59). -/
def Memory.setByte (m : Memory) (a : Nat) (b : Byte) : Memory :=
  if a < m.len then { m with cells := setCell m.cells a b } else m

/-- `MemWrite(S+a, n, v)` with `n = len(v)` (rule R7). -/
def Memory.write (m : Memory) (a : Nat) : Bytes → Memory
  | []      => m
  | b :: bs => (m.setByte a b).write (a + 1) bs

/-- The cells of a byte string from offset `a` on. -/
def cellsFrom (a : Nat) : Bytes → List Host.Cell
  | []      => []
  | b :: bs => if b = 0 then cellsFrom (a + 1) bs else (a, b) :: cellsFrom (a + 1) bs

/-- The space whose content is exactly this byte string. -/
def Memory.ofBytes (b : Bytes) : Memory := ⟨b.length, cellsFrom 0 b⟩

/-- Write of the round engine's registers. -/
def setEngine (en : Engine) (s : State) : State := { s with eng := en }

/-- Zeroization of every scratch element of rule R20 (rule R33). -/
def zeroizeScratch (s : State) : State := { s with eng := Engine.zero, mode := ModeRegs.zero }

/-- Failure entry, `raise Fail(R)` (rule R234): the scratch is zeroized, `OBUF` is empty, `STATUS` holds
the reason, nothing else changes. -/
def raiseFail (r : Reason) (s : State) : State :=
  { zeroizeScratch s with obuf := Memory.empty, status := statusFail r }

/-- A command that ends in `raise Fail(R)` (rules R230, R234). -/
def failWith (r : Reason) (s : State) : Host.Outcome State Fault Refusal := .next (raiseFail r s)

/-- Success completion: `OBUF` is written as a whole, the scratch is zeroized and `STATUS` is
`(OK = 1, REASON = 0, RLEN = len(out))` (rules R28, R33, R51). -/
def succeed (out : Bytes) (s : State) : State :=
  { zeroizeScratch s with obuf := Memory.ofBytes out, status := statusOk out.length }

/-- A command that ends in success (rule R230). -/
def succeedWith (out : Bytes) (s : State) : Host.Outcome State Fault Refusal := .next (succeed out s)

/-- The stored key as a byte string, `KLEN` bytes (rule R25). -/
def keyBytes (s : State) : Bytes := s.key.toList.take s.klen.toNat

/-- The stored tweak as a byte string, `TLEN` bytes (rule R26). -/
def tweakBytes (s : State) : Bytes := s.tweak.toList.take s.tlen.toNat

/-- The predicate `configured` (rule R174). -/
def configured (s : State) : Bool := s.klen != 0 && s.tlen != 0

/-- `RngRead(32)` (rules R7, R64): the RNG agent's next answer is taken; none when it has not answered. -/
def rngRead (s : State) : Option (RngAnswer × State) :=
  match s.rngIn with
  | []      => none
  | a :: as => some (a, { s with rngIn := as })

/-- What `SCRATCH_OK` answers to the next block operation: true by default (rules R4, R152). -/
def scratchAnswer (s : State) : Bool := s.scratchIn.headD true

/-- One consultation of the `SCRATCH_OK` oracle takes its answer (rule R152). -/
def takeScratchAnswer (s : State) : State := { s with scratchIn := s.scratchIn.tail }

/-- HOST presents a command: its payload becomes `IBUF`, of `LEN` bytes (rules R50, R80). Bytes the
event lists beyond `LEN` are not part of the command; bytes it does not list are 0. -/
def presentPayload (len : BitVec 32) (payload : Bytes) (s : State) : State :=
  { s with ibuf := ⟨len.toNat, cellsFrom 0 (payload.take len.toNat)⟩ }

/-- The reset event (rules R36, R260): every element of state takes its reset value; the parameters of
the machine and what the other agents go on to do are not state of the machine and stay. -/
def resetEvent (s : State) : State :=
  { State.reset with cfg := s.cfg, hostIn := s.hostIn, rngIn := s.rngIn, scratchIn := s.scratchIn }

end Sys2Proof.Machine
end

