-- ==== Sys2Proof/Machine/Operands.lean ====
section
/-! DEFINITION. The operand forms of the three header formats, read from `IBUF`
(30_encoding.md rules R81, R82, R83). -/

namespace Sys2Proof.Machine

/-- Format L: the operand is the whole payload `IBUF[0..LEN)` (rule R81). -/
def operandL (len : BitVec 32) (s : State) : Option Bytes := s.ibuf.read? 0 len.toNat

/-- Format X: `a = IBUF[0..LENA)` and `b = IBUF[LENA..LEN)` (rule R82). -/
def operandX (lena : BitVec 24) (len : BitVec 32) (s : State) : Option (Bytes × Bytes) :=
  match s.ibuf.read? 0 lena.toNat, s.ibuf.read? lena.toNat (len.toNat - lena.toNat) with
  | some a, some b => some (a, b)
  | _,      _      => none

/-- A sized operand: the `n` bytes `IBUF[a..a+n)` (rule R113). -/
def operandSized (n a : Nat) (s : State) : Option (Vector Byte n) := (s.ibuf.read? a n).bind (sized n)

/-- Format M: two words, `IBUF[0..8)` and `IBUF[8..16)`, each little-endian (rule R83). -/
def operandM (s : State) : Option (Word × Word) := (operandSized 16 0 s).map pairWords

/-- The operand of PERM and UNPERM: the four words of the payload (rules R130, R131). -/
def operandWords (s : State) : Option Quad := (operandSized 32 0 s).map blockWords

/-- The operand of KSX: `IBUF[0..32)` a key and `IBUF[32..48)` a tweak (rule R144). -/
def operandKeyTweak (s : State) : Option (Vector Byte 32 × Vector Byte 16) :=
  match operandSized 32 0 s, operandSized 16 32 s with
  | some k, some t => some (k, t)
  | _,      _      => none

end Sys2Proof.Machine
end

