-- ==== Sys2Proof/Machine/BlockOps.lean ====
section
/-! DEFINITION. The block operations over the state and the commands ENCB and DECB
(43_block_ops.md rules R150 to R155). -/

namespace Sys2Proof.Machine

/-- The operands of a block operation at their sizes, none when a length is not the one an operation is
admitted with (rules R113, R152). -/
def blockOperands (b k t : Bytes) (blockSize : Nat) :
    Option (Vector Byte 32 × Vector Byte 32 × Vector Byte 16) :=
  match sized 32 b, sized 32 k, sized 16 t with
  | some b, some k, some t => if blockSize = blockLen then some (b, k, t) else none
  | _,      _,      _      => none

/-- `EncryptBlock(P, K, T, block_size)` (rules R150, R152, R153): none and no register written when it is
not admitted; otherwise the ciphertext block, with the engine's scratch zeroized after it is copied out.
The `SCRATCH_OK` oracle is consulted once for an operation whose lengths are right. -/
def encryptBlock (p k t : Bytes) (blockSize : Nat) (s : State) : State × Option Bytes :=
  match blockOperands p k t blockSize with
  | none           => (s, none)
  | some (p, k, t) =>
    if scratchAnswer s then
      let en := s.eng.runForward s.cfg.rot p k t
      (setEngine en.zeroize (takeScratchAnswer s), some (blockBytes en.v))
    else (takeScratchAnswer s, none)

/-- `DecryptBlock(C, K, T, block_size)` (rules R151, R152, R153). -/
def decryptBlock (c k t : Bytes) (blockSize : Nat) (s : State) : State × Option Bytes :=
  match blockOperands c k t blockSize with
  | none           => (s, none)
  | some (c, k, t) =>
    if scratchAnswer s then
      let en := s.eng.runBackward s.cfg.rot c k t
      (setEngine en.zeroize (takeScratchAnswer s), some (blockBytes en.v))
    else (takeScratchAnswer s, none)

/-- `BLK <- b` (rule R31): the block handed to the round engine, or the block it returned. -/
def loadBlk (b : Bytes) (s : State) : State := { s with mode := { s.mode with blk := regOfBytes 32 b } }

/-- ENCB (rule R154): `CONFIG`, then `ARGUMENT`, then `RESOURCE` (rule R233). -/
def execEncb (len : BitVec 32) (s : State) : Host.Outcome State Fault Refusal :=
  if !configured s then failWith .config s
  else if len ≠ 32 then failWith .argument s
  else
    match operandL len s with
    | none   => .fault .outOfBounds
    | some p =>
      let s1 := loadBlk p s
      match encryptBlock s1.mode.blk.toList (keyBytes s1) (tweakBytes s1) s1.blen.toNat s1 with
      | (s2, none)   => failWith .resource s2
      | (s2, some c) => succeedWith c (loadBlk c s2)

/-- DECB (rule R155). -/
def execDecb (len : BitVec 32) (s : State) : Host.Outcome State Fault Refusal :=
  if !configured s then failWith .config s
  else if len ≠ 32 then failWith .argument s
  else
    match operandL len s with
    | none   => .fault .outOfBounds
    | some c =>
      let s1 := loadBlk c s
      match decryptBlock s1.mode.blk.toList (keyBytes s1) (tweakBytes s1) s1.blen.toNat s1 with
      | (s2, none)   => failWith .resource s2
      | (s2, some p) => succeedWith p (loadBlk p s2)

end Sys2Proof.Machine
end

