-- ==== Sys2Proof/Machine/Diagnostic.lean ====
section
/-! DEFINITION. The diagnostic commands MIX, UNMIX, PERM, UNPERM and KSX
(41_round_primitives.md rules R128 to R131, 42_key_schedule.md rule R144). Each works on its own
payload, with the engine's registers as scratch (10_state.md rule R35); a payload length other than the
encoding's is an illegal header (30_encoding.md rules R86, R87). -/

namespace Sys2Proof.Machine

/-- MIX (rule R128): `mix` with `d = ROW`, `j = COL`. -/
def execMix (row : BitVec 3) (col : BitVec 1) (len : BitVec 32) (s : State) : Host.Outcome State Fault Refusal :=
  if len ≠ 16 then failWith .illegal s
  else
    match operandM s with
    | none          => .fault .outOfBounds
    | some (x0, x1) =>
      let en1 := { s.eng with e := setPair s.eng.e 0 (x0, x1) }
      let en2 := { en1 with f := setPair en1.f 0 (mix s.cfg.rot (pairOf en1.e 0).1 (pairOf en1.e 0).2 row.toNat col.toNat) }
      succeedWith (w2b [(pairOf en2.f 0).1, (pairOf en2.f 0).2]) (setEngine en2 s)

/-- UNMIX (rule R129): `unmix` with `d = ROW`, `j = COL`. -/
def execUnmix (row : BitVec 3) (col : BitVec 1) (len : BitVec 32) (s : State) : Host.Outcome State Fault Refusal :=
  if len ≠ 16 then failWith .illegal s
  else
    match operandM s with
    | none          => .fault .outOfBounds
    | some (y0, y1) =>
      let en1 := { s.eng with f := setPair s.eng.f 0 (y0, y1) }
      let en2 := { en1 with e := setPair en1.e 0 (unmix s.cfg.rot (pairOf en1.f 0).1 (pairOf en1.f 0).2 row.toNat col.toNat) }
      succeedWith (w2b [(pairOf en2.e 0).1, (pairOf en2.e 0).2]) (setEngine en2 s)

/-- PERM (rule R130). -/
def execPerm (len : BitVec 32) (s : State) : Host.Outcome State Fault Refusal :=
  if len ≠ 32 then failWith .illegal s
  else
    match operandWords s with
    | none   => .fault .outOfBounds
    | some f =>
      let en1 := { s.eng with f := f }
      let en2 := { en1 with v := perm en1.f }
      succeedWith (blockBytes en2.v) (setEngine en2 s)

/-- UNPERM (rule R131). -/
def execUnperm (len : BitVec 32) (s : State) : Host.Outcome State Fault Refusal :=
  if len ≠ 32 then failWith .illegal s
  else
    match operandWords s with
    | none   => .fault .outOfBounds
    | some v =>
      let en1 := { s.eng with v := v }
      let en2 := { en1 with f := unperm en1.v }
      succeedWith (blockBytes en2.f) (setEngine en2 s)

/-- The result layout of KSX: `KX`, `TX`, then the groups in order (rule R144). -/
def scheduleBytes (en : Engine) : Bytes :=
  w2b en.kx.toList ++ w2b en.tx.toList ++ en.sk.toList.flatMap blockBytes

/-- KSX (rule R144), on the key and the tweak of its own payload. -/
def execKsx (len : BitVec 32) (s : State) : Host.Outcome State Fault Refusal :=
  if len ≠ 48 then failWith .illegal s
  else
    match operandKeyTweak s with
    | none        => .fault .outOfBounds
    | some (k, t) =>
      let en := s.eng.expand k t
      succeedWith (scheduleBytes en) (setEngine en s)

end Sys2Proof.Machine
end

