-- ==== Sys2Proof/Machine/Management.lean ====
section
/-! DEFINITION. SETKEY, SETTWEAK and XORA (44_cipher_abstraction.md rules R170 to R173). -/

namespace Sys2Proof.Machine

/-- `xor` (rule R172): element-wise, of length `min(len(a), len(b))`. -/
def xorBytes (a b : Bytes) : Bytes := List.zipWith (· ^^^ ·) a b

/-- The previous key is erased and unset (rules R170, R175). -/
def eraseKey (s : State) : State := { s with key := Vector.replicate 32 0, klen := 0 }

/-- A 32-byte key is written and set (rule R170). -/
def storeKey (kb : Bytes) (s : State) : State := { s with key := regOfBytes 32 kb, klen := 32 }

/-- The block length is fixed at key-set time (rules R27, R170). -/
def fixBlockLen (s : State) : State := { s with blen := s.klen }

/-- SETKEY (rule R170). -/
def execSetkey (len : BitVec 32) (s : State) : Host.Outcome State Fault Refusal :=
  if len = 0 then succeedWith [] (fixBlockLen (eraseKey s))
  else if len = 32 then
    match operandL len s with
    | none    => .fault .outOfBounds
    | some kb => succeedWith [] (fixBlockLen (storeKey kb (eraseKey s)))
  else failWith .config s

/-- A 16-byte tweak is written and set (rule R171). -/
def storeTweak (tb : Bytes) (s : State) : State := { s with tweak := regOfBytes 16 tb, tlen := 16 }

/-- SETTWEAK (rule R171). -/
def execSettweak (len : BitVec 32) (s : State) : Host.Outcome State Fault Refusal :=
  if len = 16 then
    match operandL len s with
    | none    => .fault .outOfBounds
    | some tb => succeedWith [] (storeTweak tb s)
  else failWith .config s

/-- XORA (rule R173); `LENA > LEN` is an illegal header (rule R87). -/
def execXora (lena : BitVec 24) (len : BitVec 32) (s : State) : Host.Outcome State Fault Refusal :=
  if len.toNat < lena.toNat then failWith .illegal s
  else
    match operandX lena len s with
    | none        => .fault .outOfBounds
    | some (a, b) => succeedWith (xorBytes a b) s

end Sys2Proof.Machine
end

