-- ==== Sys2Proof/Machine/ModeController.lean ====
section
/-! DEFINITION. The chaining and padding mode controller: its six micro-operations and the commands
ENC and DEC (45_mode_controller.md rules R190 to R197). -/

namespace Sys2Proof.Machine

/-- `IVR <- b` (rules R190, R197). -/
def loadIvr (b : Bytes) (s : State) : State := { s with mode := { s.mode with ivr := regOfBytes 32 b } }

/-- `CHAIN <- b` (rules R194, R195). -/
def loadChain (b : Bytes) (s : State) : State := { s with mode := { s.mode with chain := regOfBytes 32 b } }

/-- Write of `PBUF` as a space (20_memory.md rule R50). -/
def setPbuf (m : Memory) (s : State) : State := { s with mode := { s.mode with pbuf := m } }

/-- `ivgen` (rule R190): one request to the RNG port. None while the RNG has not answered; false when it
answered `Fail`; true with the 32 bytes in `IVR`. -/
def ivgen (s : State) : Option (Bool × State) :=
  match rngRead s with
  | none               => none
  | some (.fail, s1)    => some (false, s1)
  | some (.bytes b, s1) => some (true, { s1 with mode := { s1.mode with ivr := b } })

/-- `NB` for a plaintext of `n` bytes: `ceil(n / BLEN) + 1` (rule R191). -/
def padBlocks (blen n : Nat) : Nat := (n + (blen - 1)) / blen + 1

/-- `pad` (rule R191): `NB`, and `PBUF` the plaintext filled up with zero bytes to `BLEN * NB`. -/
def pad (p : Bytes) (s : State) : State :=
  let blen := s.blen.toNat
  let nb := padBlocks blen p.length
  { s with mode := { s.mode with
      nb   := BitVec.ofNat 32 nb
      pbuf := Memory.ofBytes (p ++ zeros (blen * nb - p.length)) } }

/-- The length fits a non-negative 32-bit signed integer (rule R192). -/
def lengthFits (n : Nat) : Bool := decide (n ≤ maxPlain)

/-- The four trailer bytes of a length, little-endian (rules R53, R192). -/
def trailerBytes (n : Nat) : Bytes :=
  (List.range 4).map fun k => (BitVec.ofNat 32 n).extractLsb' (8 * k) 8

/-- The write of `trenc` (rule R192): the last 4 bytes of `PBUF` take the length. -/
def writeTrailer (n : Nat) (s : State) : State :=
  { s with mode := { s.mode with
      pbuf := s.mode.pbuf.write (s.blen.toNat * s.mode.nb.toNat - 4) (trailerBytes n) } }

/-- `I <- n` (rule R23). -/
def setI (n : Nat) (s : State) : State := { s with mode := { s.mode with i := BitVec.ofNat 32 n } }

/-- One turn of `cbce` (rule R194): chain, encrypt, and the emitted block, which `BLK` then holds (rule R31),
becomes the chain value. -/
def cbceTurn (i : Nat) (s : State) : State × Option Bytes :=
  let blen := s.blen.toNat
  let s1 := loadBlk (xorBytes s.mode.chain.toList (s.mode.pbuf.read (blen * i) blen)) (setI i s)
  match encryptBlock s1.mode.blk.toList (keyBytes s1) (tweakBytes s1) blen s1 with
  | (s2, none)   => (s2, none)
  | (s2, some c) => (loadChain c (loadBlk c s2), some c)

/-- The turns `i .. i+n-1` of `cbce`, their blocks in order after `acc`; stopped at the first block
operation that fails. -/
def cbceLoop : Nat → Nat → Bytes → State → State × Option Bytes
  | 0,     _, acc, s => (s, some acc)
  | n + 1, i, acc, s =>
    match cbceTurn i s with
    | (s1, none)   => (s1, none)
    | (s1, some c) => cbceLoop n (i + 1) (acc ++ c) s1

/-- `cbce` (rule R194): the ciphertext blocks `C_0 .. C_{NB-1}` in order. -/
def cbce (s : State) : State × Option Bytes :=
  cbceLoop s.mode.nb.toNat 0 [] (loadChain s.mode.ivr.toList s)

/-- One turn of `cbcd` (rule R195): decrypt, unchain into `PBUF`, the raw ciphertext block becomes the chain
value, and `BLK` then holds the raw decrypted block (rule R31; notes/assumptions/14.md). -/
def cbcdTurn (i : Nat) (s : State) : State × Bool :=
  let blen := s.blen.toNat
  let s1 := loadBlk (s.ibuf.read (blen + blen * i) blen) (setI i s)
  match decryptBlock s1.mode.blk.toList (keyBytes s1) (tweakBytes s1) blen s1 with
  | (s2, none)   => (s2, false)
  | (s2, some r) =>
    (loadBlk r (loadChain s2.mode.blk.toList
      (setPbuf (s2.mode.pbuf.write (blen * i) (xorBytes r s2.mode.chain.toList)) s2)), true)

/-- The turns `i .. i+n-1` of `cbcd`, stopped at the first block operation that fails. -/
def cbcdLoop : Nat → Nat → State → State × Bool
  | 0,     _, s => (s, true)
  | n + 1, i, s =>
    match cbcdTurn i s with
    | (s1, false) => (s1, false)
    | (s1, true)  => cbcdLoop n (i + 1) s1

/-- The set-up of `cbcd`: `NB`, and `PBUF` of `BLEN * NB` bytes (rules R50, R195, R197). -/
def openBody (nb : Nat) (s : State) : State :=
  { s with mode := { s.mode with nb := BitVec.ofNat 32 nb, pbuf := Memory.blank (s.blen.toNat * nb) } }

/-- `cbcd` (rule R195): `PBUF` holds the recovered blocks; false when a block operation failed. -/
def cbcd (s : State) : State × Bool :=
  cbcdLoop s.mode.nb.toNat 0 (loadChain s.mode.ivr.toList s)

/-- The signed value of four trailer bytes, `sext_32` of their little-endian number (rules R6, R193). -/
def trailerValue (t : Bytes) : Int := (BitVec.ofNat 32 (leValue t)).toInt

/-- `trdec` (rule R193): the length in the last 4 bytes of `PBUF`, none when it is below 0 or above the
assembled length. -/
def trdec (s : State) : Option Nat :=
  let a := s.mode.pbuf.len
  let l := trailerValue (s.mode.pbuf.read (a - 4) 4)
  if l < 0 ∨ (a : Int) < l then none else some l.toNat

/-- ENC (rule R196). The length test of `trenc` stands before `pad`, as rule R196 allows, so `PBUF` never
exceeds the bound of rule R20. -/
def execEnc (len : BitVec 32) (s : State) : Host.Outcome State Fault Refusal :=
  if !configured s then failWith .config s
  else
    match ivgen s with
    | none             => .fault .rngPending
    | some (false, s1) => failWith .random s1
    | some (true, s1)  =>
      if !lengthFits len.toNat then failWith .length s1
      else
        match operandL len s1 with
        | none   => .fault .outOfBounds
        | some p =>
          match cbce (writeTrailer p.length (pad p s1)) with
          | (s2, none)    => failWith .resource s2
          | (s2, some cs) => succeedWith (s2.mode.ivr.toList ++ cs) s2

/-- The number of body bytes a DEC is refused for: not a whole number of blocks, under
`DEC_PARTIAL_TAIL = reject` (rule R197, D11). -/
def badBody (cfg : Config) (blen m : Nat) : Bool := m % blen != 0 && cfg.decPartialTail == .reject

/-- DEC (rule R197). -/
def execDec (len : BitVec 32) (s : State) : Host.Outcome State Fault Refusal :=
  if !configured s then failWith .config s
  else if len.toNat < s.blen.toNat then failWith .corrupt s
  else
    match operandL len s with
    | none   => .fault .outOfBounds
    | some c =>
      let s1 := loadIvr (c.take s.blen.toNat) s
      let m := len.toNat - s.blen.toNat
      let nb := m / s.blen.toNat
      if badBody s.cfg s.blen.toNat m then failWith .corrupt s1
      else if nb = 0 then failWith .corrupt s1
      else
        match cbcd (openBody nb s1) with
        | (s2, false) => failWith .resource s2
        | (s2, true)  =>
          match trdec s2 with
          | none   => failWith .corrupt s2
          | some l => succeedWith (s2.mode.pbuf.read 0 l) s2

end Sys2Proof.Machine
end

