-- ==== Sys2Proof/Machine/Dispatch.lean ====
section
/-! DEFINITION. The meaning of each command (30_encoding.md rule R85): one arm per constructor. -/

namespace Sys2Proof.Machine

def exec (i : Instr) (s : State) : Host.Outcome State Fault Refusal :=
  match i with
  | .setkey len => Sys2Proof.Machine.execSetkey len s
  | .settweak len => Sys2Proof.Machine.execSettweak len s
  | .xora lena len => Sys2Proof.Machine.execXora lena len s
  | .encb len => Sys2Proof.Machine.execEncb len s
  | .decb len => Sys2Proof.Machine.execDecb len s
  | .enc len => Sys2Proof.Machine.execEnc len s
  | .dec len => Sys2Proof.Machine.execDec len s
  | .mix row col len => Sys2Proof.Machine.execMix row col len s
  | .unmix row col len => Sys2Proof.Machine.execUnmix row col len s
  | .perm len => Sys2Proof.Machine.execPerm len s
  | .unperm len => Sys2Proof.Machine.execUnperm len s
  | .ksx len => Sys2Proof.Machine.execKsx len s

end Sys2Proof.Machine
end

