-- ==== Sys2Proof/Machine/Transaction.lean ====
section
/-! DEFINITION. What the machine does with a command HOST presents: it runs to its completion
(20_memory.md rule R61, 30_encoding.md rules R80, R87), or a reset abandons it (70_reset_and_hazards.md
rule R260). -/

namespace Sys2Proof.Machine

/-- A command with header `h` whose payload stands in `IBUF`: an illegal header fails with `ILLEGAL`
(rule R87), any other runs its command. -/
def runHeader (h : BitVec 64) (s : State) : Host.Outcome State Fault Refusal :=
  match decode h with
  | .ok i    => exec i s
  | .error _ => failWith .illegal s

/-- A command HOST presents, from its start to its completion (rules R61, R80). -/
def runCommand (h : BitVec 64) (payload : Bytes) (s : State) : Host.Outcome State Fault Refusal :=
  runHeader h (presentPayload (hdrLen h) payload s)

/-- How many of the listed answers of the RNG, and of the scratch oracle, a command takes from its start to
its completion (rules R64, R152); a command that waits for the RNG has taken none. -/
def answersTaken (h : BitVec 64) (payload : Bytes) (s : State) : Nat × Nat :=
  match runCommand h payload s with
  | .next t    => (s.rngIn.length - t.rngIn.length, s.scratchIn.length - t.scratchIn.length)
  | .fault _   => (0, 0)
  | .refused _ => (0, 0)

/-- A reset while a command executes (rule R260): the command is abandoned and the state is the reset state.
The first `answers` of the answers its complete run takes are gone; a command asks the RNG before the scratch
oracle (rule R196). -/
def resetAbandoning (h : BitVec 64) (payload : Bytes) (answers : Nat) (s : State) : State :=
  let taken := answersTaken h payload s
  resetEvent { s with
    rngIn := s.rngIn.drop (min answers taken.1)
    scratchIn := s.scratchIn.drop (min (answers - taken.1) taken.2) }

end Sys2Proof.Machine
end

