-- ==== Sys2Proof/Machine/Step.lean ====
section
/-! DEFINITION. One step of the machine: the next event of HOST takes place, a command from its start
to its completion (20_memory.md rule R61, 30_encoding.md rule R80). -/

namespace Sys2Proof.Machine

/-- One step. With no event of HOST, ENGINE is idle and every element keeps its value (rules R36, R240). -/
def step (s : State) : Host.Outcome State Fault Refusal :=
  match s.hostIn with
  | []                            => .next s
  | .command h p :: es            => runCommand h p { s with hostIn := es }
  | .reset :: es                  => .next (resetEvent { s with hostIn := es })
  | .resetDuring h p n :: es      => .next (resetAbandoning h p n { s with hostIn := es })

/-- The state in which the next step executes the command whose header bits are `w`, as the opcode table
numbers them, with a payload of `LEN` bytes of value 0: HOST presents it before anything else. -/
def State.withFetchWord (s : State) (nbits w : Nat) : State :=
  { s with hostIn := .command (tableHeader nbits w) [] :: s.hostIn }

end Sys2Proof.Machine
end

