-- ==== Sys2Proof/Safety.lean ====
section
/-! DEFINITION. The terms in which claims about the machine are stated: the invariant of reachable
states, the ways a command may end, when a machine is ready for the cipher commands, an illegal header
said of its bits, the formulas of the mode controller on byte strings, and the rounds of a block
operation on words. -/

namespace Sys2Proof.Machine

/-- Every scratch element is zero (rule R33). -/
def ScratchZero (s : State) : Prop := s.eng = Engine.zero ∧ s.mode = ModeRegs.zero

/-- `STATUS` and `OBUF` as the completion of a command or reset leaves them (rules R24, R28, R84):
reserved bits 0; `RLEN` is the length of `OBUF`; `OK = 1` with `REASON = 0`, or `OK = 0` with a reason
and an empty result. -/
def ResponseShape (s : State) : Prop :=
  reservedField s.status = 0
  ∧ (rlenField s.status).toNat = s.obuf.len
  ∧ (okFlag s.status = true → reasonField s.status = 0)
  ∧ (okFlag s.status = false → reasonField s.status ≠ 0 ∧ s.obuf = Memory.empty)

/-- The invariant of every state between two commands. -/
structure Invariant (s : State) : Prop where
  /-- `KLEN` is 0 or 32 (rule R25). -/
  klen     : s.klen = 0 ∨ s.klen = 32
  /-- An unset key is zero (rule R25). -/
  key      : s.klen = 0 → s.key = Vector.replicate 32 0
  /-- `TLEN` is 0 or 16 (rule R26). -/
  tlen     : s.tlen = 0 ∨ s.tlen = 16
  /-- An unset tweak is zero (rules R36, R171). -/
  tweak    : s.tlen = 0 → s.tweak = Vector.replicate 16 0
  /-- `BLEN = KLEN` (rule R27). -/
  blen     : s.blen = s.klen
  /-- The response registers (rules R24, R28, R84). -/
  response : ResponseShape s
  /-- `OBUF` is in canonical form and no longer than an offset reaches (rules R50, R66). -/
  obuf     : s.obuf.wf = true
  /-- `IBUF` likewise. -/
  ibuf     : s.ibuf.wf = true
  /-- The scratch is zero (rule R33). -/
  scratch  : ScratchZero s

/-- The machine is ready for ENCB, DECB, ENC and DEC: key and tweak set (rules R174, R261). -/
structure Ready (s : State) : Prop where
  klen : s.klen = 32
  tlen : s.tlen = 16
  blen : s.blen = 32

/-- The scratch oracle answers true to each of the next `n` block operations (rule R152). -/
def ScratchOk (n : Nat) (s : State) : Prop := ∀ b ∈ s.scratchIn.take n, b = true

/-- A header is illegal (rule R87), said of its bits: an opcode not of the map; a reserved bit 1; in format
X `LENA > LEN`; for the diagnostic commands a `LEN` other than the encoding's. -/
def HeaderIllegal (h : BitVec 64) : Prop :=
  let op := h.extractLsb' 0 8
  let len := h.extractLsb' 32 32
  op ∉ [0x01, 0x02, 0x03, 0x10, 0x11, 0x18, 0x19, 0x20, 0x21, 0x22, 0x23, 0x24]
  ∨ (op ∈ [0x01, 0x02, 0x10, 0x11, 0x18, 0x19, 0x22, 0x23, 0x24] ∧ h.extractLsb' 8 24 ≠ 0)
  ∨ (op ∈ [0x20, 0x21] ∧ h.extractLsb' 12 20 ≠ 0)
  ∨ (op = 0x03 ∧ len.toNat < (h.extractLsb' 8 24).toNat)
  ∨ (op ∈ [0x20, 0x21] ∧ len ≠ 16)
  ∨ (op ∈ [0x22, 0x23] ∧ len ≠ 32)
  ∨ (op = 0x24 ∧ len ≠ 48)

/-- The failure reasons each command can raise (rule R232); a success has reason `none`. -/
def mayRaise : Instr → List Reason
  | .setkey _    => [.none, .config, .illegal]
  | .settweak _  => [.none, .config, .illegal]
  | .xora _ _    => [.none, .illegal]
  | .encb _      => [.none, .config, .resource, .argument, .illegal]
  | .decb _      => [.none, .config, .resource, .argument, .illegal]
  | .enc _       => [.none, .config, .resource, .random, .length, .illegal]
  | .dec _       => [.none, .config, .resource, .corrupt, .illegal]
  | .mix _ _ _   => [.none, .illegal]
  | .unmix _ _ _ => [.none, .illegal]
  | .perm _      => [.none, .illegal]
  | .unperm _    => [.none, .illegal]
  | .ksx _       => [.none, .illegal]

/-- The 32-byte blocks of a byte string, in order (rule R57). -/
def blocksOf (b : Bytes) : List Bytes := (List.range (b.length / 32)).map fun i => (b.drop (32 * i)).take 32

/-- The padded plaintext with its trailer (rules R58, R191, R192): the plaintext, zero bytes, and the
little-endian length in the last 4 bytes, `ceil(n/32) + 1` blocks in all. -/
def paddedPlain (p : Bytes) : Bytes :=
  p ++ zeros (32 * ((p.length + 31) / 32 + 1) - 4 - p.length) ++ trailerBytes p.length

/-- `C_0 = E(IV ^ P_0)`, `C_i = E(C_{i-1} ^ P_i)` (rule R194). -/
def chainEncrypt (e : Bytes → Bytes) (chain : Bytes) : List Bytes → List Bytes
  | []      => []
  | p :: ps => e (xorBytes chain p) :: chainEncrypt e (e (xorBytes chain p)) ps

/-- `P_0 = D(C_0) ^ IV`, `P_i = D(C_i) ^ C_{i-1}` (rule R195). -/
def chainDecrypt (d : Bytes → Bytes) (chain : Bytes) : List Bytes → List Bytes
  | []      => []
  | c :: cs => xorBytes (d c) chain :: chainDecrypt d c cs

/-- The ciphertext of a message: the IV, then the chained blocks of the padded plaintext (rules R57, R196). -/
def messageEncrypt (e : Bytes → Bytes) (iv p : Bytes) : Bytes :=
  iv ++ (chainEncrypt e iv (blocksOf (paddedPlain p))).flatten

/-- The assembled buffer of a ciphertext: its whole blocks unchained (rules R195, R197). -/
def messageAssemble (d : Bytes → Bytes) (c : Bytes) : Bytes :=
  (chainDecrypt d (c.take 32) (blocksOf (c.drop 32))).flatten

/-- `E`: `EncryptBlock` of a 32-byte block under the stored key and tweak (rule R194). -/
def storedEncrypt (s : State) (b : Bytes) : Bytes := cipherEncrypt s.cfg.rot s.key s.tweak (regOfBytes 32 b)

/-- `D`: `DecryptBlock` of a 32-byte block under the stored key and tweak (rule R195). -/
def storedDecrypt (s : State) (b : Bytes) : Bytes := cipherDecrypt s.cfg.rot s.key s.tweak (regOfBytes 32 b)

/-- A command's success: the result in `OBUF`, `STATUS` with `OK = 1`, `REASON = 0` and the result's
length, the scratch zero, and nothing else changed (rules R28, R33, R51). -/
def afterSuccess (s : State) (out : Bytes) : State :=
  { s with obuf := Memory.ofBytes out, status := statusOk out.length, eng := Engine.zero, mode := ModeRegs.zero }

/-- A command's failure: `OBUF` empty, `STATUS` with `OK = 0` and the reason, the scratch zero, and nothing
else changed (rule R234). -/
def afterFailure (s : State) (r : Reason) : State :=
  { s with obuf := Memory.empty, status := statusFail r, eng := Engine.zero, mode := ModeRegs.zero }

/-- A header with this opcode and a reserved bit 1 fails with `ILLEGAL` and changes nothing but the response
(rules R81, R83, R87). -/
def ReservedBitFails (o : Opcode) : Prop :=
  ∀ (s : State) (h : BitVec 64) (p : Bytes) (es : List HostEvent),
    s.hostIn = .command h p :: es → hdrOp h = o.byte → h &&& o.tableMask ≠ o.tableMatch →
    ∃ m : Memory, m.len = (hdrLen h).toNat ∧
      step s = .next (afterFailure { s with hostIn := es, ibuf := m } .illegal)

/-- The words after subkey injection in forward round `d` (rule R150): group `d/4` when `d mod 4 = 0`. -/
def injectWords (sk : Vector Quad 19) (v : Quad) (d : Nat) : Quad :=
  if d % 4 = 0 then addsk v (sk.getD (d / 4) quadZero) else v

/-- The words after the last step of backward round `d` (rule R151). -/
def removeWords (sk : Vector Quad 19) (e : Quad) (d : Nat) : Quad :=
  if d % 4 = 0 then subsk e (sk.getD (d / 4) quadZero) else e

/-- MIX of both pairs with the amounts of round `d` (rules R122, R150). -/
def mixWords (t : RotTable) (d : Nat) (e : Quad) : Quad :=
  ⟨(mix t e.w0 e.w1 d 0).1, (mix t e.w0 e.w1 d 0).2, (mix t e.w2 e.w3 d 1).1, (mix t e.w2 e.w3 d 1).2⟩

/-- Inverse MIX of both pairs with the amounts of round `d` (rules R123, R151). -/
def unmixWords (t : RotTable) (d : Nat) (f : Quad) : Quad :=
  ⟨(unmix t f.w0 f.w1 d 0).1, (unmix t f.w0 f.w1 d 0).2, (unmix t f.w2 f.w3 d 1).1, (unmix t f.w2 f.w3 d 1).2⟩

/-- `V` after forward round `d`: subkey if due, MIX of both pairs, permutation (rule R150). -/
def forwardWords (t : RotTable) (sk : Vector Quad 19) (v : Quad) (d : Nat) : Quad :=
  perm (mixWords t d (injectWords sk v d))

/-- `V` after backward round `d`: inverse permutation, inverse MIX, subkey if due (rule R151). -/
def backwardWords (t : RotTable) (sk : Vector Quad 19) (v : Quad) (d : Nat) : Quad :=
  removeWords sk (unmixWords t d (unperm v)) d

/-- The 19 subkey groups of a key and a tweak (rule R142). -/
def scheduleOf (k : Vector Byte 32) (tw : Vector Byte 16) : Vector Quad 19 :=
  Vector.ofFn fun g => subkey (extKey k) (extTweak tw) g.val

end Sys2Proof.Machine
end

