-- ==== Sys2Proof/Certificates/Slice0/Obligations.lean ====
section
/-! DEFINITION. The statements for the provers, from the numbered rules of the spec. A statement over
all states names the premises it needs; a next state that is written out as a record says what changes
and, by what it does not name, that nothing else does. -/

open Sys2Proof Sys2Proof.Machine

/-! ## Encoding -/

/-- Header words written out in the spec, bit by bit, decode to the commands they stand for (rules R81 to
R83, R85; 95_test_vectors.md T26 to T29, T37, T80, T83, T94 to T102). -/
def Obligations.WrittenHeadersDecode : Prop :=
  decode 0x0000002000000001 = .ok (.setkey 32)
  ∧ decode 0x0000001000000002 = .ok (.settweak 16)
  ∧ decode 0x0000000800000303 = .ok (.xora 3 8)
  ∧ decode 0x0000002000000010 = .ok (.encb 32)
  ∧ decode 0x0000002000000011 = .ok (.decb 32)
  ∧ decode 0x0000003C00000018 = .ok (.enc 60)
  ∧ decode 0x0000008000000019 = .ok (.dec 128)
  ∧ decode 0x0000001000000F20 = .ok (.mix 7 1 16)
  ∧ decode 0x0000001000000D20 = .ok (.mix 5 1 16)
  ∧ decode 0x0000001000000321 = .ok (.unmix 3 0 16)
  ∧ decode 0x0000002000000022 = .ok (.perm 32)
  ∧ decode 0x0000002000000023 = .ok (.unperm 32)
  ∧ decode 0x0000003000000024 = .ok (.ksx 48)
  ∧ decode 0x0000000000000118 = .error .reservedBits
  ∧ decode 0x0000001000001020 = .error .reservedBits
  ∧ decode 0x00000000000000FF = .error (.unknownOpcode 0xFF)

/-- Decoding the encoding of a command gives the command back with every field at every value, as a word and
as the 8 bytes sent before any payload (rules R81, R82, R83, R85, R88). -/
def Obligations.DecodeOfEncode : Prop :=
  ∀ (i : Instr) (payload : Bytes),
    decode (encode i) = .ok i ∧ decodeBytes (encodeBytes i ++ payload) = .ok (i, payload)

/-- A header has one meaning: whatever the decoder reads from it encodes to that header (rules R81 to R83). -/
def Obligations.EncodeOfDecode : Prop :=
  ∀ (h : BitVec 64) (i : Instr), decode h = .ok i → encode i = h

/-- The decoder reads a command exactly where the header matches its row of the opcode table under the row's
mask (rule R85). -/
def Obligations.DecodesExactlyTheTableRows : Prop :=
  ∀ (h : BitVec 64) (o : Opcode),
    h &&& o.tableMask = o.tableMatch ↔ ∃ i, decode h = .ok i ∧ i.opcode = o

/-! ## The step -/

/-- When HOST presents a command whose header decodes to `i`, the step is `exec` of `i` on the state with the
event gone and the payload in `IBUF`, a space of `LEN` bytes; a payload of exactly `LEN` bytes is its whole
content (rules R50, R61, R80). -/
def Obligations.StepRunsTheDecodedCommand : Prop :=
  ∀ (s : State) (h : BitVec 64) (p : Bytes) (es : List HostEvent) (i : Instr),
    s.hostIn = .command h p :: es → decode h = .ok i →
    ∃ m : Memory, step s = exec i { s with hostIn := es, ibuf := m }
      ∧ m.len = i.len.toNat ∧ m.wf = true ∧ (p.length = i.len.toNat → m.bytes = p)

/-- The next state an illegal header leads to (rule R87): `STATUS` is `OK = 0`, `REASON = ILLEGAL`,
`RLEN = 0`; `OBUF` is empty; no other persistent state changes. -/
def Obligations.IllegalHeaderFails : Prop :=
  ∀ (s : State) (h : BitVec 64) (p : Bytes) (es : List HostEvent),
    s.hostIn = .command h p :: es → HeaderIllegal h →
    ∃ m : Memory, m.len = (h.extractLsb' 32 32).toNat ∧
      step s = .next (afterFailure { s with hostIn := es, ibuf := m } .illegal)

/-- `ILLEGAL` is reported for an illegal header alone (rules R87, R233). -/
def Obligations.LegalHeaderIsNotIllegal : Prop :=
  ∀ (s t : State) (h : BitVec 64) (p : Bytes) (es : List HostEvent),
    s.hostIn = .command h p :: es → ¬ HeaderIllegal h → step s = .next t →
    reasonField t.status ≠ Reason.illegal.code

/-- The value of every element after reset (rule R36). That a step then changes nothing is the idle step of rule
R240 on a state to which HOST has presented nothing: `hostIn` is empty at reset by the model's choice
(notes/assumptions/12.md, notes/assumptions/1.md). -/
def Obligations.ResetValues : Prop :=
  State.reset.key = Vector.replicate 32 0 ∧ State.reset.klen = 0
  ∧ State.reset.tweak = Vector.replicate 16 0 ∧ State.reset.tlen = 0 ∧ State.reset.blen = 0
  ∧ okFlag State.reset.status = true ∧ reasonField State.reset.status = 0
  ∧ rlenField State.reset.status = 0 ∧ State.reset.obuf.bytes = [] ∧ State.reset.ibuf.bytes = []
  ∧ State.reset.eng.v = ⟨0, 0, 0, 0⟩ ∧ State.reset.eng.e = ⟨0, 0, 0, 0⟩ ∧ State.reset.eng.f = ⟨0, 0, 0, 0⟩
  ∧ State.reset.eng.kx = Vector.replicate 5 0 ∧ State.reset.eng.tx = Vector.replicate 3 0
  ∧ State.reset.eng.sk = Vector.replicate 19 ⟨0, 0, 0, 0⟩
  ∧ State.reset.eng.d = 0 ∧ State.reset.eng.g = 0 ∧ State.reset.eng.j = 0
  ∧ State.reset.mode.i = 0 ∧ State.reset.mode.nb = 0
  ∧ State.reset.mode.ivr = Vector.replicate 32 0 ∧ State.reset.mode.chain = Vector.replicate 32 0
  ∧ State.reset.mode.blk = Vector.replicate 32 0 ∧ State.reset.mode.pbuf.bytes = []
  ∧ step State.reset = .next State.reset

/-- The events other than a command (rules R36, R240, R260): with nothing from HOST, ENGINE is idle and every
element keeps its value; a reset, between commands or while one executes, leads to the reset state whatever the
state before: the parameters of the machine and the other agents' further inputs are all that stays, and of an
abandoned command no response appears. An abandoned command has taken at most the number of answers the event
says (notes/assumptions/8.md), all of them among those it takes when it runs to its end: one of the RNG at most,
and only where it is an ENC past its configuration check (rule R64); of the scratch oracle only where it is a
cipher command past it, and in an ENC only after the RNG's (rules R152, R196). -/
def Obligations.IdleAndResetEvents : Prop :=
  ∀ s : State,
    (s.hostIn = [] → step s = .next s)
    ∧ (∀ es : List HostEvent, s.hostIn = .reset :: es →
      step s = .next { State.reset with
        cfg := s.cfg, hostIn := es, rngIn := s.rngIn, scratchIn := s.scratchIn })
    ∧ ∀ (h : BitVec 64) (p : Bytes) (answers : Nat) (es : List HostEvent),
      s.hostIn = .resetDuring h p answers :: es → ∃ r k : Nat,
      step s = .next { State.reset with
        cfg := s.cfg, hostIn := es, rngIn := s.rngIn.drop r, scratchIn := s.scratchIn.drop k }
      ∧ r + k ≤ answers ∧ r ≤ 1
      ∧ (r = 1 → configured s = true ∧ ∃ len, decode h = .ok (.enc len))
      ∧ (k ≠ 0 → configured s = true ∧ ∃ i, decode h = .ok i ∧ i.opcode ∈ [.encb, .decb, .enc, .dec]
          ∧ (i.opcode = .enc → r = 1))
      ∧ ∀ t, step { s with hostIn := .command h p :: es } = .next t →
          ∃ r' k' : Nat, t.rngIn = s.rngIn.drop (r + r') ∧ t.scratchIn = s.scratchIn.drop (k + k')

/-! ## Invariants and whole-machine rules -/

/-- The invariant holds after reset (rules R33, R36). -/
def Obligations.ResetSatisfiesInvariant : Prop := Invariant State.reset

/-- Every step keeps the invariant: legal key, tweak and block lengths, an unset key zero, the response
registers consistent, the byte spaces in canonical form, the scratch zero (rules R25 to R28, R33, R84). -/
def Obligations.StepKeepsInvariant : Prop := ∀ s t : State, Invariant s → step s = .next t → Invariant t

/-- No trap and no hang (rules R230, R268): from every state of the invariant a step answers a next state,
but where ENGINE waits inside an ENC, configured, for an RNG that has not answered. -/
def Obligations.EveryStepAnswersOrWaitsForTheRng : Prop :=
  ∀ s : State, Invariant s →
    (∃ t, step s = .next t)
    ∨ (step s = .fault .rngPending ∧ configured s = true ∧ s.rngIn = []
        ∧ ∃ (len : BitVec 32) (h : BitVec 64) (p : Bytes) (es : List HostEvent),
            s.hostIn = .command h p :: es ∧ decode h = .ok (.enc len))

/-- Every command that completes ends in success or in failure with the response the rules give each: the
reserved bits 0, `RLEN` the length of `OBUF`, `REASON` 0 on success, a reason and an empty result on failure
(rules R24, R28, R84, R230). -/
def Obligations.CommandEndsInSuccessOrFailure : Prop :=
  ∀ (s t : State) (h : BitVec 64) (p : Bytes) (es : List HostEvent),
    Invariant s → s.hostIn = .command h p :: es → step s = .next t →
    t.hostIn = es ∧ reservedField t.status = 0 ∧ (rlenField t.status).toNat = t.obuf.len
    ∧ ((okFlag t.status = true ∧ reasonField t.status = 0)
      ∨ (okFlag t.status = false ∧ reasonField t.status ≠ 0 ∧ t.obuf.len = 0))

/-- At the completion of every command, on success and on every failure path alike, every scratch element is
zero, whatever the state before (rule R33). -/
def Obligations.ScratchIsZeroAtCompletion : Prop :=
  ∀ (i : Instr) (s t : State), exec i s = .next t →
    t.eng.v = ⟨0, 0, 0, 0⟩ ∧ t.eng.e = ⟨0, 0, 0, 0⟩ ∧ t.eng.f = ⟨0, 0, 0, 0⟩
    ∧ t.eng.kx = Vector.replicate 5 0 ∧ t.eng.tx = Vector.replicate 3 0
    ∧ t.eng.sk = Vector.replicate 19 ⟨0, 0, 0, 0⟩
    ∧ t.eng.d = 0 ∧ t.eng.g = 0 ∧ t.eng.j = 0 ∧ t.mode.i = 0 ∧ t.mode.nb = 0
    ∧ t.mode.ivr = Vector.replicate 32 0 ∧ t.mode.chain = Vector.replicate 32 0
    ∧ t.mode.blk = Vector.replicate 32 0 ∧ t.mode.pbuf.bytes = []

/-- Who writes the persistent state (rule R35): only SETKEY writes `KEY`, `KLEN`, `BLEN`; only SETTWEAK writes
`TWEAK`, `TLEN`; and no command changes the parameters, the coming events, or any byte of `IBUF` (rule R51). -/
def Obligations.OnlySetkeyAndSettweakWriteConfiguration : Prop :=
  ∀ (i : Instr) (s t : State), exec i s = .next t →
    ((∀ len, i ≠ .setkey len) → t.key = s.key ∧ t.klen = s.klen ∧ t.blen = s.blen)
    ∧ ((∀ len, i ≠ .settweak len) → t.tweak = s.tweak ∧ t.tlen = s.tlen)
    ∧ t.cfg = s.cfg ∧ t.hostIn = s.hostIn ∧ t.ibuf.len = s.ibuf.len ∧ ∀ a, t.ibuf.byte? a = s.ibuf.byte? a

/-- One RNG request for each ENC that passes its configuration check, and none by any other command or by an
ENC that fails it (rules R64, R190). -/
def Obligations.OneRngRequestPerConfiguredEnc : Prop :=
  ∀ (i : Instr) (s t : State), exec i s = .next t →
    (∀ len, i = .enc len → configured s = true → ∃ a, s.rngIn = a :: t.rngIn)
    ∧ (∀ len, i = .enc len → configured s = false → t.rngIn = s.rngIn)
    ∧ ((∀ len, i ≠ .enc len) → t.rngIn = s.rngIn)

/-- A failed command changes only `STATUS` and `OBUF` and zeroizes the scratch; of the inputs it has consumed at
most one RNG answer, and only an ENC any (rules R234, R235). -/
def Obligations.FailureLeavesNoTrace : Prop :=
  ∀ (i : Instr) (s t : State), exec i s = .next t → okFlag t.status = false →
    ∃ (r : Reason) (n k : Nat), r ≠ .none ∧ n ≤ 1 ∧ ((∀ len, i ≠ .enc len) → n = 0) ∧
      t = { afterFailure s r with rngIn := s.rngIn.drop n, scratchIn := s.scratchIn.drop k }

/-- A command raises only the failures the table gives it (rule R232). -/
def Obligations.OnlyTabledFailures : Prop :=
  ∀ (i : Instr) (s t : State), exec i s = .next t → ∃ r ∈ mayRaise i, reasonField t.status = r.code

/-- Once a tweak is set it stays set until a reset (rule R26). -/
def Obligations.TweakStaysSetUntilReset : Prop :=
  ∀ (s t : State) (h : BitVec 64) (p : Bytes) (es : List HostEvent),
    s.hostIn = .command h p :: es → step s = .next t → s.tlen = 16 → t.tlen = 16

/-- No command's result depends on an earlier command but through `KEY`, `KLEN`, `TWEAK`, `TLEN` and `BLEN`
(rule R33): two states that agree on these, on the payload, on the parameters and on the oracles' answers give
the same response and the same configuration, whatever their status, result and scratch were. -/
def Obligations.ResultDependsOnConfigurationAlone : Prop :=
  ∀ (i : Instr) (s s' t : State),
    s'.key = s.key → s'.klen = s.klen → s'.tweak = s.tweak → s'.tlen = s.tlen → s'.blen = s.blen →
    s'.ibuf = s.ibuf → s'.cfg = s.cfg → s'.rngIn = s.rngIn → s'.scratchIn = s.scratchIn →
    exec i s = .next t →
    exec i s' = .next { t with hostIn := s'.hostIn }

/-- XORA and the diagnostic commands neither read nor disclose the stored key or tweak (rules R35, R144, R173,
R240): their response is the same on any two states with the same payload and the same parameters. -/
def Obligations.DiagnosticsIgnoreTheStoredKey : Prop :=
  ∀ (i : Instr) (s s' t : State),
    i.opcode ∈ [.xora, .mix, .unmix, .perm, .unperm, .ksx] → s'.ibuf = s.ibuf → s'.cfg = s.cfg →
    exec i s = .next t → ∃ t', exec i s' = .next t' ∧ t'.status = t.status ∧ t'.obuf = t.obuf

/-! ## Key and tweak management, byte-array XOR -/

/-- SETKEY (rule R170): 32 payload bytes become `KEY` with `KLEN = BLEN = 32`; an empty payload erases and
unsets the key; any other length fails with `CONFIG` and changes nothing else; a reserved header bit is
`ILLEGAL`. -/
def Obligations.SetkeyStoresErasesOrRejects : Prop :=
  ReservedBitFails .setkey ∧ ∀ (len : BitVec 32) (s : State), s.ibuf.len = len.toNat →
    if len = 32 then
      ∃ k : Vector Byte 32, k.toList = s.ibuf.bytes ∧
        exec (.setkey len) s = .next (afterSuccess { s with key := k, klen := 32, blen := 32 } [])
    else if len = 0 then
      exec (.setkey len) s =
        .next (afterSuccess { s with key := Vector.replicate 32 0, klen := 0, blen := 0 } [])
    else
      exec (.setkey len) s = .next (afterFailure s .config)

/-- SETTWEAK (rule R171): 16 payload bytes become `TWEAK` with `TLEN = 16`; any other length, 0 too, fails with
`CONFIG` and leaves the tweak untouched; a reserved header bit is `ILLEGAL`. -/
def Obligations.SettweakStoresOrRejects : Prop :=
  ReservedBitFails .settweak ∧ ∀ (len : BitVec 32) (s : State), s.ibuf.len = len.toNat →
    if len = 16 then
      ∃ tw : Vector Byte 16, tw.toList = s.ibuf.bytes ∧
        exec (.settweak len) s = .next (afterSuccess { s with tweak := tw, tlen := 16 } [])
    else
      exec (.settweak len) s = .next (afterFailure s .config)

/-- XORA (rule R173): the XOR of the payload's first `LENA` bytes and its rest; `LENA > LEN` is `ILLEGAL`. -/
def Obligations.XoraReturnsTheXor : Prop :=
  ∀ (lena : BitVec 24) (len : BitVec 32) (s : State), s.ibuf.len = len.toNat →
    if lena.toNat ≤ len.toNat then
      exec (.xora lena len) s =
        .next (afterSuccess s (xorBytes (s.ibuf.bytes.take lena.toNat) (s.ibuf.bytes.drop lena.toNat)))
    else
      exec (.xora lena len) s = .next (afterFailure s .illegal)

/-- `xor` (rule R172): of length `min(len(a), len(b))`, byte `k` the exclusive OR of the bytes `k`;
`xor(a, a) = 0`, commutative, and `xor(xor(a, b), b) = a` when `len(a) <= len(b)`. -/
def Obligations.XorIsElementwise : Prop :=
  ∀ a b : Bytes,
    (xorBytes a b).length = min a.length b.length
    ∧ (∀ k, k < min a.length b.length → (xorBytes a b)[k]? = some (a.getD k 0 ^^^ b.getD k 0))
    ∧ xorBytes a a = zeros a.length ∧ xorBytes a b = xorBytes b a
    ∧ (a.length ≤ b.length → xorBytes (xorBytes a b) b = a)

/-- After a SETKEY of 32 bytes and a SETTWEAK of 16 bytes, in either order, the machine is ready for the cipher
commands, whatever the state before (rule R261). -/
def Obligations.SetkeyAndSettweakMakeReady : Prop :=
  ∀ (s : State) (hk ht : BitVec 64) (k tw : Bytes) (es : List HostEvent),
    decode hk = .ok (.setkey 32) → decode ht = .ok (.settweak 16) →
    (s.hostIn = .command hk k :: .command ht tw :: es ∨ s.hostIn = .command ht tw :: .command hk k :: es) →
    ∃ t u, step s = .next t ∧ step t = .next u ∧ Ready u ∧ u.hostIn = es
      ∧ (k.length = 32 → u.key.toList = k) ∧ (tw.length = 16 → u.tweak.toList = tw)

/-! ## Codec, arithmetic and round primitives -/

/-- The laws of the codec (rule R112). -/
def Obligations.CodecLaws : Prop :=
  (∀ w : List Word, b2w (w2b w) = w)
  ∧ (∀ b : Bytes, w2b (b2w b) = b.take (8 * (b.length / 8)))
  ∧ (∀ b : Bytes, w2b (b2w b) = b ↔ b.length % 8 = 0)
  ∧ (∀ a c : Bytes, a.length % 8 = 0 → b2w (a ++ c) = b2w a ++ b2w c)
  ∧ (∀ a c : Bytes, a.length = c.length → b2w (xorBytes a c) = List.zipWith (· ^^^ ·) (b2w a) (b2w c))

/-- `b2w` reads byte `8i + k` into bits `8k+7 : 8k` of word `i`, `floor(n/8)` words in all, and `w2b` writes these
bits to byte `8i + k`, `8m` bytes in all (rules R52, R110, R111). -/
def Obligations.WordByteOrder : Prop :=
  (∀ b : Bytes, (b2w b).length = b.length / 8 ∧
    ∀ i k : Nat, i < b.length / 8 → k < 8 →
      ((b2w b).getD i 0).extractLsb' (8 * k) 8 = b.getD (8 * i + k) 0)
  ∧ ∀ w : List Word, (w2b w).length = 8 * w.length ∧
    ∀ i k : Nat, i < w.length → k < 8 →
      (w2b w).getD (8 * i + k) 0 = (w.getD i 0).extractLsb' (8 * k) 8

/-- The arithmetic of the round engine (rule R120): addition and subtraction modulo `2^64` undo each other, so
does XOR; bit `(i + r) mod 64` of `rotl(a, r)` is bit `i` of `a`, which is its formula in numbers; `rotr` reads
the bits back, undoes `rotl`, and `rotr(a, r) = rotl(a, (64 - r) mod 64)`. -/
def Obligations.ArithmeticLaws : Prop :=
  (∀ a b : Word,
    (a + b).toNat = (a.toNat + b.toNat) % 2 ^ 64
    ∧ (a - b).toNat = (a.toNat + (2 ^ 64 - b.toNat)) % 2 ^ 64
    ∧ (a + b) - b = a ∧ (a - b) + b = a ∧ (a ^^^ b) ^^^ b = a)
  ∧ ∀ (a : Word) (r : BitVec 6),
    (∀ i, i < 64 → (rotl a r).getLsbD ((i + r.toNat) % 64) = a.getLsbD i)
    ∧ (rotl a r).toNat = (a.toNat * 2 ^ r.toNat) % 2 ^ 64 + a.toNat / 2 ^ (64 - r.toNat)
    ∧ (∀ i, i < 64 → (rotr a r).getLsbD i = a.getLsbD ((i + r.toNat) % 64))
    ∧ rotr (rotl a r) r = a ∧ rotl (rotr a r) r = a
    ∧ rotr a r = rotl a (BitVec.ofNat 6 ((64 - r.toNat) % 64))

/-- `unmix` inverts `mix` and `mix` inverts `unmix`, for every table, row and pair (rule R132). -/
def Obligations.MixAndUnmixAreInverse : Prop :=
  ∀ (t : RotTable) (d j : Nat) (a b : Word),
    unmix t (mix t a b d j).1 (mix t a b d j).2 d j = (a, b)
    ∧ mix t (unmix t a b d j).1 (unmix t a b d j).2 d j = (a, b)

/-- The permutation follows its table, `v[i] = f[PI[i]]` (rule R124) and `f[PI[i]] = v[i]` back (rule R125), and the
two are inverse and equal, which rule R125 marks as derived from rule R124. -/
def Obligations.PermutationFollowsTable : Prop :=
  ∀ f : Quad,
    (∀ i (h : i < 4), wordAt (perm f) i = wordAt f piTable[i])
    ∧ (∀ i (h : i < 4), wordAt (unperm f) piTable[i] = wordAt f i)
    ∧ unperm (perm f) = f ∧ perm (unperm f) = f ∧ unperm f = perm f

/-- Subkey injection adds and removal subtracts each word alone (rules R126, R127); that each undoes the other rule
R127 marks as derived from rule R120. -/
def Obligations.SubkeyInjectionIsInvertible : Prop :=
  ∀ v k : Quad,
    (∀ i, i < 4 → wordAt (addsk v k) i = wordAt v i + wordAt k i)
    ∧ (∀ i, i < 4 → wordAt (subsk v k) i = wordAt v i - wordAt k i)
    ∧ subsk (addsk v k) k = v ∧ addsk (subsk v k) k = v

/-- The extended key: its first four words are the key's, and the five words XOR to `C240` (rule R140). -/
def Obligations.ExtendedKeyParity : Prop :=
  ∀ k : Vector Byte 32,
    b2w k.toList = [(extKey k)[0], (extKey k)[1], (extKey k)[2], (extKey k)[3]]
    ∧ (extKey k)[0] ^^^ (extKey k)[1] ^^^ (extKey k)[2] ^^^ (extKey k)[3] ^^^ (extKey k)[4] = 0x1BD11BDAA9FC1A22

/-- The extended tweak: the two tweak words and their XOR (rule R141). -/
def Obligations.ExtendedTweakParity : Prop :=
  ∀ t : Vector Byte 16,
    b2w t.toList = [(extTweak t)[0], (extTweak t)[1]] ∧ (extTweak t)[2] = (extTweak t)[0] ^^^ (extTweak t)[1]

/-- For a fixed tweak distinct keys give distinct subkey files (rule R200, derived from rule R142). -/
def Obligations.DistinctKeysGiveDistinctSchedules : Prop :=
  ∀ (en : Engine) (k k' : Vector Byte 32) (tw : Vector Byte 16),
    (en.expand k tw).sk = (en.expand k' tw).sk → k = k'

/-! ## Diagnostic commands -/

/-- MIX (rule R128): `mix` of the payload's two words with row `ROW` and column `COL`; another `LEN` than 16 and
a reserved header bit are `ILLEGAL`. -/
def Obligations.MixReturnsTheMix : Prop :=
  ReservedBitFails .mix ∧ ∀ (row : BitVec 3) (col : BitVec 1) (len : BitVec 32) (s : State), s.ibuf.len = len.toNat →
    if len = 16 then
      ∃ x0 x1 : Word, b2w s.ibuf.bytes = [x0, x1] ∧
        exec (.mix row col len) s =
          .next (afterSuccess s (w2b [x0 + x1, rotl x1 s.cfg.rot[row.toNat][col.toNat] ^^^ (x0 + x1)]))
    else exec (.mix row col len) s = .next (afterFailure s .illegal)

/-- UNMIX (rule R129): `unmix` of the payload's two words; another `LEN` than 16 and a reserved header bit are
`ILLEGAL`. -/
def Obligations.UnmixReturnsTheUnmix : Prop :=
  ReservedBitFails .unmix ∧ ∀ (row : BitVec 3) (col : BitVec 1) (len : BitVec 32) (s : State), s.ibuf.len = len.toNat →
    if len = 16 then
      ∃ y0 y1 x1 : Word, b2w s.ibuf.bytes = [y0, y1]
        ∧ x1 = rotr (y0 ^^^ y1) s.cfg.rot[row.toNat][col.toNat]
        ∧ exec (.unmix row col len) s = .next (afterSuccess s (w2b [y0 - x1, x1]))
    else exec (.unmix row col len) s = .next (afterFailure s .illegal)

/-- PERM and UNPERM (rules R130, R131): the second and fourth 8-byte groups of the payload change places, the
same for both; another `LEN` than 32 and a reserved header bit are `ILLEGAL`. -/
def Obligations.PermAndUnpermExchangeGroups : Prop :=
  ReservedBitFails .perm ∧ ReservedBitFails .unperm ∧ ∀ (len : BitVec 32) (s : State), s.ibuf.len = len.toNat →
    if len = 32 then
      ∃ out : Bytes,
        out = s.ibuf.bytes.take 8 ++ (s.ibuf.bytes.drop 24).take 8
          ++ (s.ibuf.bytes.drop 16).take 8 ++ (s.ibuf.bytes.drop 8).take 8
        ∧ exec (.perm len) s = .next (afterSuccess s out)
        ∧ exec (.unperm len) s = .next (afterSuccess s out)
    else
      exec (.perm len) s = .next (afterFailure s .illegal)
      ∧ exec (.unperm len) s = .next (afterFailure s .illegal)

/-- KSX (rules R142, R144): bytes 0 to 39 are the extended key, 40 to 63 the extended tweak, and bytes `64+32g` to
`95+32g` group `g` with its four words as rule R142 gives them; another `LEN` than 48 and a reserved
header bit are `ILLEGAL`. -/
def Obligations.KsxReturnsTheSchedule : Prop :=
  ReservedBitFails .ksx ∧ ∀ (len : BitVec 32) (s : State), s.ibuf.len = len.toNat →
    if len = 48 then
      ∃ (out : Bytes) (kx tx : Nat → Word),
        exec (.ksx len) s = .next (afterSuccess s out) ∧ out.length = 672
        ∧ b2w s.ibuf.bytes = [kx 0, kx 1, kx 2, kx 3, tx 0, tx 1]
        ∧ kx 4 = 0x1BD11BDAA9FC1A22 ^^^ kx 0 ^^^ kx 1 ^^^ kx 2 ^^^ kx 3 ∧ tx 2 = tx 0 ^^^ tx 1
        ∧ out.take 40 = w2b [kx 0, kx 1, kx 2, kx 3, kx 4] ∧ (out.drop 40).take 24 = w2b [tx 0, tx 1, tx 2]
        ∧ ∀ g, g < 19 → (out.drop (64 + 32 * g)).take 32 =
            w2b [kx (g % 5), kx ((g + 1) % 5) + tx (g % 3), kx ((g + 2) % 5) + tx ((g + 1) % 3),
              kx ((g + 3) % 5) + BitVec.ofNat 64 g]
    else exec (.ksx len) s = .next (afterFailure s .illegal)

/-! ## Block operations -/

/-- A block operation is admitted exactly when the block, the key and `block_size` are 32 long, the tweak 16, and
the scratch oracle answers true; then `EncryptBlock` answers the words of the block after rounds 0 to 71 and the
addition of group 18, `DecryptBlock` those after the subtraction of group 18 and rounds 71 to 0, with the engine's
registers zeroized; otherwise it answers nothing and writes no register (rules R150 to R153). -/
def Obligations.BlockOperationsRunTheRounds : Prop :=
  ∀ s : State,
    (∀ (b k : Vector Byte 32) (t : Vector Byte 16), s.scratchIn.headD true = true →
      let sk := scheduleOf k t
      let after := { s with eng := Engine.zero, scratchIn := s.scratchIn.tail }
      let c := addsk ((List.range 72).foldl (forwardWords s.cfg.rot sk) (blockWords b)) sk[18]
      let p := (List.range 72).reverse.foldl (backwardWords s.cfg.rot sk) (subsk (blockWords b) sk[18])
      encryptBlock b.toList k.toList t.toList 32 s = (after, some (w2b [c.w0, c.w1, c.w2, c.w3]))
      ∧ decryptBlock b.toList k.toList t.toList 32 s = (after, some (w2b [p.w0, p.w1, p.w2, p.w3])))
    ∧ ∀ (b k t : Bytes) (n : Nat),
      ¬(b.length = 32 ∧ k.length = 32 ∧ t.length = 16 ∧ n = 32 ∧ s.scratchIn.headD true = true) →
      ∃ m : Nat, encryptBlock b k t n s = ({ s with scratchIn := s.scratchIn.drop m }, none)
        ∧ decryptBlock b k t n s = ({ s with scratchIn := s.scratchIn.drop m }, none)

/-- The two block operations are mutually inverse for every key, tweak, block and rotation table, when both are
admitted (rule R156). -/
def Obligations.BlockOperationsAreInverse : Prop :=
  ∀ (b k t : Bytes) (s s' : State),
    b.length = 32 → k.length = 32 → t.length = 16 → s'.cfg.rot = s.cfg.rot →
    s.scratchIn.headD true = true → s'.scratchIn.headD true = true →
    (∃ c, (encryptBlock b k t 32 s).2 = some c ∧ (decryptBlock c k t 32 s').2 = some b)
    ∧ (∃ p, (decryptBlock b k t 32 s).2 = some p ∧ (encryptBlock p k t 32 s').2 = some b)

/-- ENCB and DECB (rules R154, R155), in the order of their tests: `CONFIG` when key or tweak is unset, `ARGUMENT`
for a length other than 32, `RESOURCE` when the scratch is not available, and otherwise the 32-byte result of the
block operation under the stored key and tweak; a reserved header bit is `ILLEGAL`. -/
def Obligations.BlockCommandsReturnTheBlock : Prop :=
  ReservedBitFails .encb ∧ ReservedBitFails .decb ∧ ∀ (len : BitVec 32) (s : State),
    (s.klen = 0 ∨ s.tlen = 0 →
      exec (.encb len) s = .next (afterFailure s .config) ∧ exec (.decb len) s = .next (afterFailure s .config))
    ∧ (s.klen ≠ 0 → s.tlen ≠ 0 → len ≠ 32 →
      exec (.encb len) s = .next (afterFailure s .argument) ∧ exec (.decb len) s = .next (afterFailure s .argument))
    ∧ (Ready s → len = 32 → s.ibuf.len = 32 →
      let after := { s with scratchIn := s.scratchIn.tail }
      if s.scratchIn.headD true = true then
        ∃ c p : Bytes, c.length = 32 ∧ p.length = 32
          ∧ (encryptBlock s.ibuf.bytes s.key.toList s.tweak.toList s.blen.toNat s).2 = some c
          ∧ (decryptBlock s.ibuf.bytes s.key.toList s.tweak.toList s.blen.toNat s).2 = some p
          ∧ exec (.encb len) s = .next (afterSuccess after c)
          ∧ exec (.decb len) s = .next (afterSuccess after p)
      else
        exec (.encb len) s = .next (afterFailure after .resource)
        ∧ exec (.decb len) s = .next (afterFailure after .resource))

/-- DECB of the result of ENCB under the same key and tweak returns the original block, and conversely, with each
result presented as the next command's payload (rule R155, derived from rule R156). -/
def Obligations.BlockCommandsRoundTrip : Prop :=
  ∀ s t : State, Ready s → s.ibuf.len = 32 → s.ibuf.wf = true →
    (exec (.encb 32) s = .next t → okFlag t.status = true → t.scratchIn.headD true = true →
      ∃ u, exec (.decb 32) { t with ibuf := t.obuf } = .next u ∧ okFlag u.status = true ∧ u.obuf = s.ibuf)
    ∧ (exec (.decb 32) s = .next t → okFlag t.status = true → t.scratchIn.headD true = true →
      ∃ u, exec (.encb 32) { t with ibuf := t.obuf } = .next u ∧ okFlag u.status = true ∧ u.obuf = s.ibuf)

/-! ## The mode controller -/

/-- `PBUF` after `pad` and `trenc` (rules R58, R191, R192): `32 * (ceil(n/32) + 1)` bytes, the plaintext, zero bytes,
and the length as 4 little-endian bytes at the end. -/
def Obligations.PaddedBufferLayout : Prop :=
  ∀ (p : Bytes) (s : State), s.blen = 32 → p.length ≤ 2 ^ 31 - 1 →
    (writeTrailer p.length (pad p s)).mode.pbuf = Memory.ofBytes (paddedPlain p)
    ∧ (writeTrailer p.length (pad p s)).mode.nb.toNat = (p.length + 31) / 32 + 1
    ∧ (paddedPlain p).length = 32 * ((p.length + 31) / 32 + 1)
    ∧ p.length + 32 ≤ (paddedPlain p).length ∧ (paddedPlain p).length ≤ p.length + 63

/-- The trailer is a signed 32-bit little-endian number: what `trenc` writes for a plaintext length `trdec` reads
back, byte 0 holds bits 7:0, and four bytes with the top bit of the last set are negative (rules R53, R192, R193). -/
def Obligations.TrailerIsSignedLittleEndian : Prop :=
  (∀ n, n ≤ 2 ^ 31 - 1 → trailerValue (trailerBytes n) = n)
  ∧ (∀ b0 b1 b2 b3 : Byte,
      trailerValue [b0, b1, b2, b3] =
        (b0.toNat + b1.toNat * 2 ^ 8 + b2.toNat * 2 ^ 16 + b3.toNat * 2 ^ 24 : Int)
          - (if b3.toNat < 128 then 0 else 2 ^ 32))

/-- The trailer of an assembled buffer is bits 63:32 of word 3 of its last block (rule R54). -/
def Obligations.TrailerIsTopOfLastWord : Prop :=
  ∀ b : Bytes, b.length = 32 →
    trailerValue (b.drop 28) = (((b2w b).getD 3 0).extractLsb' 32 32).toInt

/-- A change of ciphertext block `i` replaces plaintext block `i`, XORs the same change into plaintext block `i+1`
and touches no other recovered block (rule R195). -/
def Obligations.CiphertextChangeIsLocal : Prop :=
  ∀ (d : Bytes → Bytes) (iv c : Bytes) (cs : List Bytes) (i : Nat),
    (∀ b, (d b).length = 32) → (∀ b ∈ cs, b.length = 32) → c.length = 32 → i < cs.length →
    let ps := chainDecrypt d iv cs
    let qs := chainDecrypt d iv (cs.set i c)
    (∀ j, j ≠ i → j ≠ i + 1 → qs[j]? = ps[j]?)
    ∧ qs[i]? = some (xorBytes (d c) ((iv :: cs).getD i []))
    ∧ (i + 1 < cs.length →
        qs[i + 1]? = some (xorBytes (ps.getD (i + 1) []) (xorBytes (cs.getD i []) c)))

/-- ENC on a ready machine, with an RNG that answered an IV and every block operation admitted: the IV and the
chained encryption of the padded plaintext; one RNG answer and `NB` oracle answers are consumed and nothing else
changes (rules R57, R191, R194, R196). -/
def Obligations.EncReturnsTheChainedCiphertext : Prop :=
  ∀ (len : BitVec 32) (s : State) (iv : Vector Byte 32) (as : List RngAnswer),
    Ready s → s.ibuf.len = len.toNat → len.toNat ≤ 2 ^ 31 - 1 → s.rngIn = .bytes iv :: as →
    ScratchOk ((len.toNat + 31) / 32 + 1) s →
    exec (.enc len) s =
      .next (afterSuccess
        { s with rngIn := as, scratchIn := s.scratchIn.drop ((len.toNat + 31) / 32 + 1) }
        (messageEncrypt (storedEncrypt s) iv.toList s.ibuf.bytes))

/-- The failures of ENC in the order they are tested (rules R174, R196, R233): `CONFIG` with no RNG request; then,
one request taken, `RANDOM`, `LENGTH`, and `RESOURCE` at the first block operation that is not admitted. -/
def Obligations.EncFailures : Prop :=
  ∀ (len : BitVec 32) (s : State),
    (s.klen = 0 ∨ s.tlen = 0 → exec (.enc len) s = .next (afterFailure s .config))
    ∧ (s.klen ≠ 0 → s.tlen ≠ 0 → ∀ as, s.rngIn = .fail :: as →
        exec (.enc len) s = .next (afterFailure { s with rngIn := as } .random))
    ∧ (s.klen ≠ 0 → s.tlen ≠ 0 → ∀ iv as, s.rngIn = .bytes iv :: as → 2 ^ 31 - 1 < len.toNat →
        exec (.enc len) s = .next (afterFailure { s with rngIn := as } .length))
    ∧ (Ready s → s.ibuf.len = len.toNat → len.toNat ≤ 2 ^ 31 - 1 →
        ∀ iv as j, s.rngIn = .bytes iv :: as → j < (len.toNat + 31) / 32 + 1 → ScratchOk j s →
          s.scratchIn[j]? = some false →
          exec (.enc len) s =
            .next (afterFailure { s with rngIn := as, scratchIn := s.scratchIn.drop (j + 1) } .resource))

/-- ENC waits for the RNG: with a request pending and no answer ENGINE has no step (rule R268). -/
def Obligations.EncWaitsForTheRng : Prop :=
  ∀ (len : BitVec 32) (s : State), configured s = true → s.rngIn = [] →
    exec (.enc len) s = .fault .rngPending

/-- The length of an ENC result (rule R198): `32 * (ceil(n/32) + 2)` bytes, a multiple of 32, at least 64, between
`n + 64` and `n + 95`. -/
def Obligations.EncResultLength : Prop :=
  ∀ (len : BitVec 32) (s t : State), Invariant s → s.ibuf.len = len.toNat →
    exec (.enc len) s = .next t → okFlag t.status = true →
    t.obuf.len = 32 * ((len.toNat + 31) / 32 + 2) ∧ 64 ≤ t.obuf.len
    ∧ len.toNat + 64 ≤ t.obuf.len ∧ t.obuf.len ≤ len.toNat + 95

/-- The map from IV to ciphertext is injective for a fixed key, tweak and plaintext (rule R200, "IV uniqueness"): two
successful ENC whose RNG answers differ return different results. -/
def Obligations.DistinctIvsGiveDistinctCiphertexts : Prop :=
  ∀ (len : BitVec 32) (s t u : State) (iv iv' : Vector Byte 32) (as as' : List RngAnswer),
    exec (.enc len) { s with rngIn := .bytes iv :: as } = .next t → okFlag t.status = true →
    exec (.enc len) { s with rngIn := .bytes iv' :: as' } = .next u → okFlag u.status = true →
    iv ≠ iv' → t.obuf.bytes ≠ u.obuf.bytes

/-- DEC of an IV and `N >= 1` whole blocks on a ready machine with every block operation admitted: the assembled
buffer is the unchained blocks; its last 4 bytes are the length `L`, and with `0 <= L <= 32 N` the result is its
first `L` bytes, otherwise the command fails with `CORRUPT` (rules R193, R195, R197). -/
def Obligations.DecReturnsTheUnchainedPrefix : Prop :=
  ∀ (len : BitVec 32) (s : State) (n : Nat),
    Ready s → s.ibuf.len = len.toNat → len.toNat = 32 * (n + 1) → 1 ≤ n → ScratchOk n s →
    (messageAssemble (storedDecrypt s) s.ibuf.bytes).length = 32 * n ∧
    (let buf := messageAssemble (storedDecrypt s) s.ibuf.bytes
     let l := trailerValue (buf.drop (32 * n - 4))
     if 0 ≤ l ∧ l ≤ 32 * n then
       exec (.dec len) s =
         .next (afterSuccess { s with scratchIn := s.scratchIn.drop n } (buf.take l.toNat))
     else
       exec (.dec len) s = .next (afterFailure { s with scratchIn := s.scratchIn.drop n } .corrupt))

/-- A body that is not a whole number of blocks (rule R197, decision D11): under `reject` DEC fails with `CORRUPT`
before any block is decrypted; under `ignore` the trailing bytes are never read and the outcome is that of the
input without them. -/
def Obligations.DecPartialTail : Prop :=
  ∀ (len : BitVec 32) (s : State) (n r : Nat),
    Ready s → s.ibuf.len = len.toNat → len.toNat = 32 * (n + 1) + r → 0 < r → r < 32 →
    (s.cfg.decPartialTail = .reject → exec (.dec len) s = .next (afterFailure s .corrupt))
    ∧ (s.cfg.decPartialTail = .ignore → ∀ t,
        exec (.dec (BitVec.ofNat 32 (32 * (n + 1))))
          { s with ibuf := Memory.ofBytes (s.ibuf.bytes.take (32 * (n + 1))) } = .next t →
        exec (.dec len) s = .next { t with ibuf := s.ibuf })

/-- The other failures of DEC in the order they are tested (rules R174, R197, R233): `CONFIG`; `CORRUPT` for an input
shorter than a block or with no block after the IV; `RESOURCE` at the first block operation that is not
admitted. -/
def Obligations.DecFailures : Prop :=
  ∀ (len : BitVec 32) (s : State),
    (s.klen = 0 ∨ s.tlen = 0 → exec (.dec len) s = .next (afterFailure s .config))
    ∧ (Ready s → len.toNat < 32 → exec (.dec len) s = .next (afterFailure s .corrupt))
    ∧ (Ready s → len = 32 → s.ibuf.len = 32 → exec (.dec len) s = .next (afterFailure s .corrupt))
    ∧ (Ready s → s.ibuf.len = len.toNat → ∀ n j, len.toNat = 32 * (n + 1) → j < n → ScratchOk j s →
        s.scratchIn[j]? = some false →
        exec (.dec len) s = .next (afterFailure { s with scratchIn := s.scratchIn.drop (j + 1) } .resource))

/-- The round trip (rule R199): when ENC succeeds on a ready machine, DEC of its result under the same key and tweak,
with every block operation admitted, succeeds and returns the plaintext, for every IV the RNG may return, every
rotation table and both settings of the partial-tail parameter. -/
def Obligations.MessageRoundTrip : Prop :=
  ∀ (len : BitVec 32) (s t : State),
    Ready s → s.ibuf.len = len.toNat → s.ibuf.wf = true →
    exec (.enc len) s = .next t → okFlag t.status = true → ScratchOk ((len.toNat + 31) / 32 + 1) t →
    ∃ u, exec (.dec (BitVec.ofNat 32 t.obuf.len)) { t with ibuf := t.obuf } = .next u
      ∧ okFlag u.status = true ∧ u.obuf = s.ibuf

/-! ## The RNG port of the whole machine, and the chain registers -/

/-- Only ENC uses the RNG port (rules R50, R64), whatever event a step takes: the RNG's answers are as before, or
exactly the first is gone, key and tweak were set, and the command HOST presented, or a reset abandoned, is an
ENC. -/
def Obligations.OnlyAConfiguredEncUsesTheRngPort : Prop :=
  ∀ s t : State, step s = .next t →
    t.rngIn = s.rngIn
    ∨ (configured s = true ∧ (∃ a, s.rngIn = a :: t.rngIn)
        ∧ ∃ (h : BitVec 64) (p : Bytes) (es : List HostEvent) (len : BitVec 32), decode h = .ok (.enc len)
          ∧ (s.hostIn = .command h p :: es ∨ ∃ answers, s.hostIn = .resetDuring h p answers :: es))

/-- The chain registers after one turn of the loops (rules R31, R194, R195). ENC: the block operation's result is
the emitted block, and both `CHAIN` and `BLK` hold it. DEC: `CHAIN` holds the raw ciphertext block, `BLK` the raw
decrypted block, and block `i` of `PBUF` that block XOR the chain value before. `IVR` and `NB` stay. -/
def Obligations.ChainRegistersAfterATurn : Prop :=
  ∀ (i : Nat) (s t : State), s.blen = 32 →
    (∀ c : Bytes, cbceTurn i s = (t, some c) →
      (encryptBlock (xorBytes s.mode.chain.toList (s.mode.pbuf.read (32 * i) 32)) (keyBytes s) (tweakBytes s) 32 s).2
        = some c
      ∧ t.mode.chain.toList = c ∧ t.mode.blk.toList = c
      ∧ t.mode.ivr = s.mode.ivr ∧ t.mode.nb = s.mode.nb ∧ t.mode.pbuf = s.mode.pbuf)
    ∧ (cbcdTurn i s = (t, true) →
      ∃ r : Bytes,
        (decryptBlock (s.ibuf.read (32 + 32 * i) 32) (keyBytes s) (tweakBytes s) 32 s).2 = some r
        ∧ t.mode.chain.toList = s.ibuf.read (32 + 32 * i) 32 ∧ t.mode.blk.toList = r
        ∧ t.mode.ivr = s.mode.ivr ∧ t.mode.nb = s.mode.nb
        ∧ (s.mode.pbuf.wf = true → 32 * i + 32 ≤ s.mode.pbuf.len →
            t.mode.pbuf.read (32 * i) 32 = xorBytes r s.mode.chain.toList))
end

