-- ==== Sys2Proof/Laws/Codec.lean ====
section
/-! SUPPORT. Small facts of the codec, of byte registers and of the status word: lengths, one word there
and back, what a register holds after a load. -/

namespace Sys2Proof.Machine

@[simp] theorem wordBytes_length (w : Word) : (wordBytes w).length = 8 := by simp [wordBytes]

@[simp] theorem w2b_nil : w2b [] = [] := rfl

@[simp] theorem w2b_cons (w : Word) (ws : List Word) : w2b (w :: ws) = wordBytes w ++ w2b ws := rfl

@[simp] theorem w2b_length (ws : List Word) : (w2b ws).length = 8 * ws.length := by
  induction ws with
  | nil => rfl
  | cons w ws ih => simp [ih, Nat.mul_add, Nat.add_comm]

@[simp] theorem b2w_length (b : Bytes) : (b2w b).length = b.length / 8 := by simp [b2w]

@[simp] theorem quadWords_length (q : Quad) : (quadWords q).length = 4 := rfl

@[simp] theorem blockBytes_length (q : Quad) : (blockBytes q).length = 32 := by simp [blockBytes]

theorem leValue_append (a b : Bytes) : leValue (a ++ b) = leValue a + 256 ^ a.length * leValue b := by
  induction a with
  | nil => simp [leValue]
  | cons x xs ih => simp [leValue, ih, Nat.pow_succ]; ring

theorem leValue_lt (b : Bytes) : leValue b < 256 ^ b.length := by
  induction b with
  | nil => simp [leValue]
  | cons x xs ih =>
    have := x.isLt
    simp only [leValue, List.length_cons, Nat.pow_succ]
    omega

/-- The first `n` bytes of a word, least significant first, are its value modulo `2^(8n)`. -/
theorem leValue_wordBytes_range (w : Word) (n : Nat) :
    leValue ((List.range n).map (wordByte w)) = w.toNat % 2 ^ (8 * n) := by
  induction n with
  | zero => simp [leValue, Nat.mod_one]
  | succ n ih =>
    have h256 : (256 : Nat) ^ n = 2 ^ (8 * n) := by rw [Nat.pow_mul]
    rw [List.range_succ, List.map_append, leValue_append, ih]
    simp only [List.length_map, List.length_range, List.map_cons, List.map_nil, leValue, wordByte,
      BitVec.extractLsb'_toNat, h256, Nat.shiftRight_eq_div_pow, Nat.mul_zero, Nat.add_zero]
    rw [show 8 * (n + 1) = 8 * n + 8 by ring, Nat.pow_add, Nat.mod_mul]

/-- One word to its bytes and back. -/
@[simp] theorem leWord_wordBytes (w : Word) : leWord (wordBytes w) = w := by
  rw [leWord, wordBytes, leValue_wordBytes_range, Nat.mod_eq_of_lt (by simpa using w.isLt)]
  exact BitVec.ofNat_toNat 64 w

/-- Eight bytes to their word and back. -/
theorem wordBytes_leWord (b : Bytes) (h : b.length = 8) : wordBytes (leWord b) = b := by
  match b, h with
  | [b0, b1, b2, b3, b4, b5, b6, b7], _ =>
    have hlt : ∀ x : Byte, x.toNat < 256 := fun x => x.isLt
    have := hlt b0; have := hlt b1; have := hlt b2; have := hlt b3
    have := hlt b4; have := hlt b5; have := hlt b6; have := hlt b7
    simp only [wordBytes, leWord, wordByte, leValue, List.range, List.range.loop, List.map_cons,
      List.map_nil, List.cons.injEq, and_true]
    refine ⟨?_, ?_, ?_, ?_, ?_, ?_, ?_, ?_⟩ <;>
    · apply BitVec.eq_of_toNat_eq
      simp only [BitVec.extractLsb'_toNat, BitVec.toNat_ofNat, Nat.shiftRight_eq_div_pow]
      norm_num
      omega

@[simp] theorem regOfBytes_toList (n : Nat) (b : Bytes) (h : b.length = n) : (regOfBytes n b).toList = b := by
  subst h
  simp [regOfBytes, Vector.toList]

@[simp] theorem regOfBytes_toList_self (n : Nat) (v : Vector Byte n) : regOfBytes n v.toList = v := by
  apply Vector.toList_inj.1
  simp

theorem regOfBytes_length (n : Nat) (b : Bytes) : (regOfBytes n b).toList.length = n := by simp

/-! Sized operands (rule R113). -/

@[simp] theorem sized_toList (n : Nat) (v : Vector Byte n) : sized n v.toList = some v := by
  simp [sized, Vector.toList]

theorem sized_eq_some {n : Nat} {b : Bytes} (h : b.length = n) : sized n b = some (regOfBytes n b) := by
  subst h
  simp [sized, regOfBytes]

theorem sized_eq_none {n : Nat} {b : Bytes} (h : b.length ≠ n) : sized n b = none := by simp [sized, h]

theorem toList_of_sized {n : Nat} {b : Bytes} {v : Vector Byte n} (h : sized n b = some v) : v.toList = b := by
  simp only [sized] at h
  split at h
  · cases h
    simp [Vector.toList]
  · cases h

/-- The sized `b2w` of a block is `b2w` of its bytes. -/
@[simp] theorem quadWords_blockWords (b : Vector Byte 32) : quadWords (blockWords b) = b2w b.toList := by
  apply List.ext_getElem
  · simp
  · intro i h _
    simp only [quadWords_length] at h
    interval_cases i <;> rfl

/-- The sized `b2w` of a tweak or a word pair is `b2w` of its bytes. -/
theorem pairWords_eq (b : Vector Byte 16) : [(pairWords b).1, (pairWords b).2] = b2w b.toList := by
  apply List.ext_getElem
  · simp
  · intro i h _
    simp only [List.length_cons, List.length_nil] at h
    interval_cases i <;> rfl

@[simp] theorem xorBytes_length (a b : Bytes) : (xorBytes a b).length = min a.length b.length := by
  simp [xorBytes]

@[simp] theorem trailerBytes_length (n : Nat) : (trailerBytes n).length = 4 := by simp [trailerBytes]

/-! The status word's fields. -/

@[simp] theorem okFlag_statusWord (ok : Bool) (r : Reason) (n : BitVec 32) :
    okFlag (statusWord ok r n) = ok := by
  simp only [okFlag, statusWord]
  rw [BitVec.getLsbD_append, if_pos (by omega)]
  cases ok <;> rfl

@[simp] theorem reasonField_statusWord (ok : Bool) (r : Reason) (n : BitVec 32) :
    reasonField (statusWord ok r n) = r.code := by
  apply BitVec.eq_of_getLsbD_eq
  intro i hi
  simp only [reasonField, statusWord, BitVec.getLsbD_extractLsb', BitVec.getLsbD_append]
  rw [if_neg (by omega : ¬ 1 + i < 1), if_pos (by omega : 1 + i - 1 < 3), Nat.add_sub_cancel_left]
  simp [hi]

@[simp] theorem reservedField_statusWord (ok : Bool) (r : Reason) (n : BitVec 32) :
    reservedField (statusWord ok r n) = 0 := by
  apply BitVec.eq_of_getLsbD_eq
  intro i hi
  simp only [reservedField, statusWord, BitVec.getLsbD_extractLsb', BitVec.getLsbD_append]
  rw [if_neg (by omega : ¬ 4 + i < 1), if_neg (by omega : ¬ 4 + i - 1 < 3),
    if_pos (by omega : 4 + i - 1 - 3 < 28)]
  simp

@[simp] theorem rlenField_statusWord (ok : Bool) (r : Reason) (n : BitVec 32) :
    rlenField (statusWord ok r n) = n := by
  apply BitVec.eq_of_getLsbD_eq
  intro i hi
  simp only [rlenField, statusWord, BitVec.getLsbD_extractLsb', BitVec.getLsbD_append]
  rw [if_neg (by omega : ¬ 32 + i < 1), if_neg (by omega : ¬ 32 + i - 1 < 3),
    if_neg (by omega : ¬ 32 + i - 1 - 3 < 28), show 32 + i - 1 - 3 - 28 = i by omega]
  simp [hi]

end Sys2Proof.Machine
end

