-- ==== Sys2Proof/Laws/Engine.lean ====
section
/-! SUPPORT. What a round, the key schedule and a whole block operation do to the words, with the
registers that only carry intermediate values left out (10_state.md rules R22, R30): the result of a block
operation depends on the key, the tweak, the block and the table alone. -/

namespace Sys2Proof.Machine

theorem forwardRound_v (t : RotTable) (en : Engine) (d : Nat) :
    (en.forwardRound t d).v = forwardWords t en.sk en.v d := by
  by_cases h : d % 4 = 0 <;>
    simp [Engine.forwardRound, Engine.mixPair, Engine.inject, forwardWords, mixWords, injectWords,
      Engine.group, setPair, pairOf, h]

theorem forwardRound_sk (t : RotTable) (en : Engine) (d : Nat) : (en.forwardRound t d).sk = en.sk := by
  simp only [Engine.forwardRound, List.foldl, Engine.mixPair, Engine.inject]
  split <;> rfl

theorem backwardRound_v (t : RotTable) (en : Engine) (d : Nat) :
    (en.backwardRound t d).v = backwardWords t en.sk en.v d := by
  by_cases h : d % 4 = 0 <;>
    simp [Engine.backwardRound, Engine.unmixPair, Engine.remove, backwardWords, unmixWords, removeWords,
      Engine.group, setPair, pairOf, h]

theorem backwardRound_sk (t : RotTable) (en : Engine) (d : Nat) : (en.backwardRound t d).sk = en.sk := by
  simp only [Engine.backwardRound, List.foldl, Engine.unmixPair, Engine.remove]
  split <;> rfl

theorem forwardRounds_v (t : RotTable) (ds : List Nat) (en : Engine) :
    (ds.foldl (Engine.forwardRound t) en).v = ds.foldl (forwardWords t en.sk) en.v
    ∧ (ds.foldl (Engine.forwardRound t) en).sk = en.sk := by
  induction ds generalizing en with
  | nil => exact ⟨rfl, rfl⟩
  | cons d ds ih =>
    simp only [List.foldl_cons]
    have := ih (en.forwardRound t d)
    rw [forwardRound_v, forwardRound_sk] at this
    exact this

theorem backwardRounds_v (t : RotTable) (ds : List Nat) (en : Engine) :
    (ds.foldl (Engine.backwardRound t) en).v = ds.foldl (backwardWords t en.sk) en.v := by
  induction ds generalizing en with
  | nil => rfl
  | cons d ds ih =>
    simp only [List.foldl_cons]
    rw [ih, backwardRound_v, backwardRound_sk]

theorem expandGroup_sk (en : Engine) (n g : Nat) (hg : g < 19) :
    (expandGroup en n).sk[g] = if n = g then subkey en.kx en.tx n else en.sk[g] :=
  Vector.getElem_setIfInBounds hg

/-- The loop of rule R142 writes the groups it has reached and nothing else of the schedule. -/
theorem expandGroups (en : Engine) (n : Nat) :
    ((List.range n).foldl expandGroup en).kx = en.kx
    ∧ ((List.range n).foldl expandGroup en).tx = en.tx
    ∧ ∀ g (hg : g < 19), ((List.range n).foldl expandGroup en).sk[g] =
        if g < n then subkey en.kx en.tx g else en.sk[g] := by
  induction n with
  | zero => exact ⟨rfl, rfl, fun _ _ => rfl⟩
  | succ n ih =>
    obtain ⟨h1, h2, h3⟩ := ih
    rw [List.range_succ, List.foldl_append]
    refine ⟨h1, h2, fun g hg => ?_⟩
    simp only [List.foldl_cons, List.foldl_nil, expandGroup_sk _ n g hg]
    rw [h1, h2, h3 g hg]
    by_cases hgn : n = g
    · rw [if_pos hgn, if_pos (by omega), hgn]
    · rw [if_neg hgn]
      by_cases hlt : g < n
      · rw [if_pos hlt, if_pos (by omega)]
      · rw [if_neg hlt, if_neg (by omega)]

theorem expand_kx (en : Engine) (k : Vector Byte 32) (tw : Vector Byte 16) : (en.expand k tw).kx = extKey k :=
  (expandGroups _ _).1

theorem expand_tx (en : Engine) (k : Vector Byte 32) (tw : Vector Byte 16) : (en.expand k tw).tx = extTweak tw :=
  (expandGroups _ _).2.1

/-- After `ksx` the subkey file is the schedule of the key and the tweak, whatever it held before. -/
theorem expand_sk (en : Engine) (k : Vector Byte 32) (tw : Vector Byte 16) : (en.expand k tw).sk = scheduleOf k tw := by
  apply Vector.ext
  intro g hg
  have := (expandGroups { en with kx := extKey k, tx := extTweak tw } numGroups).2.2 g hg
  simp only [Engine.expand, scheduleOf, Vector.getElem_ofFn]
  rw [this, if_pos (by simpa [numGroups, numRounds] using hg)]

/-- The words at the end of the forward operation, before serialisation. -/
theorem runForward_v (t : RotTable) (p k : Vector Byte 32) (tw : Vector Byte 16) (en : Engine) :
    (en.runForward t p k tw).v =
      addsk ((List.range numRounds).foldl (forwardWords t (scheduleOf k tw)) (blockWords p))
        ((scheduleOf k tw).getD 18 quadZero) := by
  simp only [Engine.runForward, Engine.group]
  rw [(forwardRounds_v t _ _).1, (forwardRounds_v t _ _).2, expand_sk]

/-- The words at the end of the backward operation, before serialisation. -/
theorem runBackward_v (t : RotTable) (c k : Vector Byte 32) (tw : Vector Byte 16) (en : Engine) :
    (en.runBackward t c k tw).v =
      (List.range numRounds).reverse.foldl (backwardWords t (scheduleOf k tw))
        (subsk (blockWords c) ((scheduleOf k tw).getD 18 quadZero)) := by
  simp only [Engine.runBackward, Engine.group]
  rw [backwardRounds_v, expand_sk]

/-- The result of a block operation does not depend on what the engine's registers held. -/
theorem runForward_result (t : RotTable) (p k : Vector Byte 32) (tw : Vector Byte 16) (en : Engine) :
    blockBytes (en.runForward t p k tw).v = cipherEncrypt t k tw p := by
  rw [cipherEncrypt, runForward_v, runForward_v]

theorem runBackward_result (t : RotTable) (c k : Vector Byte 32) (tw : Vector Byte 16) (en : Engine) :
    blockBytes (en.runBackward t c k tw).v = cipherDecrypt t k tw c := by
  rw [cipherDecrypt, runBackward_v, runBackward_v]

@[simp] theorem cipherEncrypt_length (t : RotTable) (k : Vector Byte 32) (tw : Vector Byte 16) (p : Vector Byte 32) : (cipherEncrypt t k tw p).length = 32 := by
  simp [cipherEncrypt]

@[simp] theorem cipherDecrypt_length (t : RotTable) (k : Vector Byte 32) (tw : Vector Byte 16) (c : Vector Byte 32) : (cipherDecrypt t k tw c).length = 32 := by
  simp [cipherDecrypt]

@[simp] theorem storedEncrypt_length (s : State) (b : Bytes) : (storedEncrypt s b).length = 32 :=
  cipherEncrypt_length _ _ _ _

@[simp] theorem storedDecrypt_length (s : State) (b : Bytes) : (storedDecrypt s b).length = 32 :=
  cipherDecrypt_length _ _ _ _

/-- The layout of the schedule as KSX returns it has 672 bytes. -/
theorem scheduleBytes_length (en : Engine) : (scheduleBytes en).length = 672 := by
  have : (en.sk.toList.flatMap blockBytes).length = 32 * en.sk.toList.length := by
    induction en.sk.toList with
    | nil => rfl
    | cons q qs ih => simp [ih, Nat.mul_add, Nat.add_comm]
  simp [scheduleBytes, this]

end Sys2Proof.Machine
end

