-- ==== Sys2Proof/Laws/Memory.lean ====
section
/-! SUPPORT. The byte spaces: read after write, the canonical form and what keeps it, and the content
of a space made from a byte string. -/

namespace Sys2Proof.Machine

@[simp] theorem zeros_length (n : Nat) : (zeros n).length = n := by simp [zeros]

@[simp] theorem Memory.blank_len (n : Nat) : (Memory.blank n).len = n := rfl

@[simp] theorem Memory.empty_len : Memory.empty.len = 0 := rfl

@[simp] theorem Memory.ofBytes_len (b : Bytes) : (Memory.ofBytes b).len = b.length := rfl

@[simp] theorem Memory.ofBytes_nil : Memory.ofBytes [] = Memory.empty := rfl

@[simp] theorem Memory.read_length (m : Memory) (a n : Nat) : (m.read a n).length = n := by
  simp [Memory.read]

@[simp] theorem Memory.bytes_length (m : Memory) : m.bytes.length = m.len := by simp [Memory.bytes]

@[simp] theorem Memory.blank_byteAt (n a : Nat) : (Memory.blank n).byteAt a = 0 := rfl

theorem Memory.read?_eq_some (m : Memory) (a n : Nat) (h : a + n ≤ m.len) :
    m.read? a n = some (m.read a n) := by simp [Memory.read?, h]

theorem Memory.read?_eq_none (m : Memory) (a n : Nat) (h : m.len < a + n) : m.read? a n = none := by
  simp [Memory.read?, Nat.not_le.2 h]

theorem Memory.read_getElem (m : Memory) (a n i : Nat) (h : i < (m.read a n).length) :
    (m.read a n)[i] = m.byteAt (a + i) := by simp [Memory.read]

/-- Reading in two parts: the first `n` bytes, then the rest. -/
theorem Memory.read_add (m : Memory) (a n k : Nat) : m.read a (n + k) = m.read a n ++ m.read (a + n) k := by
  simp [Memory.read, List.range_add, Function.comp_def, Nat.add_assoc]

/-- A part of a read is the read of the part. -/
theorem Memory.take_read (m : Memory) (a n k : Nat) (h : k ≤ n) : (m.read a n).take k = m.read a k := by
  obtain ⟨j, rfl⟩ := Nat.exists_eq_add_of_le h
  rw [Memory.read_add, List.take_left' (by simp)]

theorem Memory.drop_read (m : Memory) (a n k : Nat) (h : k ≤ n) :
    (m.read a n).drop k = m.read (a + k) (n - k) := by
  obtain ⟨j, rfl⟩ := Nat.exists_eq_add_of_le h
  rw [Memory.read_add, List.drop_left' (by simp), Nat.add_sub_cancel_left]

/-! Cells: the canonical form, lookup after an update. -/

theorem canonical_mono {lo lo' hi : Nat} {cs : List Host.Cell} (h : lo' ≤ lo)
    (hc : Memory.canonical lo hi cs = true) : Memory.canonical lo' hi cs = true := by
  cases cs with
  | nil => rfl
  | cons c cs =>
    obtain ⟨a, b⟩ := c
    simp only [Memory.canonical, Bool.and_eq_true, decide_eq_true_eq] at hc ⊢
    exact ⟨⟨⟨by omega, hc.1.1.2⟩, hc.1.2⟩, hc.2⟩

theorem cellAt_eq_zero_of_lt {lo hi a : Nat} {cs : List Host.Cell}
    (hc : Memory.canonical lo hi cs = true) (h : a < lo) : cellAt cs a = 0 := by
  induction cs generalizing lo with
  | nil => rfl
  | cons c cs ih =>
    obtain ⟨x, b⟩ := c
    simp only [Memory.canonical, Bool.and_eq_true, decide_eq_true_eq] at hc
    simp only [cellAt]
    rw [if_neg (by omega), ih hc.2 (by omega)]

theorem cellAt_eq_zero_of_ge {lo hi a : Nat} {cs : List Host.Cell}
    (hc : Memory.canonical lo hi cs = true) (h : hi ≤ a) : cellAt cs a = 0 := by
  induction cs generalizing lo with
  | nil => rfl
  | cons c cs ih =>
    obtain ⟨x, b⟩ := c
    simp only [Memory.canonical, Bool.and_eq_true, decide_eq_true_eq] at hc
    simp only [cellAt]
    rw [if_neg (by omega), ih hc.2]

theorem canonical_setCell {lo hi a : Nat} {b : Byte} {cs : List Host.Cell}
    (hc : Memory.canonical lo hi cs = true) (hlo : lo ≤ a) (hhi : a < hi) :
    Memory.canonical lo hi (setCell cs a b) = true := by
  induction cs generalizing lo with
  | nil =>
    simp only [setCell]
    split
    · rfl
    · rename_i hb
      simp only [Memory.canonical, Bool.and_eq_true, decide_eq_true_eq]
      exact ⟨⟨⟨hlo, hhi⟩, by simpa using hb⟩, trivial⟩
  | cons c cs ih =>
    obtain ⟨x, d⟩ := c
    simp only [Memory.canonical, Bool.and_eq_true, decide_eq_true_eq] at hc
    obtain ⟨⟨⟨h1, h2⟩, h3⟩, h4⟩ := hc
    simp only [setCell]
    split
    · rename_i hax
      split
      · simp only [Memory.canonical, Bool.and_eq_true, decide_eq_true_eq]
        exact ⟨⟨⟨h1, h2⟩, h3⟩, h4⟩
      · rename_i hb
        simp only [Memory.canonical, Bool.and_eq_true, decide_eq_true_eq]
        exact ⟨⟨⟨hlo, hhi⟩, by simpa using hb⟩, ⟨⟨⟨by omega, h2⟩, h3⟩, h4⟩⟩
    · split
      · rename_i hxa
        subst hxa
        split
        · exact canonical_mono (by omega) h4
        · rename_i hb
          simp only [Memory.canonical, Bool.and_eq_true, decide_eq_true_eq]
          exact ⟨⟨⟨h1, h2⟩, by simpa using hb⟩, h4⟩
      · simp only [Memory.canonical, Bool.and_eq_true, decide_eq_true_eq]
        exact ⟨⟨⟨h1, h2⟩, h3⟩, ih h4 (by omega)⟩

theorem cellAt_setCell {lo hi : Nat} {cs : List Host.Cell} (hc : Memory.canonical lo hi cs = true)
    (a x : Nat) (b : Byte) : cellAt (setCell cs a b) x = if x = a then b else cellAt cs x := by
  induction cs generalizing lo with
  | nil =>
    simp only [setCell, cellAt]
    split <;> rename_i hb
    · simp [cellAt, hb]
    · simp only [cellAt, eq_comm]
  | cons c cs ih =>
    obtain ⟨y, d⟩ := c
    simp only [Memory.canonical, Bool.and_eq_true, decide_eq_true_eq] at hc
    obtain ⟨⟨⟨h1, h2⟩, h3⟩, h4⟩ := hc
    have hlow : ∀ z, z ≤ y → cellAt cs z = 0 := fun z hz => cellAt_eq_zero_of_lt h4 (by omega)
    simp only [setCell]
    split
    · rename_i hay
      split
      · rename_i hb
        subst hb
        by_cases hxa : x = a
        · subst hxa
          rw [if_pos rfl]
          simp only [cellAt]
          rw [if_neg (by omega), hlow x (by omega)]
        · rw [if_neg hxa]
      · simp only [cellAt, eq_comm]
    · split
      · rename_i hya
        subst hya
        split
        · rename_i hb
          subst hb
          simp only [cellAt]
          split
          · rename_i hxy
            rw [hxy, hlow y (Nat.le_refl y)]
          · rw [if_neg (by omega)]
        · simp only [cellAt]
          by_cases hxy : y = x
          · rw [if_pos hxy, if_pos hxy.symm]
          · rw [if_neg hxy, if_neg (by omega), if_neg hxy]
      · rename_i hya hne
        simp only [cellAt]
        split
        · rename_i hyx
          rw [if_neg (by omega)]
        · rw [ih h4]

theorem canonical_cellsFrom (a hi : Nat) (b : Bytes) (h : a + b.length ≤ hi) :
    Memory.canonical a hi (cellsFrom a b) = true := by
  induction b generalizing a with
  | nil => rfl
  | cons x xs ih =>
    simp only [List.length_cons] at h
    simp only [cellsFrom]
    have := ih (a + 1) (by omega)
    split
    · exact canonical_mono (by omega) this
    · rename_i hx
      simp only [Memory.canonical, Bool.and_eq_true, decide_eq_true_eq]
      exact ⟨⟨⟨Nat.le_refl a, by omega⟩, by simpa using hx⟩, this⟩

theorem cellAt_cellsFrom (a x : Nat) (b : Bytes) (h : a ≤ x) :
    cellAt (cellsFrom a b) x = b.getD (x - a) 0 := by
  induction b generalizing a with
  | nil => simp [cellsFrom, cellAt]
  | cons y ys ih =>
    have hlow : ∀ z, z ≤ a → cellAt (cellsFrom (a + 1) ys) z = 0 := fun z hz =>
      cellAt_eq_zero_of_lt (canonical_cellsFrom (a + 1) (a + 1 + ys.length) ys (Nat.le_refl _)) (by omega)
    simp only [cellsFrom]
    rcases Nat.eq_or_lt_of_le h with rfl | hlt
    · split
      · rename_i hy
        simp [hlow a (Nat.le_refl a), hy]
      · simp [cellAt]
    · have hx : x - a = (x - (a + 1)) + 1 := by omega
      have := ih (a + 1) (by omega)
      split
      · rw [this, hx, List.getD_cons_succ]
      · simp only [cellAt]
        rw [if_neg (by omega), this, hx, List.getD_cons_succ]

/-- In canonical form, equal lookups mean equal cells. -/
theorem cells_ext {lo hi : Nat} {cs ds : List Host.Cell} (hc : Memory.canonical lo hi cs = true)
    (hd : Memory.canonical lo hi ds = true) (h : ∀ a, cellAt cs a = cellAt ds a) : cs = ds := by
  induction cs generalizing lo ds with
  | nil =>
    cases ds with
    | nil => rfl
    | cons d ds =>
      obtain ⟨y, e⟩ := d
      simp only [Memory.canonical, Bool.and_eq_true] at hd
      have := h y
      simp only [cellAt, if_true] at this
      simp [← this] at hd
  | cons c cs ih =>
    obtain ⟨x, b⟩ := c
    simp only [Memory.canonical, Bool.and_eq_true, decide_eq_true_eq] at hc
    cases ds with
    | nil =>
      have := h x
      simp only [cellAt, if_true] at this
      simp [this] at hc
    | cons d ds =>
      obtain ⟨y, e⟩ := d
      simp only [Memory.canonical, Bool.and_eq_true, decide_eq_true_eq] at hd
      have hxy : x = y := by
        rcases Nat.lt_trichotomy x y with hlt | heq | hgt
        · have := h x
          simp only [cellAt, if_true] at this
          rw [if_neg (by omega), cellAt_eq_zero_of_lt hd.2 (by omega)] at this
          simp [this] at hc
        · exact heq
        · have := h y
          simp only [cellAt, if_true] at this
          rw [if_neg (by omega), cellAt_eq_zero_of_lt hc.2 (by omega)] at this
          simp [← this] at hd
      subst hxy
      have hbe : b = e := by
        have := h x
        simpa [cellAt] using this
      subst hbe
      rw [ih hc.2 hd.2 fun a => by
        by_cases hax : x = a
        · subst hax
          rw [cellAt_eq_zero_of_lt hc.2 (by omega), cellAt_eq_zero_of_lt hd.2 (by omega)]
        · have := h a
          simpa [cellAt, hax] using this]

/-! Spaces. -/

theorem Memory.wf_iff (m : Memory) :
    m.wf = true ↔ Memory.canonical 0 m.len m.cells = true ∧ m.len < 2 ^ 32 := by
  simp [Memory.wf]

theorem Memory.wf_empty : Memory.empty.wf = true := by decide

theorem Memory.wf_blank {n : Nat} (h : n < 2 ^ 32) : (Memory.blank n).wf = true := by
  simpa [Memory.wf_iff, Memory.blank, Memory.canonical] using h

theorem Memory.wf_ofBytes {b : Bytes} (h : b.length < 2 ^ 32) : (Memory.ofBytes b).wf = true := by
  simp only [Memory.wf_iff, Memory.ofBytes]
  exact ⟨canonical_cellsFrom 0 _ b (by omega), h⟩

@[simp] theorem Memory.setByte_len (m : Memory) (a : Nat) (b : Byte) : (m.setByte a b).len = m.len := by
  simp only [Memory.setByte]
  split <;> rfl

theorem Memory.wf_setByte {m : Memory} (h : m.wf = true) (a : Nat) (b : Byte) :
    (m.setByte a b).wf = true := by
  rw [Memory.wf_iff] at h ⊢
  simp only [Memory.setByte]
  split
  · rename_i ha
    exact ⟨canonical_setCell h.1 (Nat.zero_le a) ha, h.2⟩
  · exact h

/-- One byte after a write of one byte. -/
theorem Memory.byteAt_setByte {m : Memory} (h : m.wf = true) (a x : Nat) (b : Byte) :
    (m.setByte a b).byteAt x = if x = a ∧ a < m.len then b else m.byteAt x := by
  rw [Memory.wf_iff] at h
  simp only [Memory.setByte, Memory.byteAt]
  by_cases ha : a < m.len
  · simp only [ha, if_true, and_true]
    exact cellAt_setCell h.1 a x b
  · simp [ha]

@[simp] theorem Memory.write_len (m : Memory) (a : Nat) (b : Bytes) : (m.write a b).len = m.len := by
  induction b generalizing m a with
  | nil => rfl
  | cons x xs ih => simp [Memory.write, ih]

theorem Memory.wf_write {m : Memory} (h : m.wf = true) (a : Nat) (b : Bytes) : (m.write a b).wf = true := by
  induction b generalizing m a with
  | nil => exact h
  | cons x xs ih => exact ih (Memory.wf_setByte h a x) (a + 1)

/-- One byte after a write inside the space: the byte written, or the byte before. -/
theorem Memory.byteAt_write {m : Memory} (h : m.wf = true) (a x : Nat) (b : Bytes) (hin : a + b.length ≤ m.len) :
    (m.write a b).byteAt x = if a ≤ x ∧ x < a + b.length then b.getD (x - a) 0 else m.byteAt x := by
  induction b generalizing m a with
  | nil =>
    simp only [Memory.write, List.length_nil, Nat.add_zero]
    rw [if_neg (by omega)]
  | cons y ys ih =>
    simp only [List.length_cons] at hin
    simp only [Memory.write, List.length_cons]
    rw [ih (Memory.wf_setByte h a y) (a + 1) (by simpa using by omega), Memory.byteAt_setByte h]
    by_cases h1 : a + 1 ≤ x ∧ x < a + 1 + ys.length
    · rw [if_pos h1, if_pos (by omega)]
      have hx : x - a = (x - (a + 1)) + 1 := by omega
      rw [hx, List.getD_cons_succ]
    · rw [if_neg h1]
      by_cases h2 : x = a
      · rw [if_pos ⟨h2, by omega⟩, if_pos (by omega), h2]
        simp
      · rw [if_neg (by omega), if_neg (by omega)]

theorem Memory.bytes_getElem? (m : Memory) (i : Nat) :
    m.bytes[i]? = if i < m.len then some (m.byteAt i) else none := by
  by_cases h : i < m.len
  · simp [Memory.bytes, Memory.read, h]
  · simp [Memory.bytes, Memory.read, h]

theorem Memory.byteAt_ofBytes (b : Bytes) (a : Nat) : (Memory.ofBytes b).byteAt a = b.getD a 0 := by
  simp only [Memory.ofBytes, Memory.byteAt]
  rw [cellAt_cellsFrom 0 a b (Nat.zero_le a), Nat.sub_zero]

/-- The content of a space made from a byte string is that byte string. -/
@[simp] theorem Memory.bytes_ofBytes (b : Bytes) : (Memory.ofBytes b).bytes = b := by
  apply List.ext_getElem
  · simp
  · intro i h1 h2
    simp [Memory.bytes, Memory.read, Memory.byteAt_ofBytes, h2]

/-- A part of such a space is the part of the byte string. -/
theorem Memory.read_ofBytes (b : Bytes) (a n : Nat) (h : a + n ≤ b.length) :
    (Memory.ofBytes b).read a n = (b.drop a).take n := by
  apply List.ext_getElem
  · simp
    omega
  · intro i h1 h2
    simp only [Memory.read_length] at h1
    simp [Memory.read, Memory.byteAt_ofBytes, Nat.lt_of_lt_of_le (Nat.add_lt_add_left h1 a) h]

/-- Equal spaces: the canonical form makes spaces with the same bytes the same data. -/
theorem Memory.ext_bytes {m n : Memory} (hm : m.wf = true) (hn : n.wf = true) (h : m.bytes = n.bytes) : m = n := by
  have hlen : m.len = n.len := by rw [← Memory.bytes_length m, h, Memory.bytes_length]
  rw [Memory.wf_iff] at hm hn
  obtain ⟨ml, mc⟩ := m
  obtain ⟨nl, nc⟩ := n
  simp only at hlen hm hn
  subst hlen
  congr 1
  refine cells_ext hm.1 hn.1 fun a => ?_
  by_cases ha : a < ml
  · have h1 := congrArg (fun l => l[a]?) h
    simpa [Memory.bytes, Memory.read, Memory.byteAt, List.getElem?_range, ha] using h1
  · rw [cellAt_eq_zero_of_ge hm.1 (by omega), cellAt_eq_zero_of_ge hn.1 (by omega)]

theorem Memory.ofBytes_bytes {m : Memory} (h : m.wf = true) : Memory.ofBytes m.bytes = m :=
  Memory.ext_bytes (Memory.wf_ofBytes (by rw [Memory.bytes_length]; exact (m.wf_iff.1 h).2)) h (by simp)

/-- A write inside the space as a byte string: what stands before it, what is written, what stands after. -/
theorem Memory.write_eq_ofBytes {m : Memory} (h : m.wf = true) (a : Nat) (b : Bytes) (hin : a + b.length ≤ m.len) :
    m.write a b = Memory.ofBytes (m.bytes.take a ++ b ++ m.bytes.drop (a + b.length)) := by
  have hl := (m.wf_iff.1 h).2
  refine Memory.ext_bytes (Memory.wf_write h a b) (Memory.wf_ofBytes ?_) ?_
  · simp
    omega
  · rw [Memory.bytes_ofBytes]
    apply List.ext_getElem?
    intro i
    rw [Memory.bytes_getElem?, Memory.write_len, Memory.byteAt_write h a i b hin, List.append_assoc,
      List.getElem?_append, List.getElem?_append]
    simp only [List.length_take, Memory.bytes_length, List.getElem?_take, List.getElem?_drop,
      Memory.bytes_getElem?]
    rw [Nat.min_eq_left (by omega)]
    by_cases h3 : i < a
    · rw [if_pos h3, if_pos h3, if_neg (by omega : ¬ (a ≤ i ∧ i < a + b.length))]
    · rw [if_neg h3]
      by_cases h4 : i < a + b.length
      · rw [if_pos (by omega), if_pos (by omega), if_pos (by omega), List.getD_eq_getElem?_getD,
          List.getElem?_eq_getElem (by omega)]
        rfl
      · rw [if_neg (by omega : ¬ i - a < b.length), if_neg (by omega : ¬ (a ≤ i ∧ i < a + b.length))]
        rw [show a + b.length + (i - a - b.length) = i by omega]

theorem presented_wf (len : BitVec 32) (p : Bytes) (s : State) : (presentPayload len p s).ibuf.wf = true := by
  rw [Memory.wf_iff]
  refine ⟨canonical_cellsFrom 0 _ _ ?_, len.isLt⟩
  show 0 + (p.take len.toNat).length ≤ len.toNat
  simp

/-- A payload of `LEN` bytes is what `IBUF` holds when the command starts. -/
theorem presented_bytes (len : BitVec 32) (p : Bytes) (s : State) (h : p.length = len.toNat) :
    (presentPayload len p s).ibuf = Memory.ofBytes p := by
  show (⟨len.toNat, cellsFrom 0 (p.take len.toNat)⟩ : Memory) = ⟨p.length, cellsFrom 0 p⟩
  rw [← h, List.take_length]

end Sys2Proof.Machine
end

