-- ==== Sys2Proof/Laws/State.lean ====
section
/-! SUPPORT. Each field of State after each named update: the values a named update writes, and the
fields it leaves alone. Every lemma is true by unfolding and is a simp lemma, so that no proof unfolds a
record update. -/

namespace Sys2Proof.Machine

/-! `zeroizeScratch` -/
@[simp] theorem zeroizeScratch_key (s : State) : (zeroizeScratch s).key = s.key := rfl
@[simp] theorem zeroizeScratch_klen (s : State) : (zeroizeScratch s).klen = s.klen := rfl
@[simp] theorem zeroizeScratch_tweak (s : State) : (zeroizeScratch s).tweak = s.tweak := rfl
@[simp] theorem zeroizeScratch_tlen (s : State) : (zeroizeScratch s).tlen = s.tlen := rfl
@[simp] theorem zeroizeScratch_blen (s : State) : (zeroizeScratch s).blen = s.blen := rfl
@[simp] theorem zeroizeScratch_status (s : State) : (zeroizeScratch s).status = s.status := rfl
@[simp] theorem zeroizeScratch_obuf (s : State) : (zeroizeScratch s).obuf = s.obuf := rfl
@[simp] theorem zeroizeScratch_ibuf (s : State) : (zeroizeScratch s).ibuf = s.ibuf := rfl
@[simp] theorem zeroizeScratch_eng (s : State) : (zeroizeScratch s).eng = Engine.zero := rfl
@[simp] theorem zeroizeScratch_mode (s : State) : (zeroizeScratch s).mode = ModeRegs.zero := rfl
@[simp] theorem zeroizeScratch_cfg (s : State) : (zeroizeScratch s).cfg = s.cfg := rfl
@[simp] theorem zeroizeScratch_hostIn (s : State) : (zeroizeScratch s).hostIn = s.hostIn := rfl
@[simp] theorem zeroizeScratch_rngIn (s : State) : (zeroizeScratch s).rngIn = s.rngIn := rfl
@[simp] theorem zeroizeScratch_scratchIn (s : State) : (zeroizeScratch s).scratchIn = s.scratchIn := rfl

/-! `raiseFail` -/
@[simp] theorem raiseFail_key (r : Reason) (s : State) : (raiseFail r s).key = s.key := rfl
@[simp] theorem raiseFail_klen (r : Reason) (s : State) : (raiseFail r s).klen = s.klen := rfl
@[simp] theorem raiseFail_tweak (r : Reason) (s : State) : (raiseFail r s).tweak = s.tweak := rfl
@[simp] theorem raiseFail_tlen (r : Reason) (s : State) : (raiseFail r s).tlen = s.tlen := rfl
@[simp] theorem raiseFail_blen (r : Reason) (s : State) : (raiseFail r s).blen = s.blen := rfl
@[simp] theorem raiseFail_status (r : Reason) (s : State) : (raiseFail r s).status = statusFail r := rfl
@[simp] theorem raiseFail_obuf (r : Reason) (s : State) : (raiseFail r s).obuf = Memory.empty := rfl
@[simp] theorem raiseFail_ibuf (r : Reason) (s : State) : (raiseFail r s).ibuf = s.ibuf := rfl
@[simp] theorem raiseFail_eng (r : Reason) (s : State) : (raiseFail r s).eng = Engine.zero := rfl
@[simp] theorem raiseFail_mode (r : Reason) (s : State) : (raiseFail r s).mode = ModeRegs.zero := rfl
@[simp] theorem raiseFail_cfg (r : Reason) (s : State) : (raiseFail r s).cfg = s.cfg := rfl
@[simp] theorem raiseFail_hostIn (r : Reason) (s : State) : (raiseFail r s).hostIn = s.hostIn := rfl
@[simp] theorem raiseFail_rngIn (r : Reason) (s : State) : (raiseFail r s).rngIn = s.rngIn := rfl
@[simp] theorem raiseFail_scratchIn (r : Reason) (s : State) : (raiseFail r s).scratchIn = s.scratchIn := rfl

/-! `succeed` -/
@[simp] theorem succeed_key (out : Bytes) (s : State) : (succeed out s).key = s.key := rfl
@[simp] theorem succeed_klen (out : Bytes) (s : State) : (succeed out s).klen = s.klen := rfl
@[simp] theorem succeed_tweak (out : Bytes) (s : State) : (succeed out s).tweak = s.tweak := rfl
@[simp] theorem succeed_tlen (out : Bytes) (s : State) : (succeed out s).tlen = s.tlen := rfl
@[simp] theorem succeed_blen (out : Bytes) (s : State) : (succeed out s).blen = s.blen := rfl
@[simp] theorem succeed_status (out : Bytes) (s : State) : (succeed out s).status = statusOk out.length := rfl
@[simp] theorem succeed_obuf (out : Bytes) (s : State) : (succeed out s).obuf = Memory.ofBytes out := rfl
@[simp] theorem succeed_ibuf (out : Bytes) (s : State) : (succeed out s).ibuf = s.ibuf := rfl
@[simp] theorem succeed_eng (out : Bytes) (s : State) : (succeed out s).eng = Engine.zero := rfl
@[simp] theorem succeed_mode (out : Bytes) (s : State) : (succeed out s).mode = ModeRegs.zero := rfl
@[simp] theorem succeed_cfg (out : Bytes) (s : State) : (succeed out s).cfg = s.cfg := rfl
@[simp] theorem succeed_hostIn (out : Bytes) (s : State) : (succeed out s).hostIn = s.hostIn := rfl
@[simp] theorem succeed_rngIn (out : Bytes) (s : State) : (succeed out s).rngIn = s.rngIn := rfl
@[simp] theorem succeed_scratchIn (out : Bytes) (s : State) : (succeed out s).scratchIn = s.scratchIn := rfl

/-! `setEngine` -/
@[simp] theorem setEngine_key (en : Engine) (s : State) : (setEngine en s).key = s.key := rfl
@[simp] theorem setEngine_klen (en : Engine) (s : State) : (setEngine en s).klen = s.klen := rfl
@[simp] theorem setEngine_tweak (en : Engine) (s : State) : (setEngine en s).tweak = s.tweak := rfl
@[simp] theorem setEngine_tlen (en : Engine) (s : State) : (setEngine en s).tlen = s.tlen := rfl
@[simp] theorem setEngine_blen (en : Engine) (s : State) : (setEngine en s).blen = s.blen := rfl
@[simp] theorem setEngine_status (en : Engine) (s : State) : (setEngine en s).status = s.status := rfl
@[simp] theorem setEngine_obuf (en : Engine) (s : State) : (setEngine en s).obuf = s.obuf := rfl
@[simp] theorem setEngine_ibuf (en : Engine) (s : State) : (setEngine en s).ibuf = s.ibuf := rfl
@[simp] theorem setEngine_eng (en : Engine) (s : State) : (setEngine en s).eng = en := rfl
@[simp] theorem setEngine_mode (en : Engine) (s : State) : (setEngine en s).mode = s.mode := rfl
@[simp] theorem setEngine_cfg (en : Engine) (s : State) : (setEngine en s).cfg = s.cfg := rfl
@[simp] theorem setEngine_hostIn (en : Engine) (s : State) : (setEngine en s).hostIn = s.hostIn := rfl
@[simp] theorem setEngine_rngIn (en : Engine) (s : State) : (setEngine en s).rngIn = s.rngIn := rfl
@[simp] theorem setEngine_scratchIn (en : Engine) (s : State) : (setEngine en s).scratchIn = s.scratchIn := rfl

/-! `setPbuf` -/
@[simp] theorem setPbuf_key (m : Memory) (s : State) : (setPbuf m s).key = s.key := rfl
@[simp] theorem setPbuf_klen (m : Memory) (s : State) : (setPbuf m s).klen = s.klen := rfl
@[simp] theorem setPbuf_tweak (m : Memory) (s : State) : (setPbuf m s).tweak = s.tweak := rfl
@[simp] theorem setPbuf_tlen (m : Memory) (s : State) : (setPbuf m s).tlen = s.tlen := rfl
@[simp] theorem setPbuf_blen (m : Memory) (s : State) : (setPbuf m s).blen = s.blen := rfl
@[simp] theorem setPbuf_status (m : Memory) (s : State) : (setPbuf m s).status = s.status := rfl
@[simp] theorem setPbuf_obuf (m : Memory) (s : State) : (setPbuf m s).obuf = s.obuf := rfl
@[simp] theorem setPbuf_ibuf (m : Memory) (s : State) : (setPbuf m s).ibuf = s.ibuf := rfl
@[simp] theorem setPbuf_eng (m : Memory) (s : State) : (setPbuf m s).eng = s.eng := rfl
@[simp] theorem setPbuf_mode (m : Memory) (s : State) : (setPbuf m s).mode = { s.mode with pbuf := m } := rfl
@[simp] theorem setPbuf_cfg (m : Memory) (s : State) : (setPbuf m s).cfg = s.cfg := rfl
@[simp] theorem setPbuf_hostIn (m : Memory) (s : State) : (setPbuf m s).hostIn = s.hostIn := rfl
@[simp] theorem setPbuf_rngIn (m : Memory) (s : State) : (setPbuf m s).rngIn = s.rngIn := rfl
@[simp] theorem setPbuf_scratchIn (m : Memory) (s : State) : (setPbuf m s).scratchIn = s.scratchIn := rfl

/-! `takeScratchAnswer` -/
@[simp] theorem takeScratchAnswer_key (s : State) : (takeScratchAnswer s).key = s.key := rfl
@[simp] theorem takeScratchAnswer_klen (s : State) : (takeScratchAnswer s).klen = s.klen := rfl
@[simp] theorem takeScratchAnswer_tweak (s : State) : (takeScratchAnswer s).tweak = s.tweak := rfl
@[simp] theorem takeScratchAnswer_tlen (s : State) : (takeScratchAnswer s).tlen = s.tlen := rfl
@[simp] theorem takeScratchAnswer_blen (s : State) : (takeScratchAnswer s).blen = s.blen := rfl
@[simp] theorem takeScratchAnswer_status (s : State) : (takeScratchAnswer s).status = s.status := rfl
@[simp] theorem takeScratchAnswer_obuf (s : State) : (takeScratchAnswer s).obuf = s.obuf := rfl
@[simp] theorem takeScratchAnswer_ibuf (s : State) : (takeScratchAnswer s).ibuf = s.ibuf := rfl
@[simp] theorem takeScratchAnswer_eng (s : State) : (takeScratchAnswer s).eng = s.eng := rfl
@[simp] theorem takeScratchAnswer_mode (s : State) : (takeScratchAnswer s).mode = s.mode := rfl
@[simp] theorem takeScratchAnswer_cfg (s : State) : (takeScratchAnswer s).cfg = s.cfg := rfl
@[simp] theorem takeScratchAnswer_hostIn (s : State) : (takeScratchAnswer s).hostIn = s.hostIn := rfl
@[simp] theorem takeScratchAnswer_rngIn (s : State) : (takeScratchAnswer s).rngIn = s.rngIn := rfl
@[simp] theorem takeScratchAnswer_scratchIn (s : State) : (takeScratchAnswer s).scratchIn = s.scratchIn.tail := rfl

/-! `presentPayload` -/
@[simp] theorem presentPayload_key (len : BitVec 32) (p : Bytes) (s : State) : (presentPayload len p s).key = s.key := rfl
@[simp] theorem presentPayload_klen (len : BitVec 32) (p : Bytes) (s : State) : (presentPayload len p s).klen = s.klen := rfl
@[simp] theorem presentPayload_tweak (len : BitVec 32) (p : Bytes) (s : State) : (presentPayload len p s).tweak = s.tweak := rfl
@[simp] theorem presentPayload_tlen (len : BitVec 32) (p : Bytes) (s : State) : (presentPayload len p s).tlen = s.tlen := rfl
@[simp] theorem presentPayload_blen (len : BitVec 32) (p : Bytes) (s : State) : (presentPayload len p s).blen = s.blen := rfl
@[simp] theorem presentPayload_status (len : BitVec 32) (p : Bytes) (s : State) : (presentPayload len p s).status = s.status := rfl
@[simp] theorem presentPayload_obuf (len : BitVec 32) (p : Bytes) (s : State) : (presentPayload len p s).obuf = s.obuf := rfl
@[simp] theorem presentPayload_ibuf (len : BitVec 32) (p : Bytes) (s : State) : (presentPayload len p s).ibuf = ⟨len.toNat, cellsFrom 0 (p.take len.toNat)⟩ := rfl
@[simp] theorem presentPayload_eng (len : BitVec 32) (p : Bytes) (s : State) : (presentPayload len p s).eng = s.eng := rfl
@[simp] theorem presentPayload_mode (len : BitVec 32) (p : Bytes) (s : State) : (presentPayload len p s).mode = s.mode := rfl
@[simp] theorem presentPayload_cfg (len : BitVec 32) (p : Bytes) (s : State) : (presentPayload len p s).cfg = s.cfg := rfl
@[simp] theorem presentPayload_hostIn (len : BitVec 32) (p : Bytes) (s : State) : (presentPayload len p s).hostIn = s.hostIn := rfl
@[simp] theorem presentPayload_rngIn (len : BitVec 32) (p : Bytes) (s : State) : (presentPayload len p s).rngIn = s.rngIn := rfl
@[simp] theorem presentPayload_scratchIn (len : BitVec 32) (p : Bytes) (s : State) : (presentPayload len p s).scratchIn = s.scratchIn := rfl

/-! `resetEvent` -/
@[simp] theorem resetEvent_key (s : State) : (resetEvent s).key = Vector.replicate 32 0 := rfl
@[simp] theorem resetEvent_klen (s : State) : (resetEvent s).klen = 0 := rfl
@[simp] theorem resetEvent_tweak (s : State) : (resetEvent s).tweak = Vector.replicate 16 0 := rfl
@[simp] theorem resetEvent_tlen (s : State) : (resetEvent s).tlen = 0 := rfl
@[simp] theorem resetEvent_blen (s : State) : (resetEvent s).blen = 0 := rfl
@[simp] theorem resetEvent_status (s : State) : (resetEvent s).status = statusOk 0 := rfl
@[simp] theorem resetEvent_obuf (s : State) : (resetEvent s).obuf = Memory.empty := rfl
@[simp] theorem resetEvent_ibuf (s : State) : (resetEvent s).ibuf = Memory.empty := rfl
@[simp] theorem resetEvent_eng (s : State) : (resetEvent s).eng = Engine.zero := rfl
@[simp] theorem resetEvent_mode (s : State) : (resetEvent s).mode = ModeRegs.zero := rfl
@[simp] theorem resetEvent_cfg (s : State) : (resetEvent s).cfg = s.cfg := rfl
@[simp] theorem resetEvent_hostIn (s : State) : (resetEvent s).hostIn = s.hostIn := rfl
@[simp] theorem resetEvent_rngIn (s : State) : (resetEvent s).rngIn = s.rngIn := rfl
@[simp] theorem resetEvent_scratchIn (s : State) : (resetEvent s).scratchIn = s.scratchIn := rfl

/-! `resetAbandoning` -/
@[simp] theorem resetAbandoning_key (h : BitVec 64) (p : Bytes) (n : Nat) (s : State) : (resetAbandoning h p n s).key = Vector.replicate 32 0 := rfl
@[simp] theorem resetAbandoning_klen (h : BitVec 64) (p : Bytes) (n : Nat) (s : State) : (resetAbandoning h p n s).klen = 0 := rfl
@[simp] theorem resetAbandoning_tweak (h : BitVec 64) (p : Bytes) (n : Nat) (s : State) : (resetAbandoning h p n s).tweak = Vector.replicate 16 0 := rfl
@[simp] theorem resetAbandoning_tlen (h : BitVec 64) (p : Bytes) (n : Nat) (s : State) : (resetAbandoning h p n s).tlen = 0 := rfl
@[simp] theorem resetAbandoning_blen (h : BitVec 64) (p : Bytes) (n : Nat) (s : State) : (resetAbandoning h p n s).blen = 0 := rfl
@[simp] theorem resetAbandoning_status (h : BitVec 64) (p : Bytes) (n : Nat) (s : State) : (resetAbandoning h p n s).status = statusOk 0 := rfl
@[simp] theorem resetAbandoning_obuf (h : BitVec 64) (p : Bytes) (n : Nat) (s : State) : (resetAbandoning h p n s).obuf = Memory.empty := rfl
@[simp] theorem resetAbandoning_ibuf (h : BitVec 64) (p : Bytes) (n : Nat) (s : State) : (resetAbandoning h p n s).ibuf = Memory.empty := rfl
@[simp] theorem resetAbandoning_eng (h : BitVec 64) (p : Bytes) (n : Nat) (s : State) : (resetAbandoning h p n s).eng = Engine.zero := rfl
@[simp] theorem resetAbandoning_mode (h : BitVec 64) (p : Bytes) (n : Nat) (s : State) : (resetAbandoning h p n s).mode = ModeRegs.zero := rfl
@[simp] theorem resetAbandoning_cfg (h : BitVec 64) (p : Bytes) (n : Nat) (s : State) : (resetAbandoning h p n s).cfg = s.cfg := rfl
@[simp] theorem resetAbandoning_hostIn (h : BitVec 64) (p : Bytes) (n : Nat) (s : State) : (resetAbandoning h p n s).hostIn = s.hostIn := rfl
@[simp] theorem resetAbandoning_rngIn (h : BitVec 64) (p : Bytes) (n : Nat) (s : State) : (resetAbandoning h p n s).rngIn = s.rngIn.drop (min n (answersTaken h p s).1) := rfl
@[simp] theorem resetAbandoning_scratchIn (h : BitVec 64) (p : Bytes) (n : Nat) (s : State) : (resetAbandoning h p n s).scratchIn = s.scratchIn.drop (min (n - (answersTaken h p s).1) (answersTaken h p s).2) := rfl

/-! `eraseKey` -/
@[simp] theorem eraseKey_key (s : State) : (eraseKey s).key = Vector.replicate 32 0 := rfl
@[simp] theorem eraseKey_klen (s : State) : (eraseKey s).klen = 0 := rfl
@[simp] theorem eraseKey_tweak (s : State) : (eraseKey s).tweak = s.tweak := rfl
@[simp] theorem eraseKey_tlen (s : State) : (eraseKey s).tlen = s.tlen := rfl
@[simp] theorem eraseKey_blen (s : State) : (eraseKey s).blen = s.blen := rfl
@[simp] theorem eraseKey_status (s : State) : (eraseKey s).status = s.status := rfl
@[simp] theorem eraseKey_obuf (s : State) : (eraseKey s).obuf = s.obuf := rfl
@[simp] theorem eraseKey_ibuf (s : State) : (eraseKey s).ibuf = s.ibuf := rfl
@[simp] theorem eraseKey_eng (s : State) : (eraseKey s).eng = s.eng := rfl
@[simp] theorem eraseKey_mode (s : State) : (eraseKey s).mode = s.mode := rfl
@[simp] theorem eraseKey_cfg (s : State) : (eraseKey s).cfg = s.cfg := rfl
@[simp] theorem eraseKey_hostIn (s : State) : (eraseKey s).hostIn = s.hostIn := rfl
@[simp] theorem eraseKey_rngIn (s : State) : (eraseKey s).rngIn = s.rngIn := rfl
@[simp] theorem eraseKey_scratchIn (s : State) : (eraseKey s).scratchIn = s.scratchIn := rfl

/-! `storeKey` -/
@[simp] theorem storeKey_key (kb : Bytes) (s : State) : (storeKey kb s).key = regOfBytes 32 kb := rfl
@[simp] theorem storeKey_klen (kb : Bytes) (s : State) : (storeKey kb s).klen = 32 := rfl
@[simp] theorem storeKey_tweak (kb : Bytes) (s : State) : (storeKey kb s).tweak = s.tweak := rfl
@[simp] theorem storeKey_tlen (kb : Bytes) (s : State) : (storeKey kb s).tlen = s.tlen := rfl
@[simp] theorem storeKey_blen (kb : Bytes) (s : State) : (storeKey kb s).blen = s.blen := rfl
@[simp] theorem storeKey_status (kb : Bytes) (s : State) : (storeKey kb s).status = s.status := rfl
@[simp] theorem storeKey_obuf (kb : Bytes) (s : State) : (storeKey kb s).obuf = s.obuf := rfl
@[simp] theorem storeKey_ibuf (kb : Bytes) (s : State) : (storeKey kb s).ibuf = s.ibuf := rfl
@[simp] theorem storeKey_eng (kb : Bytes) (s : State) : (storeKey kb s).eng = s.eng := rfl
@[simp] theorem storeKey_mode (kb : Bytes) (s : State) : (storeKey kb s).mode = s.mode := rfl
@[simp] theorem storeKey_cfg (kb : Bytes) (s : State) : (storeKey kb s).cfg = s.cfg := rfl
@[simp] theorem storeKey_hostIn (kb : Bytes) (s : State) : (storeKey kb s).hostIn = s.hostIn := rfl
@[simp] theorem storeKey_rngIn (kb : Bytes) (s : State) : (storeKey kb s).rngIn = s.rngIn := rfl
@[simp] theorem storeKey_scratchIn (kb : Bytes) (s : State) : (storeKey kb s).scratchIn = s.scratchIn := rfl

/-! `fixBlockLen` -/
@[simp] theorem fixBlockLen_key (s : State) : (fixBlockLen s).key = s.key := rfl
@[simp] theorem fixBlockLen_klen (s : State) : (fixBlockLen s).klen = s.klen := rfl
@[simp] theorem fixBlockLen_tweak (s : State) : (fixBlockLen s).tweak = s.tweak := rfl
@[simp] theorem fixBlockLen_tlen (s : State) : (fixBlockLen s).tlen = s.tlen := rfl
@[simp] theorem fixBlockLen_blen (s : State) : (fixBlockLen s).blen = s.klen := rfl
@[simp] theorem fixBlockLen_status (s : State) : (fixBlockLen s).status = s.status := rfl
@[simp] theorem fixBlockLen_obuf (s : State) : (fixBlockLen s).obuf = s.obuf := rfl
@[simp] theorem fixBlockLen_ibuf (s : State) : (fixBlockLen s).ibuf = s.ibuf := rfl
@[simp] theorem fixBlockLen_eng (s : State) : (fixBlockLen s).eng = s.eng := rfl
@[simp] theorem fixBlockLen_mode (s : State) : (fixBlockLen s).mode = s.mode := rfl
@[simp] theorem fixBlockLen_cfg (s : State) : (fixBlockLen s).cfg = s.cfg := rfl
@[simp] theorem fixBlockLen_hostIn (s : State) : (fixBlockLen s).hostIn = s.hostIn := rfl
@[simp] theorem fixBlockLen_rngIn (s : State) : (fixBlockLen s).rngIn = s.rngIn := rfl
@[simp] theorem fixBlockLen_scratchIn (s : State) : (fixBlockLen s).scratchIn = s.scratchIn := rfl

/-! `storeTweak` -/
@[simp] theorem storeTweak_key (tb : Bytes) (s : State) : (storeTweak tb s).key = s.key := rfl
@[simp] theorem storeTweak_klen (tb : Bytes) (s : State) : (storeTweak tb s).klen = s.klen := rfl
@[simp] theorem storeTweak_tweak (tb : Bytes) (s : State) : (storeTweak tb s).tweak = regOfBytes 16 tb := rfl
@[simp] theorem storeTweak_tlen (tb : Bytes) (s : State) : (storeTweak tb s).tlen = 16 := rfl
@[simp] theorem storeTweak_blen (tb : Bytes) (s : State) : (storeTweak tb s).blen = s.blen := rfl
@[simp] theorem storeTweak_status (tb : Bytes) (s : State) : (storeTweak tb s).status = s.status := rfl
@[simp] theorem storeTweak_obuf (tb : Bytes) (s : State) : (storeTweak tb s).obuf = s.obuf := rfl
@[simp] theorem storeTweak_ibuf (tb : Bytes) (s : State) : (storeTweak tb s).ibuf = s.ibuf := rfl
@[simp] theorem storeTweak_eng (tb : Bytes) (s : State) : (storeTweak tb s).eng = s.eng := rfl
@[simp] theorem storeTweak_mode (tb : Bytes) (s : State) : (storeTweak tb s).mode = s.mode := rfl
@[simp] theorem storeTweak_cfg (tb : Bytes) (s : State) : (storeTweak tb s).cfg = s.cfg := rfl
@[simp] theorem storeTweak_hostIn (tb : Bytes) (s : State) : (storeTweak tb s).hostIn = s.hostIn := rfl
@[simp] theorem storeTweak_rngIn (tb : Bytes) (s : State) : (storeTweak tb s).rngIn = s.rngIn := rfl
@[simp] theorem storeTweak_scratchIn (tb : Bytes) (s : State) : (storeTweak tb s).scratchIn = s.scratchIn := rfl

/-! `loadBlk` -/
@[simp] theorem loadBlk_key (b : Bytes) (s : State) : (loadBlk b s).key = s.key := rfl
@[simp] theorem loadBlk_klen (b : Bytes) (s : State) : (loadBlk b s).klen = s.klen := rfl
@[simp] theorem loadBlk_tweak (b : Bytes) (s : State) : (loadBlk b s).tweak = s.tweak := rfl
@[simp] theorem loadBlk_tlen (b : Bytes) (s : State) : (loadBlk b s).tlen = s.tlen := rfl
@[simp] theorem loadBlk_blen (b : Bytes) (s : State) : (loadBlk b s).blen = s.blen := rfl
@[simp] theorem loadBlk_status (b : Bytes) (s : State) : (loadBlk b s).status = s.status := rfl
@[simp] theorem loadBlk_obuf (b : Bytes) (s : State) : (loadBlk b s).obuf = s.obuf := rfl
@[simp] theorem loadBlk_ibuf (b : Bytes) (s : State) : (loadBlk b s).ibuf = s.ibuf := rfl
@[simp] theorem loadBlk_eng (b : Bytes) (s : State) : (loadBlk b s).eng = s.eng := rfl
@[simp] theorem loadBlk_mode (b : Bytes) (s : State) : (loadBlk b s).mode = { s.mode with blk := regOfBytes 32 b } := rfl
@[simp] theorem loadBlk_cfg (b : Bytes) (s : State) : (loadBlk b s).cfg = s.cfg := rfl
@[simp] theorem loadBlk_hostIn (b : Bytes) (s : State) : (loadBlk b s).hostIn = s.hostIn := rfl
@[simp] theorem loadBlk_rngIn (b : Bytes) (s : State) : (loadBlk b s).rngIn = s.rngIn := rfl
@[simp] theorem loadBlk_scratchIn (b : Bytes) (s : State) : (loadBlk b s).scratchIn = s.scratchIn := rfl

/-! `loadIvr` -/
@[simp] theorem loadIvr_key (b : Bytes) (s : State) : (loadIvr b s).key = s.key := rfl
@[simp] theorem loadIvr_klen (b : Bytes) (s : State) : (loadIvr b s).klen = s.klen := rfl
@[simp] theorem loadIvr_tweak (b : Bytes) (s : State) : (loadIvr b s).tweak = s.tweak := rfl
@[simp] theorem loadIvr_tlen (b : Bytes) (s : State) : (loadIvr b s).tlen = s.tlen := rfl
@[simp] theorem loadIvr_blen (b : Bytes) (s : State) : (loadIvr b s).blen = s.blen := rfl
@[simp] theorem loadIvr_status (b : Bytes) (s : State) : (loadIvr b s).status = s.status := rfl
@[simp] theorem loadIvr_obuf (b : Bytes) (s : State) : (loadIvr b s).obuf = s.obuf := rfl
@[simp] theorem loadIvr_ibuf (b : Bytes) (s : State) : (loadIvr b s).ibuf = s.ibuf := rfl
@[simp] theorem loadIvr_eng (b : Bytes) (s : State) : (loadIvr b s).eng = s.eng := rfl
@[simp] theorem loadIvr_mode (b : Bytes) (s : State) : (loadIvr b s).mode = { s.mode with ivr := regOfBytes 32 b } := rfl
@[simp] theorem loadIvr_cfg (b : Bytes) (s : State) : (loadIvr b s).cfg = s.cfg := rfl
@[simp] theorem loadIvr_hostIn (b : Bytes) (s : State) : (loadIvr b s).hostIn = s.hostIn := rfl
@[simp] theorem loadIvr_rngIn (b : Bytes) (s : State) : (loadIvr b s).rngIn = s.rngIn := rfl
@[simp] theorem loadIvr_scratchIn (b : Bytes) (s : State) : (loadIvr b s).scratchIn = s.scratchIn := rfl

/-! `loadChain` -/
@[simp] theorem loadChain_key (b : Bytes) (s : State) : (loadChain b s).key = s.key := rfl
@[simp] theorem loadChain_klen (b : Bytes) (s : State) : (loadChain b s).klen = s.klen := rfl
@[simp] theorem loadChain_tweak (b : Bytes) (s : State) : (loadChain b s).tweak = s.tweak := rfl
@[simp] theorem loadChain_tlen (b : Bytes) (s : State) : (loadChain b s).tlen = s.tlen := rfl
@[simp] theorem loadChain_blen (b : Bytes) (s : State) : (loadChain b s).blen = s.blen := rfl
@[simp] theorem loadChain_status (b : Bytes) (s : State) : (loadChain b s).status = s.status := rfl
@[simp] theorem loadChain_obuf (b : Bytes) (s : State) : (loadChain b s).obuf = s.obuf := rfl
@[simp] theorem loadChain_ibuf (b : Bytes) (s : State) : (loadChain b s).ibuf = s.ibuf := rfl
@[simp] theorem loadChain_eng (b : Bytes) (s : State) : (loadChain b s).eng = s.eng := rfl
@[simp] theorem loadChain_mode (b : Bytes) (s : State) : (loadChain b s).mode = { s.mode with chain := regOfBytes 32 b } := rfl
@[simp] theorem loadChain_cfg (b : Bytes) (s : State) : (loadChain b s).cfg = s.cfg := rfl
@[simp] theorem loadChain_hostIn (b : Bytes) (s : State) : (loadChain b s).hostIn = s.hostIn := rfl
@[simp] theorem loadChain_rngIn (b : Bytes) (s : State) : (loadChain b s).rngIn = s.rngIn := rfl
@[simp] theorem loadChain_scratchIn (b : Bytes) (s : State) : (loadChain b s).scratchIn = s.scratchIn := rfl

/-! `setI` -/
@[simp] theorem setI_key (n : Nat) (s : State) : (setI n s).key = s.key := rfl
@[simp] theorem setI_klen (n : Nat) (s : State) : (setI n s).klen = s.klen := rfl
@[simp] theorem setI_tweak (n : Nat) (s : State) : (setI n s).tweak = s.tweak := rfl
@[simp] theorem setI_tlen (n : Nat) (s : State) : (setI n s).tlen = s.tlen := rfl
@[simp] theorem setI_blen (n : Nat) (s : State) : (setI n s).blen = s.blen := rfl
@[simp] theorem setI_status (n : Nat) (s : State) : (setI n s).status = s.status := rfl
@[simp] theorem setI_obuf (n : Nat) (s : State) : (setI n s).obuf = s.obuf := rfl
@[simp] theorem setI_ibuf (n : Nat) (s : State) : (setI n s).ibuf = s.ibuf := rfl
@[simp] theorem setI_eng (n : Nat) (s : State) : (setI n s).eng = s.eng := rfl
@[simp] theorem setI_mode (n : Nat) (s : State) : (setI n s).mode = { s.mode with i := BitVec.ofNat 32 n } := rfl
@[simp] theorem setI_cfg (n : Nat) (s : State) : (setI n s).cfg = s.cfg := rfl
@[simp] theorem setI_hostIn (n : Nat) (s : State) : (setI n s).hostIn = s.hostIn := rfl
@[simp] theorem setI_rngIn (n : Nat) (s : State) : (setI n s).rngIn = s.rngIn := rfl
@[simp] theorem setI_scratchIn (n : Nat) (s : State) : (setI n s).scratchIn = s.scratchIn := rfl

/-! `pad` -/
@[simp] theorem pad_key (p : Bytes) (s : State) : (pad p s).key = s.key := rfl
@[simp] theorem pad_klen (p : Bytes) (s : State) : (pad p s).klen = s.klen := rfl
@[simp] theorem pad_tweak (p : Bytes) (s : State) : (pad p s).tweak = s.tweak := rfl
@[simp] theorem pad_tlen (p : Bytes) (s : State) : (pad p s).tlen = s.tlen := rfl
@[simp] theorem pad_blen (p : Bytes) (s : State) : (pad p s).blen = s.blen := rfl
@[simp] theorem pad_status (p : Bytes) (s : State) : (pad p s).status = s.status := rfl
@[simp] theorem pad_obuf (p : Bytes) (s : State) : (pad p s).obuf = s.obuf := rfl
@[simp] theorem pad_ibuf (p : Bytes) (s : State) : (pad p s).ibuf = s.ibuf := rfl
@[simp] theorem pad_eng (p : Bytes) (s : State) : (pad p s).eng = s.eng := rfl
@[simp] theorem pad_mode (p : Bytes) (s : State) : (pad p s).mode = 
    { s.mode with
      nb   := BitVec.ofNat 32 (padBlocks s.blen.toNat p.length)
      pbuf := Memory.ofBytes (p ++ zeros (s.blen.toNat * padBlocks s.blen.toNat p.length - p.length)) } := rfl
@[simp] theorem pad_cfg (p : Bytes) (s : State) : (pad p s).cfg = s.cfg := rfl
@[simp] theorem pad_hostIn (p : Bytes) (s : State) : (pad p s).hostIn = s.hostIn := rfl
@[simp] theorem pad_rngIn (p : Bytes) (s : State) : (pad p s).rngIn = s.rngIn := rfl
@[simp] theorem pad_scratchIn (p : Bytes) (s : State) : (pad p s).scratchIn = s.scratchIn := rfl

/-! `writeTrailer` -/
@[simp] theorem writeTrailer_key (n : Nat) (s : State) : (writeTrailer n s).key = s.key := rfl
@[simp] theorem writeTrailer_klen (n : Nat) (s : State) : (writeTrailer n s).klen = s.klen := rfl
@[simp] theorem writeTrailer_tweak (n : Nat) (s : State) : (writeTrailer n s).tweak = s.tweak := rfl
@[simp] theorem writeTrailer_tlen (n : Nat) (s : State) : (writeTrailer n s).tlen = s.tlen := rfl
@[simp] theorem writeTrailer_blen (n : Nat) (s : State) : (writeTrailer n s).blen = s.blen := rfl
@[simp] theorem writeTrailer_status (n : Nat) (s : State) : (writeTrailer n s).status = s.status := rfl
@[simp] theorem writeTrailer_obuf (n : Nat) (s : State) : (writeTrailer n s).obuf = s.obuf := rfl
@[simp] theorem writeTrailer_ibuf (n : Nat) (s : State) : (writeTrailer n s).ibuf = s.ibuf := rfl
@[simp] theorem writeTrailer_eng (n : Nat) (s : State) : (writeTrailer n s).eng = s.eng := rfl
@[simp] theorem writeTrailer_mode (n : Nat) (s : State) : (writeTrailer n s).mode = 
    { s.mode with pbuf := s.mode.pbuf.write (s.blen.toNat * s.mode.nb.toNat - 4) (trailerBytes n) } := rfl
@[simp] theorem writeTrailer_cfg (n : Nat) (s : State) : (writeTrailer n s).cfg = s.cfg := rfl
@[simp] theorem writeTrailer_hostIn (n : Nat) (s : State) : (writeTrailer n s).hostIn = s.hostIn := rfl
@[simp] theorem writeTrailer_rngIn (n : Nat) (s : State) : (writeTrailer n s).rngIn = s.rngIn := rfl
@[simp] theorem writeTrailer_scratchIn (n : Nat) (s : State) : (writeTrailer n s).scratchIn = s.scratchIn := rfl

/-! `openBody` -/
@[simp] theorem openBody_key (n : Nat) (s : State) : (openBody n s).key = s.key := rfl
@[simp] theorem openBody_klen (n : Nat) (s : State) : (openBody n s).klen = s.klen := rfl
@[simp] theorem openBody_tweak (n : Nat) (s : State) : (openBody n s).tweak = s.tweak := rfl
@[simp] theorem openBody_tlen (n : Nat) (s : State) : (openBody n s).tlen = s.tlen := rfl
@[simp] theorem openBody_blen (n : Nat) (s : State) : (openBody n s).blen = s.blen := rfl
@[simp] theorem openBody_status (n : Nat) (s : State) : (openBody n s).status = s.status := rfl
@[simp] theorem openBody_obuf (n : Nat) (s : State) : (openBody n s).obuf = s.obuf := rfl
@[simp] theorem openBody_ibuf (n : Nat) (s : State) : (openBody n s).ibuf = s.ibuf := rfl
@[simp] theorem openBody_eng (n : Nat) (s : State) : (openBody n s).eng = s.eng := rfl
@[simp] theorem openBody_mode (n : Nat) (s : State) : (openBody n s).mode = 
    { s.mode with nb := BitVec.ofNat 32 n, pbuf := Memory.blank (s.blen.toNat * n) } := rfl
@[simp] theorem openBody_cfg (n : Nat) (s : State) : (openBody n s).cfg = s.cfg := rfl
@[simp] theorem openBody_hostIn (n : Nat) (s : State) : (openBody n s).hostIn = s.hostIn := rfl
@[simp] theorem openBody_rngIn (n : Nat) (s : State) : (openBody n s).rngIn = s.rngIn := rfl
@[simp] theorem openBody_scratchIn (n : Nat) (s : State) : (openBody n s).scratchIn = s.scratchIn := rfl

end Sys2Proof.Machine
end

