-- ==== Sys2Proof/Laws/Commands.lean ====
section
/-! SUPPORT. What the shared operations of the commands can do, each said once: operands, block
operations, the loops of the mode controller, and the shape of what a command leaves behind. -/

namespace Sys2Proof.Machine

/-! Operands. -/

theorem operandL_eq_some (len : BitVec 32) (s : State) (h : s.ibuf.len = len.toNat) :
    operandL len s = some s.ibuf.bytes := by
  rw [operandL, Memory.read?_eq_some _ _ _ (by omega), Memory.bytes, h]

theorem operandL_length {len : BitVec 32} {s : State} {p : Bytes} (h : operandL len s = some p) :
    p.length = len.toNat := by
  simp only [operandL, Memory.read?] at h
  split at h
  · cases h
    simp
  · cases h

theorem operandX_eq_some (lena : BitVec 24) (len : BitVec 32) (s : State) (h : s.ibuf.len = len.toNat)
    (hl : lena.toNat ≤ len.toNat) :
    operandX lena len s = some (s.ibuf.bytes.take lena.toNat, s.ibuf.bytes.drop lena.toNat) := by
  simp only [operandX, Memory.read?_eq_some s.ibuf 0 lena.toNat (by omega),
    Memory.read?_eq_some s.ibuf lena.toNat (len.toNat - lena.toNat) (by omega)]
  rw [Memory.bytes, Memory.take_read _ _ _ _ (by omega), Memory.drop_read _ _ _ _ (by omega), h, Nat.zero_add]

theorem operandSized_eq_some (n a : Nat) (s : State) (h : a + n ≤ s.ibuf.len) :
    operandSized n a s = some (regOfBytes n (s.ibuf.read a n)) := by
  rw [operandSized, Memory.read?_eq_some _ _ _ h, Option.bind_some, sized_eq_some (by simp)]

theorem operandM_eq_some (s : State) (h : s.ibuf.len = 16) :
    operandM s = some (pairWords (regOfBytes 16 s.ibuf.bytes)) := by
  rw [operandM, operandSized_eq_some _ _ _ (by omega), Memory.bytes, h, Option.map_some]

theorem operandWords_eq_some (s : State) (h : s.ibuf.len = 32) :
    operandWords s = some (blockWords (regOfBytes 32 s.ibuf.bytes)) := by
  rw [operandWords, operandSized_eq_some _ _ _ (by omega), Memory.bytes, h, Option.map_some]

theorem operandKeyTweak_eq_some (s : State) (h : s.ibuf.len = 48) :
    operandKeyTweak s =
      some (regOfBytes 32 (s.ibuf.bytes.take 32), regOfBytes 16 (s.ibuf.bytes.drop 32)) := by
  rw [operandKeyTweak, operandSized_eq_some _ _ _ (by omega), operandSized_eq_some _ _ _ (by omega),
    Memory.bytes, h, Memory.take_read _ _ _ _ (by omega), Memory.drop_read _ _ _ _ (by omega)]

/-! The stored key and tweak. -/

theorem keyBytes_of_set (s : State) (h : s.klen = 32) : keyBytes s = s.key.toList := by
  rw [keyBytes, h]
  exact List.take_of_length_le (by simp)

theorem tweakBytes_of_set (s : State) (h : s.tlen = 16) : tweakBytes s = s.tweak.toList := by
  rw [tweakBytes, h]
  exact List.take_of_length_le (by simp)

theorem configured_of_set (s : State) (hk : s.klen = 32) (ht : s.tlen = 16) : configured s = true := by
  simp [configured, hk, ht]

/-! What differs only in scratch and in consumed answers. -/

/-- `s'` is `s` but for scratch elements and answers of the RNG and the scratch oracle that are gone. -/
def OnlyScratch (s s' : State) : Prop :=
  ∃ en mo r k, s' = { s with eng := en, mode := mo, rngIn := s.rngIn.drop r, scratchIn := s.scratchIn.drop k }

theorem OnlyScratch.refl (s : State) : OnlyScratch s s := ⟨s.eng, s.mode, 0, 0, rfl⟩

theorem OnlyScratch.trans {s s' s'' : State} (h : OnlyScratch s s') (h' : OnlyScratch s' s'') : OnlyScratch s s'' := by
  obtain ⟨_, _, r, k, rfl⟩ := h
  obtain ⟨en, mo, r', k', rfl⟩ := h'
  exact ⟨en, mo, r + r', k + k', by simp [List.drop_drop]⟩

theorem OnlyScratch.mode (s : State) (mo : ModeRegs) : OnlyScratch s { s with mode := mo } :=
  ⟨s.eng, mo, 0, 0, rfl⟩

theorem OnlyScratch.eng (s : State) (en : Engine) : OnlyScratch s { s with eng := en } :=
  ⟨en, s.mode, 0, 0, rfl⟩

theorem OnlyScratch.takeScratch (s : State) : OnlyScratch s (takeScratchAnswer s) :=
  ⟨s.eng, s.mode, 0, 1, by simp [takeScratchAnswer]⟩

/-! Block operations. -/

/-- The operands of a block operation under the stored key and tweak. -/
theorem blockOperands_set {p : Bytes} {s : State} (hk : s.klen = 32) (ht : s.tlen = 16) (hp : p.length = 32) :
    blockOperands p (keyBytes s) (tweakBytes s) 32 = some (regOfBytes 32 p, s.key, s.tweak) := by
  simp [blockOperands, keyBytes_of_set s hk, tweakBytes_of_set s ht, sized_eq_some hp, blockLen]

/-- Operands of the right sizes are themselves. -/
@[simp] theorem blockOperands_sized (p k : Vector Byte 32) (t : Vector Byte 16) :
    blockOperands p.toList k.toList t.toList 32 = some (p, k, t) := by
  simp [blockOperands, blockLen]

/-- Exactly the operands of other sizes are not admitted (rule R152). -/
theorem blockOperands_eq_none {p k t : Bytes} {n : Nat} :
    blockOperands p k t n = none ↔ ¬(p.length = 32 ∧ k.length = 32 ∧ t.length = 16 ∧ n = 32) := by
  by_cases hp : p.length = 32 <;> by_cases hk : k.length = 32 <;> by_cases ht : t.length = 16 <;>
    by_cases hn : n = 32 <;> simp [blockOperands, blockLen, sized, hp, hk, ht, hn]

/-- An admitted `EncryptBlock`: one oracle answer taken, the engine zeroized, the cipher's result. -/
theorem encryptBlock_admitted {p k t : Bytes} {p' k' : Vector Byte 32} {t' : Vector Byte 16} {n : Nat} {s : State}
    (hl : blockOperands p k t n = some (p', k', t')) (hs : scratchAnswer s = true) :
    encryptBlock p k t n s =
      (setEngine Engine.zero (takeScratchAnswer s), some (cipherEncrypt s.cfg.rot k' t' p')) := by
  simp only [encryptBlock, hl, hs, if_true]
  rw [runForward_result]
  rfl

theorem decryptBlock_admitted {c k t : Bytes} {c' k' : Vector Byte 32} {t' : Vector Byte 16} {n : Nat} {s : State}
    (hl : blockOperands c k t n = some (c', k', t')) (hs : scratchAnswer s = true) :
    decryptBlock c k t n s =
      (setEngine Engine.zero (takeScratchAnswer s), some (cipherDecrypt s.cfg.rot k' t' c')) := by
  simp only [decryptBlock, hl, hs, if_true]
  rw [runBackward_result]
  rfl

theorem encryptBlock_noScratch {p k t : Bytes} {n : Nat} {s : State} (hl : blockOperands p k t n ≠ none)
    (hs : scratchAnswer s = false) : encryptBlock p k t n s = (takeScratchAnswer s, none) := by
  obtain ⟨o, ho⟩ := Option.ne_none_iff_exists'.1 hl
  simp [encryptBlock, ho, hs]

theorem decryptBlock_noScratch {c k t : Bytes} {n : Nat} {s : State} (hl : blockOperands c k t n ≠ none)
    (hs : scratchAnswer s = false) : decryptBlock c k t n s = (takeScratchAnswer s, none) := by
  obtain ⟨o, ho⟩ := Option.ne_none_iff_exists'.1 hl
  simp [decryptBlock, ho, hs]

/-- Everything `EncryptBlock` can do. -/
theorem encryptBlock_cases (p k t : Bytes) (n : Nat) (s : State) :
    (∃ p' k' t', blockOperands p k t n = some (p', k', t') ∧ scratchAnswer s = true ∧
      encryptBlock p k t n s =
        (setEngine Engine.zero (takeScratchAnswer s), some (cipherEncrypt s.cfg.rot k' t' p')))
    ∨ (OnlyScratch s (encryptBlock p k t n s).1 ∧ (encryptBlock p k t n s).2 = none) := by
  cases hl : blockOperands p k t n with
  | none => exact .inr (by simp [encryptBlock, hl, OnlyScratch.refl])
  | some o =>
    have hn : blockOperands p k t n ≠ none := by simp [hl]
    cases hs : scratchAnswer s with
    | false => exact .inr (by simp [encryptBlock_noScratch hn hs, OnlyScratch.takeScratch])
    | true => exact .inl ⟨_, _, _, rfl, rfl, encryptBlock_admitted hl hs⟩

/-- Everything `DecryptBlock` can do. -/
theorem decryptBlock_cases (c k t : Bytes) (n : Nat) (s : State) :
    (∃ c' k' t', blockOperands c k t n = some (c', k', t') ∧ scratchAnswer s = true ∧
      decryptBlock c k t n s =
        (setEngine Engine.zero (takeScratchAnswer s), some (cipherDecrypt s.cfg.rot k' t' c')))
    ∨ (OnlyScratch s (decryptBlock c k t n s).1 ∧ (decryptBlock c k t n s).2 = none) := by
  cases hl : blockOperands c k t n with
  | none => exact .inr (by simp [decryptBlock, hl, OnlyScratch.refl])
  | some o =>
    have hn : blockOperands c k t n ≠ none := by simp [hl]
    cases hs : scratchAnswer s with
    | false => exact .inr (by simp [decryptBlock_noScratch hn hs, OnlyScratch.takeScratch])
    | true => exact .inl ⟨_, _, _, rfl, rfl, decryptBlock_admitted hl hs⟩

theorem encryptBlock_onlyScratch {p k t : Bytes} {n : Nat} {s s' : State} {o : Option Bytes}
    (h : encryptBlock p k t n s = (s', o)) : OnlyScratch s s' := by
  rcases encryptBlock_cases p k t n s with ⟨_, _, _, _, _, h'⟩ | h'
  · rw [h'] at h
    obtain ⟨rfl, -⟩ := Prod.mk.inj h
    exact (OnlyScratch.takeScratch s).trans (OnlyScratch.eng _ _)
  · rw [h] at h'
    exact h'.1

theorem decryptBlock_onlyScratch {c k t : Bytes} {n : Nat} {s s' : State} {o : Option Bytes}
    (h : decryptBlock c k t n s = (s', o)) : OnlyScratch s s' := by
  rcases decryptBlock_cases c k t n s with ⟨_, _, _, _, _, h'⟩ | h'
  · rw [h'] at h
    obtain ⟨rfl, -⟩ := Prod.mk.inj h
    exact (OnlyScratch.takeScratch s).trans (OnlyScratch.eng _ _)
  · rw [h] at h'
    exact h'.1

/-- A block operation leaves the mode controller's registers alone. -/
theorem encryptBlock_mode {p k t : Bytes} {n : Nat} {s s' : State} {o : Option Bytes}
    (h : encryptBlock p k t n s = (s', o)) : s'.mode = s.mode := by
  simp only [encryptBlock] at h
  split at h <;> [skip; split at h] <;> obtain ⟨rfl, -⟩ := Prod.mk.inj h <;> rfl

theorem decryptBlock_mode {c k t : Bytes} {n : Nat} {s s' : State} {o : Option Bytes}
    (h : decryptBlock c k t n s = (s', o)) : s'.mode = s.mode := by
  simp only [decryptBlock] at h
  split at h <;> [skip; split at h] <;> obtain ⟨rfl, -⟩ := Prod.mk.inj h <;> rfl

/-- The result of an admitted `EncryptBlock` has 32 bytes. -/
theorem encryptBlock_length {p k t c : Bytes} {n : Nat} {s s' : State}
    (h : encryptBlock p k t n s = (s', some c)) : c.length = 32 := by
  rcases encryptBlock_cases p k t n s with ⟨_, _, _, _, _, h'⟩ | h'
  · rw [h'] at h
    rw [← Option.some.inj (congrArg Prod.snd h)]
    simp
  · rw [h] at h'
    simp at h'

/-! The loops of the mode controller. -/

/-- Everything one turn of `cbce` can do. -/
theorem cbceTurn_spec {i : Nat} {s s' : State} {o : Option Bytes} (h : cbceTurn i s = (s', o)) :
    OnlyScratch s s' ∧ s'.mode.ivr = s.mode.ivr ∧ s'.mode.pbuf = s.mode.pbuf
    ∧ s'.mode.nb = s.mode.nb ∧ ∀ c, o = some c → c.length = 32 := by
  simp only [cbceTurn] at h
  split at h <;> rename_i heq <;> obtain ⟨rfl, rfl⟩ := Prod.mk.inj h <;>
    have h1 := encryptBlock_onlyScratch heq <;> have h2 := encryptBlock_mode heq <;>
    have h3 := ((OnlyScratch.mode _ _).trans (OnlyScratch.mode _ _)).trans h1
  · exact ⟨h3, by simp [h2], by simp [h2], by simp [h2], by simp⟩
  · refine ⟨h3.trans ((OnlyScratch.mode _ _).trans (OnlyScratch.mode _ _)), by simp [h2], by simp [h2], by simp [h2], ?_⟩
    intro c hc
    cases hc
    exact encryptBlock_length heq

/-- Everything the loop of `cbce` can do: scratch and oracle answers alone, `IVR` and `PBUF` kept, 32
bytes for each block. -/
theorem cbceLoop_spec {n i : Nat} {acc : Bytes} {s s' : State} {o : Option Bytes}
    (h : cbceLoop n i acc s = (s', o)) :
    OnlyScratch s s' ∧ s'.mode.ivr = s.mode.ivr ∧ s'.mode.pbuf = s.mode.pbuf
    ∧ s'.mode.nb = s.mode.nb ∧ ∀ cs, o = some cs → cs.length = acc.length + 32 * n := by
  induction n generalizing i acc s with
  | zero =>
    obtain ⟨rfl, rfl⟩ := Prod.mk.inj h
    refine ⟨OnlyScratch.refl s, rfl, rfl, rfl, ?_⟩
    intro cs hcs
    cases hcs
    rfl
  | succ n ih =>
    simp only [cbceLoop] at h
    split at h <;> rename_i heq <;> obtain ⟨h1, h2, h3, h4, h5⟩ := cbceTurn_spec heq
    · obtain ⟨rfl, rfl⟩ := Prod.mk.inj h
      exact ⟨h1, h2, h3, h4, by simp⟩
    · obtain ⟨g1, g2, g3, g4, g5⟩ := ih h
      refine ⟨h1.trans g1, g2.trans h2, g3.trans h3, g4.trans h4, fun cs hcs => ?_⟩
      rw [g5 cs hcs, List.length_append, h5 _ rfl]
      omega

theorem cbce_spec {s s' : State} {o : Option Bytes} (h : cbce s = (s', o)) :
    OnlyScratch s s' ∧ s'.mode.ivr = s.mode.ivr ∧ s'.mode.pbuf = s.mode.pbuf
    ∧ s'.mode.nb = s.mode.nb ∧ ∀ cs, o = some cs → cs.length = 32 * s.mode.nb.toNat := by
  obtain ⟨h1, h2, h3, h4, h5⟩ := cbceLoop_spec h
  exact ⟨(OnlyScratch.mode _ _).trans h1, h2, h3, h4, fun cs hcs => by simpa using h5 cs hcs⟩

/-- Everything one turn of `cbcd` can do. -/
theorem cbcdTurn_spec {i : Nat} {s s' : State} {b : Bool} (h : cbcdTurn i s = (s', b)) :
    OnlyScratch s s' ∧ s'.mode.pbuf.len = s.mode.pbuf.len
    ∧ (s.mode.pbuf.wf = true → s'.mode.pbuf.wf = true) := by
  simp only [cbcdTurn] at h
  split at h <;> rename_i heq <;> obtain ⟨rfl, rfl⟩ := Prod.mk.inj h <;>
    have h1 := decryptBlock_onlyScratch heq <;> have h2 := decryptBlock_mode heq <;>
    have h3 := ((OnlyScratch.mode _ _).trans (OnlyScratch.mode _ _)).trans h1
  · exact ⟨h3, by simp [h2], by simp [h2]⟩
  · refine ⟨h3.trans (((OnlyScratch.mode _ _).trans (OnlyScratch.mode _ _)).trans (OnlyScratch.mode _ _)),
      by simp [h2], fun hw => ?_⟩
    simpa [h2] using Memory.wf_write hw _ _

/-- Everything the loop of `cbcd` can do. -/
theorem cbcdLoop_spec {n i : Nat} {s s' : State} {b : Bool} (h : cbcdLoop n i s = (s', b)) :
    OnlyScratch s s' ∧ s'.mode.pbuf.len = s.mode.pbuf.len
    ∧ (s.mode.pbuf.wf = true → s'.mode.pbuf.wf = true) := by
  induction n generalizing i s with
  | zero =>
    obtain ⟨rfl, rfl⟩ := Prod.mk.inj h
    exact ⟨OnlyScratch.refl s, rfl, id⟩
  | succ n ih =>
    simp only [cbcdLoop] at h
    split at h <;> rename_i heq <;> obtain ⟨h1, h2, h3⟩ := cbcdTurn_spec heq
    · obtain ⟨rfl, rfl⟩ := Prod.mk.inj h
      exact ⟨h1, h2, h3⟩
    · obtain ⟨g1, g2, g3⟩ := ih h
      exact ⟨h1.trans g1, g2.trans h2, fun hw => g3 (h3 hw)⟩

theorem cbcd_spec {s s' : State} {b : Bool} (h : cbcd s = (s', b)) :
    OnlyScratch s s' ∧ s'.mode.pbuf.len = s.mode.pbuf.len
    ∧ (s.mode.pbuf.wf = true → s'.mode.pbuf.wf = true) := by
  obtain ⟨h1, h2, h3⟩ := cbcdLoop_spec h
  exact ⟨(OnlyScratch.mode _ _).trans h1, h2, h3⟩

/-- Everything `ivgen` can do: the RNG agent's first answer is taken, and 32 bytes go to `IVR`. -/
theorem ivgen_cases (s : State) :
    (s.rngIn = [] ∧ ivgen s = none)
    ∨ (∃ as, s.rngIn = .fail :: as ∧ ivgen s = some (false, { s with rngIn := as }))
    ∨ (∃ b as, s.rngIn = .bytes b :: as ∧
        ivgen s = some (true, { s with rngIn := as, mode := { s.mode with ivr := b } })) := by
  cases h : s.rngIn with
  | nil => exact .inl ⟨rfl, by simp [ivgen, rngRead, h]⟩
  | cons a as =>
    cases a with
    | fail => exact .inr (.inl ⟨as, rfl, by simp [ivgen, rngRead, h]⟩)
    | bytes b => exact .inr (.inr ⟨b, as, rfl, by simp [ivgen, rngRead, h]⟩)

theorem ivgen_onlyScratch {s s' : State} {b : Bool} (h : ivgen s = some (b, s')) : OnlyScratch s s' := by
  rcases ivgen_cases s with ⟨_, h'⟩ | ⟨as, hr, h'⟩ | ⟨v, as, hr, h'⟩ <;> rw [h'] at h
  · cases h
  · obtain ⟨-, rfl⟩ := Prod.mk.inj (Option.some.inj h)
    exact ⟨s.eng, s.mode, 1, 0, by simp [hr]⟩
  · obtain ⟨-, rfl⟩ := Prod.mk.inj (Option.some.inj h)
    exact ⟨s.eng, _, 1, 0, by simp [hr]; rfl⟩

theorem trdec_le {s : State} {l : Nat} (h : trdec s = some l) : l ≤ s.mode.pbuf.len := by
  simp only [trdec] at h
  split at h
  · cases h
  · rename_i hn
    simp only [not_or, Int.not_lt] at hn
    have := (Option.some.inj h)
    omega

/-! What a command leaves behind. -/

/-- What SETKEY may write besides the result (rule R35). -/
def KeyWritten (s s' : State) : Prop :=
  s' = fixBlockLen (eraseKey s) ∨ ∃ kb, kb.length = 32 ∧ s' = fixBlockLen (storeKey kb (eraseKey s))

/-- What SETTWEAK may write besides the result (rule R35). -/
def TweakWritten (s s' : State) : Prop := ∃ tb, tb.length = 16 ∧ s' = storeTweak tb s

/-- Everything a command can leave behind: a failure entry or a success completion, on a state that
differs from the one before only in scratch and consumed answers, or in the key or the tweak where the
command is SETKEY or SETTWEAK and succeeds. -/
theorem exec_shape {i : Instr} {s t : State} (h : exec i s = .next t) :
    (∃ r s1, r ≠ .none ∧ OnlyScratch s s1 ∧ t = raiseFail r s1)
    ∨ (∃ out s1, OnlyScratch s s1 ∧ t = succeed out s1)
    ∨ (∃ len s1, i = .setkey len ∧ KeyWritten s s1 ∧ t = succeed [] s1)
    ∨ (∃ len s1, i = .settweak len ∧ TweakWritten s s1 ∧ t = succeed [] s1) := by
  have hf : ∀ {r s1 t}, r ≠ .none → OnlyScratch s s1 → failWith r s1 = .next t →
      ∃ r s1, r ≠ .none ∧ OnlyScratch s s1 ∧ t = raiseFail r s1 := fun hr hs ht =>
    ⟨_, _, hr, hs, (Host.Outcome.next.inj ht).symm⟩
  have hs : ∀ {out s1 t}, OnlyScratch s s1 → succeedWith out s1 = .next t →
      ∃ out s1, OnlyScratch s s1 ∧ t = succeed out s1 := fun hs ht =>
    ⟨_, _, hs, (Host.Outcome.next.inj ht).symm⟩
  have h0 := OnlyScratch.refl s
  cases i with
  | setkey len =>
    simp only [exec, execSetkey] at h
    split at h
    · exact .inr (.inr (.inl ⟨len, _, rfl, .inl rfl, (Host.Outcome.next.inj h).symm⟩))
    · split at h
      · split at h
        · cases h
        · rename_i hop
          have hl := operandL_length hop
          rename_i hlen _ _
          rw [hlen] at hl
          exact .inr (.inr (.inl ⟨len, _, rfl, .inr ⟨_, hl, rfl⟩, (Host.Outcome.next.inj h).symm⟩))
      · exact .inl (hf (by decide) h0 h)
  | settweak len =>
    simp only [exec, execSettweak] at h
    split at h
    · split at h
      · cases h
      · rename_i hlen _ _ hop
        have hl := operandL_length hop
        rw [hlen] at hl
        exact .inr (.inr (.inr ⟨len, _, rfl, ⟨_, hl, rfl⟩, (Host.Outcome.next.inj h).symm⟩))
    · exact .inl (hf (by decide) h0 h)
  | xora lena len =>
    simp only [exec, execXora] at h
    split at h
    · exact .inl (hf (by decide) h0 h)
    · split at h
      · cases h
      · exact .inr (.inl (hs h0 h))
  | encb len =>
    simp only [exec, execEncb] at h
    split at h
    · exact .inl (hf (by decide) h0 h)
    · split at h
      · exact .inl (hf (by decide) h0 h)
      · split at h
        · cases h
        · rename_i p _
          have h1 : OnlyScratch s (loadBlk p s) := OnlyScratch.mode _ _
          split at h <;> rename_i heq <;> have h3 := h1.trans (encryptBlock_onlyScratch heq)
          · exact .inl (hf (by decide) h3 h)
          · exact .inr (.inl (hs (h3.trans (OnlyScratch.mode _ _)) h))
  | decb len =>
    simp only [exec, execDecb] at h
    split at h
    · exact .inl (hf (by decide) h0 h)
    · split at h
      · exact .inl (hf (by decide) h0 h)
      · split at h
        · cases h
        · rename_i p _
          have h1 : OnlyScratch s (loadBlk p s) := OnlyScratch.mode _ _
          split at h <;> rename_i heq <;> have h3 := h1.trans (decryptBlock_onlyScratch heq)
          · exact .inl (hf (by decide) h3 h)
          · exact .inr (.inl (hs (h3.trans (OnlyScratch.mode _ _)) h))
  | enc len =>
    simp only [exec, execEnc] at h
    split at h
    · exact .inl (hf (by decide) h0 h)
    · split at h
      · cases h
      · exact .inl (hf (by decide) (ivgen_onlyScratch (by assumption)) h)
      · rename_i s1 hb
        have h1 := ivgen_onlyScratch hb
        split at h
        · exact .inl (hf (by decide) h1 h)
        · split at h
          · cases h
          · rename_i p _
            have h2 : OnlyScratch s (writeTrailer p.length (pad p s1)) :=
              h1.trans ((OnlyScratch.mode _ _).trans (OnlyScratch.mode _ _))
            split at h <;> rename_i heq <;> have h3 := h2.trans (cbce_spec heq).1
            · exact .inl (hf (by decide) h3 h)
            · exact .inr (.inl (hs h3 h))
  | dec len =>
    simp only [exec, execDec] at h
    split at h
    · exact .inl (hf (by decide) h0 h)
    · split at h
      · exact .inl (hf (by decide) h0 h)
      · split at h
        · cases h
        · rename_i c _
          have h1 : OnlyScratch s (loadIvr (c.take s.blen.toNat) s) := OnlyScratch.mode _ _
          split at h
          · exact .inl (hf (by decide) h1 h)
          · split at h
            · exact .inl (hf (by decide) h1 h)
            · split at h <;> rename_i heq <;>
                have h3 := (h1.trans (OnlyScratch.mode _ _)).trans (cbcd_spec heq).1
              · exact .inl (hf (by decide) h3 h)
              · split at h
                · exact .inl (hf (by decide) h3 h)
                · exact .inr (.inl (hs h3 h))
  | mix row col len =>
    simp only [exec, execMix] at h
    split at h
    · exact .inl (hf (by decide) h0 h)
    · split at h
      · cases h
      · exact .inr (.inl (hs (OnlyScratch.eng _ _) h))
  | unmix row col len =>
    simp only [exec, execUnmix] at h
    split at h
    · exact .inl (hf (by decide) h0 h)
    · split at h
      · cases h
      · exact .inr (.inl (hs (OnlyScratch.eng _ _) h))
  | perm len =>
    simp only [exec, execPerm] at h
    split at h
    · exact .inl (hf (by decide) h0 h)
    · split at h
      · cases h
      · exact .inr (.inl (hs (OnlyScratch.eng _ _) h))
  | unperm len =>
    simp only [exec, execUnperm] at h
    split at h
    · exact .inl (hf (by decide) h0 h)
    · split at h
      · cases h
      · exact .inr (.inl (hs (OnlyScratch.eng _ _) h))
  | ksx len =>
    simp only [exec, execKsx] at h
    split at h
    · exact .inl (hf (by decide) h0 h)
    · split at h
      · cases h
      · exact .inr (.inl (hs (OnlyScratch.eng _ _) h))

/-! A presented command, and one that a reset abandons. -/

theorem runCommand_of_decode {h : BitVec 64} {i : Instr} (hd : decode h = .ok i) (p : Bytes) (s : State) :
    runCommand h p s = exec i (presentPayload (hdrLen h) p s) := by
  simp only [runCommand, runHeader, hd]

theorem runCommand_of_error {h : BitVec 64} {e : DecodeError} (hd : decode h = .error e) (p : Bytes) (s : State) :
    runCommand h p s = failWith .illegal (presentPayload (hdrLen h) p s) := by
  simp only [runCommand, runHeader, hd]

/-- Everything the reset of a command in execution can do: a prefix of the answers the complete command takes is
gone, the RNG's first, `answers` of them at most. -/
theorem resetAbandoning_cases (h : BitVec 64) (p : Bytes) (answers : Nat) (s : State) :
    ∃ r k, r + k ≤ answers ∧ r ≤ (answersTaken h p s).1 ∧ k ≤ (answersTaken h p s).2
      ∧ (k ≠ 0 → r = (answersTaken h p s).1)
      ∧ resetAbandoning h p answers s =
          resetEvent { s with rngIn := s.rngIn.drop r, scratchIn := s.scratchIn.drop k } :=
  ⟨_, _, by omega, by omega, by omega, by omega, rfl⟩

end Sys2Proof.Machine
end

