-- ==== Sys2Proof/Laws/PerInstr.lean ====
section
/-! SUPPORT. One lemma for each command: its header lies in its row of the opcode table, whatever its
fields (30_encoding.md rules R81 to R85). -/

namespace Sys2Proof.Laws

/-- A format L header under the format's mask is its opcode. -/
theorem packL_masked (o : Opcode) (len : BitVec 32) (h : o.format = .L) :
    packL o len &&& o.tableMask = o.tableMatch := by
  have hm : o.tableMask = 0#32 ++ 0xFFFFFFFF#32 := by rw [Opcode.tableMask, h]; rfl
  apply BitVec.eq_of_getLsbD_eq
  intro i hi
  rw [hm]
  simp only [packL, Opcode.tableMatch, BitVec.getLsbD_and, BitVec.getLsbD_append, BitVec.getLsbD_setWidth]
  by_cases h8 : i < 8
  · have : (0xFFFFFFFF#32).getLsbD i = true := by interval_cases i <;> rfl
    rw [if_pos h8, if_pos (by omega), this]
    simp [hi]
  · rw [if_neg h8, BitVec.getLsbD_of_ge o.byte i (by omega)]
    by_cases h32 : i < 32
    · rw [if_pos (by omega), if_pos h32]
      simp
    · rw [if_neg h32]
      simp

/-- A format X header under the format's mask is its opcode. -/
theorem packX_masked (o : Opcode) (lena : BitVec 24) (len : BitVec 32) (h : o.format = .X) :
    packX o lena len &&& o.tableMask = o.tableMatch := by
  have hm : o.tableMask = 0#56 ++ 0xFF#8 := by rw [Opcode.tableMask, h]; rfl
  apply BitVec.eq_of_getLsbD_eq
  intro i hi
  rw [hm]
  simp only [packX, Opcode.tableMatch, BitVec.getLsbD_and, BitVec.getLsbD_append, BitVec.getLsbD_setWidth]
  by_cases h8 : i < 8
  · have : (0xFF#8).getLsbD i = true := by interval_cases i <;> rfl
    rw [if_pos h8, if_pos h8, this]
    simp [hi]
  · rw [if_neg h8, if_neg h8, BitVec.getLsbD_of_ge o.byte i (by omega)]
    simp

/-- A format M header under the format's mask is its opcode. -/
theorem packM_masked (o : Opcode) (row : BitVec 3) (col : BitVec 1) (len : BitVec 32) (h : o.format = .M) :
    packM o row col len &&& o.tableMask = o.tableMatch := by
  have hm : o.tableMask = 0#32 ++ 0xFFFFF#20 ++ 0#4 ++ 0xFF#8 := by rw [Opcode.tableMask, h]; rfl
  apply BitVec.eq_of_getLsbD_eq
  intro i hi
  rw [hm]
  simp only [packM, Opcode.tableMatch, BitVec.getLsbD_and, BitVec.getLsbD_append, BitVec.getLsbD_setWidth]
  by_cases h8 : i < 8
  · have : (0xFF#8).getLsbD i = true := by interval_cases i <;> rfl
    rw [if_pos h8, if_pos h8, this]
    simp [hi]
  · rw [if_neg h8, if_neg h8, BitVec.getLsbD_of_ge o.byte i (by omega)]
    by_cases h12 : i < 12
    · rw [if_pos (by omega : i - 8 < 4)]
      simp
    · rw [if_neg (by omega : ¬ i - 8 < 3), if_neg (by omega : ¬ i - 8 - 3 < 1), if_neg (by omega : ¬ i - 8 < 4)]
      by_cases h32 : i < 32
      · rw [if_pos (by omega)]
        simp
      · rw [if_neg (by omega : ¬ i - 8 - 4 < 20)]
        simp

/-- The header of a command, under its row's mask, is its row's match (rule R85). -/
def TableRow.Statement (i : Instr) : Prop := encode i &&& i.opcode.tableMask = i.opcode.tableMatch

theorem TableRow.setkey (len : BitVec 32) : TableRow.Statement (.setkey len) := packL_masked _ _ rfl

theorem TableRow.settweak (len : BitVec 32) : TableRow.Statement (.settweak len) := packL_masked _ _ rfl

theorem TableRow.xora (lena : BitVec 24) (len : BitVec 32) : TableRow.Statement (.xora lena len) :=
  packX_masked _ _ _ rfl

theorem TableRow.encb (len : BitVec 32) : TableRow.Statement (.encb len) := packL_masked _ _ rfl

theorem TableRow.decb (len : BitVec 32) : TableRow.Statement (.decb len) := packL_masked _ _ rfl

theorem TableRow.enc (len : BitVec 32) : TableRow.Statement (.enc len) := packL_masked _ _ rfl

theorem TableRow.dec (len : BitVec 32) : TableRow.Statement (.dec len) := packL_masked _ _ rfl

theorem TableRow.mix (row : BitVec 3) (col : BitVec 1) (len : BitVec 32) :
    TableRow.Statement (.mix row col len) := packM_masked _ _ _ _ rfl

theorem TableRow.unmix (row : BitVec 3) (col : BitVec 1) (len : BitVec 32) :
    TableRow.Statement (.unmix row col len) := packM_masked _ _ _ _ rfl

theorem TableRow.perm (len : BitVec 32) : TableRow.Statement (.perm len) := packL_masked _ _ rfl

theorem TableRow.unperm (len : BitVec 32) : TableRow.Statement (.unperm len) := packL_masked _ _ rfl

theorem TableRow.ksx (len : BitVec 32) : TableRow.Statement (.ksx len) := packL_masked _ _ rfl

end Sys2Proof.Laws
end

