-- ==== Sys2Proof/Tests/Slice0.lean ====
section
/-! SUPPORT. The tests: the checks of WellFormed, the decoder on words written out from the spec, one or
two vectors of 95_test_vectors.md for each command, and for every statement with hypotheses a concrete
case that meets them. The expected values are the spec's own; ciphertext bytes rest on the default `ROT`. -/

namespace Sys2Proof.Tests

set_option Elab.async false

open Sys2Proof Sys2Proof.Machine

/-! ## Helpers -/

/-- The `n` bytes a hexadecimal byte string of the spec writes, first byte first (rule R5). -/
def hex (n v : Nat) : Bytes := (List.range n).map fun i => BitVec.ofNat 8 (v / 256 ^ (n - 1 - i))

/-- Constants of 95_test_vectors.md: `K1`, `TD`, `IV0`, `IV1`, `DUCK`. -/
def k1 : Bytes := hex 32 0x101112131415161718191A1B1C1D1E1F202122232425262728292A2B2C2D2E2F
def td : Bytes := hex 16 0x37363534333231306665646362613938
def iv0 : Bytes := hex 32 0xA0A1A2A3A4A5A6A7A8A9AAABACADAEAFB0B1B2B3B4B5B6B7B8B9BABBBCBDBEBF
def iv1 : Bytes := hex 32 0xC0C1C2C3C4C5C6C7C8C9CACBCCCDCECFD0D1D2D3D4D5D6D7D8D9DADBDCDDDEDF
def duck : Bytes :=
  hex 60 0x5468652070696E6B206475636B20766973697465642074686520536F617020517565656E2E2041206861707079206D6F6D656E7420696E646565642E

/-- The machine after `SETKEY K1`, `SETTWEAK TD`, with an RNG that answers `IV0`. -/
def ready : State :=
  { State.reset with
    key := regOfBytes 32 k1, klen := 32, blen := 32, tweak := regOfBytes 16 td, tlen := 16
    rngIn := [.bytes (regOfBytes 32 iv0)] }

/-- HOST presents one command. -/
def give (h : Nat) (p : Bytes) (s : State) : State := { s with hostIn := [.command (BitVec.ofNat 64 h) p] }

/-- The payload stands in `IBUF`. -/
def load (p : Bytes) (s : State) : State := { s with ibuf := Memory.ofBytes p }

/-- The state a step leads to, if it leads to one. -/
def nextOf : Host.Outcome State Fault Refusal → Option State
  | .next t => some t
  | _       => none

/-- What holds of a computed next state holds of the next state. -/
theorem next_of_any {o : Host.Outcome State Fault Refusal} {p : State → Bool}
    (h : (nextOf o).any p = true) : ∃ t, o = .next t ∧ p t = true := by
  cases o with
  | next t => exact ⟨t, rfl, h⟩
  | fault f => cases h
  | refused r => cases h

/-- The response as the spec writes it: `STATUS`, and the bytes of `OBUF` read as one hexadecimal number. -/
def responseIs (status obuf : Nat) (t : State) : Bool :=
  t.status.toNat == status && leValue t.obuf.bytes.reverse == obuf

/-- A command with header `h` and payload `p` leads to the response. -/
def responds (h : Nat) (p : Bytes) (s : State) (status obuf : Nat) : Bool :=
  (nextOf (step (give h p s))).any (responseIs status obuf)

/-! ## WellFormed: one ill-formed command for each check (rules R86, R87; T104 to T107) -/

theorem test_check_xora : (Instr.xora 3 2).check = some .lenaAboveLen := by decide
theorem test_check_mix : (Instr.mix 0 0 15).check = some .wrongLen ∧ (Instr.unmix 0 0 17).check = some .wrongLen := by
  decide
theorem test_check_perm : (Instr.perm 31).check = some .wrongLen ∧ (Instr.unperm 33).check = some .wrongLen := by
  decide
theorem test_check_ksx : (Instr.ksx 32).check = some .wrongLen := by decide
theorem test_check_wellformed :
    (Instr.xora 3 3).WF ∧ (Instr.mix 7 1 16).WF ∧ (Instr.perm 32).WF ∧ (Instr.ksx 48).WF ∧ (Instr.setkey 16).WF := by
  decide

/-! ## Decode: words written out in 95_test_vectors.md, sections 2.2 to 2.11 -/

theorem test_decode_management :
    decode 0x0000002000000001 = .ok (.setkey 32) ∧ decode 0x0000001000000002 = .ok (.settweak 16)
    ∧ decode 0x0000000800000303 = .ok (.xora 3 8) ∧ decode 0x0000004000002003 = .ok (.xora 32 64) := by
  decide
theorem test_decode_blocks :
    decode 0x0000002000000010 = .ok (.encb 32) ∧ decode 0x0000002000000011 = .ok (.decb 32)
    ∧ decode 0x0000001F00000010 = .ok (.encb 31) := by
  decide
theorem test_decode_messages :
    decode 0x0000003C00000018 = .ok (.enc 60) ∧ decode 0x0007A12000000018 = .ok (.enc 500000)
    ∧ decode 0x0000008000000019 = .ok (.dec 128) ∧ decode 0x8000000000000018 = .ok (.enc 0x80000000) := by
  decide
theorem test_decode_diagnostics :
    decode 0x0000001000000F20 = .ok (.mix 7 1 16) ∧ decode 0x0000001000000D20 = .ok (.mix 5 1 16)
    ∧ decode 0x0000001000000C20 = .ok (.mix 4 1 16) ∧ decode 0x0000001000000321 = .ok (.unmix 3 0 16)
    ∧ decode 0x0000002000000022 = .ok (.perm 32) ∧ decode 0x0000002000000023 = .ok (.unperm 32)
    ∧ decode 0x0000003000000024 = .ok (.ksx 48) := by
  decide
/-- The bytes sent of T26, T94, T98 (rule R80: little-endian). -/
theorem test_decode_bytes :
    decodeBytes (hex 8 0x2000000010000000) = .ok (.mix 0 0 16, [])
    ∧ decodeBytes (hex 8 0x180000003C000000 ++ [1, 2]) = .ok (.enc 60, [1, 2])
    ∧ encodeBytes (.mix 5 1 16) = hex 8 0x200D000010000000 ∧ commandBytes 0x0000003C00000018 = 68 := by
  decide
theorem test_decode_truncated : decodeBytes (hex 7 0x20000000100000) = .error .truncated := by decide
/-- T99 to T103. -/
theorem test_decode_illegal :
    decode 0x0000000000000000 = .error (.unknownOpcode 0) ∧ decode 0x0000000000000004 = .error (.unknownOpcode 4)
    ∧ decode 0x00000000000000FF = .error (.unknownOpcode 0xFF) ∧ decode 0x0000000000000118 = .error .reservedBits
    ∧ decode 0x0000001000001020 = .error .reservedBits := by
  decide
/-- No header lies in two rows of the opcode table: the opcode byte is in every row's mask and no two rows
share it. -/
theorem test_rows_disjoint :
    Opcode.all.Pairwise (fun o o' => o.byte ≠ o'.byte) ∧ (∀ o ∈ Opcode.all, o.tableMask &&& 0xFF = 0xFF) := by
  decide
theorem test_opcodes_complete : Opcode.all.length = 12 ∧ ∀ b : Byte, (Opcode.ofByte b).isSome =
    decide (b ∈ [0x01#8, 0x02, 0x03, 0x10, 0x11, 0x18, 0x19, 0x20, 0x21, 0x22, 0x23, 0x24]) := by
  decide +kernel

/-! ## Commands: vectors of 95_test_vectors.md -/

/-- T80. -/
theorem test_setkey : (nextOf (step (give 0x0000002000000001 k1 State.reset))).any (fun t =>
    responseIs 1 0 t && t.klen == 32 && t.blen == 32 && t.key.toList == k1) = true := by decide +kernel
/-- T81, T82. -/
theorem test_setkey_erase_reject :
    (nextOf (step (give 0x0000000000000001 [] ready))).any (fun t =>
      responseIs 1 0 t && t.klen == 0 && t.blen == 0 && t.key.toList == zeros 32) = true
    ∧ (nextOf (step (give 0x0000001000000001 (zeros 16) ready))).any (fun t =>
      responseIs 2 0 t && t.klen == 32 && t.key.toList == k1) = true := by decide +kernel
/-- T83. -/
theorem test_settweak : (nextOf (step (give 0x0000001000000002 td State.reset))).any (fun t =>
    responseIs 1 0 t && t.tlen == 16 && t.tweak.toList == td) = true := by decide +kernel
/-- T84. -/
theorem test_settweak_reject : (nextOf (step (give 0x0000000F00000002 (zeros 15) ready))).any (fun t =>
    responseIs 2 0 t && t.tlen == 16 && t.tweak.toList == td) = true := by decide +kernel
/-- T50 as a command. -/
theorem test_xora : responds 0x0000000800000303 (hex 8 0xFF0FAA0F0F557788) State.reset
    0x0000000300000001 0xF000FF = true := by decide +kernel
/-- T107. -/
theorem test_xora_illegal : responds 0x0000000200000303 [1, 2] State.reset 0xE 0 = true := by decide +kernel
/-- T42. -/
theorem test_encb : responds 0x0000002000000010 (zeros 32) ready 0x0000002000000001
    0x30AB5CE4A747FD72746B6E4C95F7AA8C4B1FB3ED1E4F67DF758DD50DA625AEB9 = true := by decide +kernel
/-- T85, T87, T88, T91. -/
theorem test_encb_failures :
    responds 0x0000002000000010 (zeros 32) State.reset 0x2 0 = true
    ∧ responds 0x0000001F00000010 (zeros 31) ready 0xC 0 = true
    ∧ responds 0x0000002000000010 (zeros 32) { ready with scratchIn := [false] } 0x4 0 = true
    ∧ responds 0x0000000000000010 [] State.reset 0x2 0 = true := by decide +kernel
/-- T46. -/
theorem test_decb : responds 0x0000002000000011 (zeros 32) ready 0x0000002000000001
    0x82EE36D20D8F7754E5E4DA775CE261841608E19328262370BEFF62E81B8A196B = true := by decide +kernel
/-- T87: 64 bytes. -/
theorem test_decb_argument : responds 0x0000004000000011 (zeros 64) ready 0xC 0 = true := by decide +kernel
/-- T61: three chained blocks. -/
theorem test_enc : responds 0x0000003C00000018 duck ready 0x0000008000000001
    0xA0A1A2A3A4A5A6A7A8A9AAABACADAEAFB0B1B2B3B4B5B6B7B8B9BABBBCBDBEBFE659A9FF42D0F79AF7A7642E2CA0263C06A8D9E1B4475793563E8C06E72B4430E0D6AE3046EFD8568781E1537291C7582B91458D297D29411B0C54111065FF6BF8E0BFC08BF5EC8BFA0FCE7AEB1C1849D188DE261D65EA76C955A3B07B4E4AEF = true := by
  decide +kernel
/-- T85, T88, T89, T90. -/
theorem test_enc_failures :
    responds 0x0000000100000018 [0x31] State.reset 0x2 0 = true
    ∧ responds 0x0000000000000018 [] { ready with scratchIn := [false] } 0x4 0 = true
    ∧ responds 0x0000000100000018 [0x31] { ready with rngIn := [.fail] } 0x8 0 = true
    ∧ responds 0x8000000000000018 [] ready 0xA 0 = true := by decide +kernel
/-- T67: `L = A`, the inclusive upper bound; a wrong block order or chain value changes the 64 bytes. -/
theorem test_dec : responds 0x0000006000000019
    (iv0 ++ hex 32 0xD9E2C258C324FD5787F1D82E48CDDDD201904BE3058800DF5CD592375748D1F3
      ++ hex 32 0xD199B33BC1BB797DD84E2F217FEDA1BECFEC1D7032E4ACA0517225A0318AA0CC) ready
    0x0000004000000001 0x40000000 = true := by decide +kernel
/-- T70, T71, T74, T76. -/
theorem test_dec_failures :
    responds 0x0000001F00000019 (zeros 31) ready 0x6 0 = true
    ∧ responds 0x0000002000000019 (zeros 32) ready 0x6 0 = true
    ∧ responds 0x0000004000000019
      (iv0 ++ hex 32 0x6E23E3693698EAB18C2B91634E870E8106F7B3ED32485F29D54531BA33AA6622) ready 0x6 0 = true
    ∧ responds 0x0000006000000019
      (iv0 ++ hex 32 0xD9E2C258C324FD5787F1D82E48CDDDD201904BE3058800DF5CD592375748D1F3
        ++ hex 32 0x6DAFCD2733D34BFECD195A83D2A13CC06893D425A3B32C3D72656B08230948D9) ready 0x6 0 = true := by
  decide +kernel
/-- T27 (T16). -/
theorem test_mix : responds 0x0000001000000F20 (hex 16 0xEFCDAB89674523011032547698BADCFE) State.reset
    0x0000001000000001 0xFFFFFFFFFFFFFFFF67452301EFCDAB89 = true := by decide +kernel
/-- T29: row 4, column 1; T104. -/
theorem test_mix_row_col :
    responds 0x0000001000000C20 (hex 16 0x0000000000000000231AFCA9DA1BD11B) State.reset
      0x0000001000000001 0x231AFCA9DA1BD11B962D5E9E9C2F2948 = true
    ∧ responds 0x0000000F00000020 (zeros 15) State.reset 0xE 0 = true := by decide +kernel
/-- T28. -/
theorem test_unmix : responds 0x0000001000000021 (hex 16 0x01000000000000000140000000000000) State.reset
    0x0000001000000001 0x00000000000000000100000000000000 = true := by decide +kernel
/-- T25: row 6, column 0, the difference wraps. -/
theorem test_unmix_wraps : responds 0x0000001000000621 (hex 16 0x01000000000000000000000000000000) State.reset
    0x0000001000000001 0xC1FFFFFFFFFFFFFF4000000000000000 = true := by decide +kernel
/-- T37. -/
theorem test_perm : responds 0x0000002000000022
    (hex 32 0x0A000000000000000B000000000000000C000000000000000D00000000000000) State.reset 0x0000002000000001
    0x0A000000000000000D000000000000000C000000000000000B00000000000000 = true := by decide +kernel
/-- T38. -/
theorem test_unperm : responds 0x0000002000000023
    (hex 32 0x0A000000000000000B000000000000000C000000000000000D00000000000000) State.reset 0x0000002000000001
    0x0A000000000000000D000000000000000C000000000000000B00000000000000 = true := by decide +kernel
/-- T33: bytes 0 to 63 and the last 32 bytes. -/
theorem test_ksx : (nextOf (step (give 0x0000003000000024 (k1 ++ hex 16 0x000102030405060708090A0B0C0D0E0F)
    State.reset))).any (fun t => t.status.toNat == 0x000002A000000001
      && t.obuf.read 0 64 == hex 64 0x101112131415161718191A1B1C1D1E1F202122232425262728292A2B2C2D2E2F221AFCA9DA1BD11B000102030405060708090A0B0C0D0E0F0808080808080808
      && t.obuf.read 640 32 == hex 32 0x28292A2B2C2D2E2F221BFEACDE20D722181A1C1E202224262A191A1B1C1D1E1F
      && decide (t.eng = Engine.zero)) = true := by decide +kernel
/-- T33, `KSX zeros(48)`: bytes 96 to 127; T106. -/
theorem test_ksx_zero : (nextOf (step (give 0x0000003000000024 (zeros 48) State.reset))).any (fun t =>
      t.obuf.read 96 32 == hex 32 0x000000000000000000000000000000000000000000000000231AFCA9DA1BD11B) = true
    ∧ responds 0x0000002000000024 (zeros 32) State.reset 0xE 0 = true := by decide +kernel
/-- T99, T101 to T103: illegal headers, `ILLEGAL` before `CONFIG`. -/
theorem test_illegal :
    responds 0 [] ready 0xE 0 = true ∧ responds 0xFF [] ready 0xE 0 = true
    ∧ responds 0x118 [] State.reset 0xE 0 = true ∧ responds 0x0000001000001020 (zeros 16) ready 0xE 0 = true := by
  decide +kernel

/-! ## The chain registers (rule R31) and abandoned commands (rules R64, R260) -/

/-- T42, T46: one turn on a zero chain value and a zero block leaves the block the engine returned in `BLK`; after a
turn of DEC `CHAIN` holds the raw ciphertext block. -/
theorem test_blk_after_a_turn :
    let s := { load (zeros 64) ready with mode := { ModeRegs.zero with pbuf := Memory.blank 32 } }
    let t := (cbceTurn 0 s).1
    let u := (cbcdTurn 0 s).1
    t.mode.blk.toList = hex 32 0x30AB5CE4A747FD72746B6E4C95F7AA8C4B1FB3ED1E4F67DF758DD50DA625AEB9
    ∧ t.mode.chain = t.mode.blk
    ∧ u.mode.blk.toList = hex 32 0x82EE36D20D8F7754E5E4DA775CE261841608E19328262370BEFF62E81B8A196B
    ∧ u.mode.chain.toList = zeros 32 := by decide +kernel

/-- A reset abandons a command: a SETKEY, a DEC and an ENC without a key take no RNG answer; a configured ENC takes
none or one, and one that waits for the RNG none. -/
theorem test_abandoned_command :
    let after := fun (e : HostEvent) (s : State) => (nextOf (step { s with hostIn := [e] })).map fun t => t.rngIn.length
    after (.resetDuring 0x0000002000000001 k1 9) ready = some 1
    ∧ after (.resetDuring 0x0000004000000019 (zeros 64) 9) ready = some 1
    ∧ after (.resetDuring 0x18 [] 9) { ready with klen := 0 } = some 1
    ∧ after (.resetDuring 0x18 [] 0) ready = some 1
    ∧ after (.resetDuring 0x18 [] 9) { ready with rngIn := [.fail, .fail] } = some 1
    ∧ after (.resetDuring 0x18 [] 9) { ready with rngIn := [] } = some 0 := by decide +kernel

/-! ## Witnesses: for each statement with hypotheses a case that meets them, for each clause at a boundary -/

/-- `exec` answers a next state in which `p` holds. -/
def runs (i : Instr) (s : State) (p : State → Bool) : Bool := (nextOf (exec i s)).any p

theorem ready_ready : Ready ready := ⟨rfl, rfl, rfl⟩

theorem ready_invariant : Invariant ready where
  klen     := .inr rfl
  key      := by decide
  tlen     := .inr rfl
  tweak    := by decide
  blen     := rfl
  response := ⟨by decide, by decide, by decide, by decide⟩
  obuf     := by decide
  ibuf     := by decide
  scratch  := ⟨rfl, rfl⟩

theorem witness_EncodeOfDecode : decode 0x0000003C00000018 = .ok (.enc 60) := by decide

theorem witness_StepRunsTheDecodedCommand :
    (give 0x0000002000000001 k1 State.reset).hostIn = [.command 0x0000002000000001 k1]
    ∧ decode 0x0000002000000001 = .ok (.setkey 32) ∧ k1.length = (Instr.setkey 32).len.toNat := by decide

/-- Each way a header is illegal, at a value next to a legal one (rule R87). -/
theorem witness_IllegalHeaderFails :
    HeaderIllegal 0x04 ∧ HeaderIllegal 0x118 ∧ HeaderIllegal 0x0000001000001020
    ∧ HeaderIllegal 0x0000000200000303 ∧ HeaderIllegal 0x0000000F00000020 ∧ HeaderIllegal 0x0000001100000021
    ∧ HeaderIllegal 0x0000001F00000022 ∧ HeaderIllegal 0x0000002100000023 ∧ HeaderIllegal 0x0000002F00000024 := by
  simp only [HeaderIllegal]; and_intros <;> decide

theorem witness_LegalHeaderIsNotIllegal :
    ¬ HeaderIllegal 0x0000001F00000010
    ∧ ∃ t, step (give 0x0000001F00000010 (zeros 31) ready) = .next t ∧ responseIs 0xC 0 t = true :=
  ⟨by simp only [HeaderIllegal]; decide, next_of_any (by decide +kernel)⟩

/-- For every opcode of formats L and M a header with its opcode byte and its lowest reserved bit 1. -/
theorem witness_ReservedBitFails : ∀ o ∈ Opcode.all, o ≠ .xora → ∃ h,
    h = o.byte.setWidth 64 ||| (if o.format = .M then 0x1000 else 0x100) ∧ hdrOp h = o.byte
    ∧ h &&& o.tableMask ≠ o.tableMatch := by
  intro o _ hx
  refine ⟨_, rfl, ?_⟩
  revert hx
  cases o <;> decide

/-- Nothing, a reset, and a reset while an ENC executes that runs to its end when it is not abandoned. -/
theorem witness_IdleAndResetEvents :
    ready.hostIn = [] ∧ { ready with hostIn := [.reset] }.hostIn = [.reset]
    ∧ { ready with hostIn := [.resetDuring 0x18 [] 1] }.hostIn = [.resetDuring 0x18 [] 1]
    ∧ ∃ t, step (give 0x18 [] ready) = .next t ∧ okFlag t.status = true :=
  ⟨rfl, rfl, rfl, next_of_any (by decide +kernel)⟩

theorem witness_StepKeepsInvariant : Invariant ready ∧ ∃ t, step ready = .next t ∧ t.klen == 32 :=
  ⟨ready_invariant, ready, rfl, rfl⟩

/-- Both alternatives: an answer, and the wait. -/
theorem witness_EveryStepAnswersOrWaitsForTheRng :
    Invariant ready ∧ configured ready = true ∧ { ready with rngIn := [] }.rngIn = []
    ∧ decode 0x18 = .ok (.enc 0) := ⟨ready_invariant, by decide, rfl, by decide⟩

/-- A success and a failure. -/
theorem witness_CommandEndsInSuccessOrFailure : Invariant (give 0x0000002000000010 (zeros 32) ready)
    ∧ (∃ t, step (give 0x0000002000000010 (zeros 32) ready) = .next t ∧ okFlag t.status = true)
    ∧ (∃ t, step (give 0x0000001F00000010 (zeros 31) ready) = .next t ∧ okFlag t.status = false) := by
  refine ⟨?_, next_of_any (by decide +kernel), ?_⟩
  · exact { ready_invariant with }
  · obtain ⟨t, h1, h2⟩ := next_of_any (o := step (give 0x0000001F00000010 (zeros 31) ready))
      (p := fun t => !okFlag t.status) (by decide +kernel)
    exact ⟨t, h1, by simpa using h2⟩

theorem witness_ScratchIsZeroAtCompletion :
    (∃ t, exec (.encb 32) (load (zeros 32) ready) = .next t ∧ okFlag t.status = true)
    ∧ (∃ t, exec (.dec 0) ready = .next t ∧ (reasonField t.status == 3) = true) :=
  ⟨next_of_any (by decide +kernel), next_of_any (by decide +kernel)⟩

/-- A command that is not SETKEY, and one that is not SETTWEAK. -/
theorem witness_OnlySetkeyAndSettweakWriteConfiguration :
    (∃ t, exec (.settweak 16) (load td State.reset) = .next t ∧ (t.tlen == 16) = true)
    ∧ (∃ t, exec (.setkey 32) (load k1 State.reset) = .next t ∧ (t.klen == 32) = true) :=
  ⟨next_of_any (by decide +kernel), next_of_any (by decide +kernel)⟩

/-- An ENC that is configured, one that is not, another command. -/
theorem witness_OneRngRequestPerConfiguredEnc :
    (configured ready = true ∧ ∃ t, exec (.enc 0) ready = .next t ∧ (t.rngIn == []) = true)
    ∧ (configured State.reset = false ∧ ∃ t, exec (.enc 0) State.reset = .next t ∧ (t.klen == 0) = true)
    ∧ (∃ t, exec (.dec 0) ready = .next t ∧ (t.klen == 32) = true) :=
  ⟨⟨by decide, next_of_any (by decide +kernel)⟩, ⟨by decide, next_of_any (by decide +kernel)⟩,
    next_of_any (by decide +kernel)⟩

/-- A failure after the RNG request and one before it. -/
theorem witness_FailureLeavesNoTrace :
    (∃ t, exec (.enc 0) { ready with scratchIn := [false] } = .next t ∧ (!okFlag t.status) = true)
    ∧ (∃ t, exec (.setkey 16) (load (zeros 16) ready) = .next t ∧ (!okFlag t.status) = true) :=
  ⟨next_of_any (by decide +kernel), next_of_any (by decide +kernel)⟩

theorem witness_OnlyTabledFailures : ∃ t, exec (.xora 3 2) State.reset = .next t ∧ responseIs 0xE 0 t = true :=
  next_of_any (by decide +kernel)

theorem witness_TweakStaysSetUntilReset :
    ready.tlen = 16 ∧ ∃ t, step (give 0x0000000000000002 [] ready) = .next t ∧ responseIs 2 0 t = true :=
  ⟨rfl, next_of_any (by decide +kernel)⟩

/-- Two states with the same configuration and another status, result and scratch. -/
theorem witness_ResultDependsOnConfigurationAlone :
    let s := load (zeros 32) ready
    let s' := { s with status := 0xE, obuf := Memory.ofBytes [1], eng := { Engine.zero with d := 5 } }
    s'.key = s.key ∧ s'.klen = s.klen ∧ s'.tweak = s.tweak ∧ s'.tlen = s.tlen ∧ s'.blen = s.blen
    ∧ s'.ibuf = s.ibuf ∧ s'.cfg = s.cfg ∧ s'.rngIn = s.rngIn ∧ s'.scratchIn = s.scratchIn
    ∧ ∃ t, exec (.encb 32) s = .next t ∧ okFlag t.status = true :=
  ⟨rfl, rfl, rfl, rfl, rfl, rfl, rfl, rfl, rfl, next_of_any (by decide +kernel)⟩

/-- Two states with different keys, for the first and the last of the commands. -/
theorem witness_DiagnosticsIgnoreTheStoredKey :
    (Instr.xora 1 2).opcode ∈ [Opcode.xora, .mix, .unmix, .perm, .unperm, .ksx]
    ∧ (Instr.ksx 48).opcode ∈ [Opcode.xora, .mix, .unmix, .perm, .unperm, .ksx]
    ∧ (load [1, 2] ready).ibuf = (load [1, 2] State.reset).ibuf ∧ (load [1, 2] ready).cfg = (load [1, 2] State.reset).cfg
    ∧ ∃ t, exec (.xora 1 2) (load [1, 2] State.reset) = .next t ∧ okFlag t.status = true :=
  ⟨by decide, by decide, rfl, rfl, next_of_any (by decide +kernel)⟩

/-- The three clauses of SETKEY, at 32, 0, 31 and 33 bytes. -/
theorem witness_SetkeyStoresErasesOrRejects :
    (load k1 ready).ibuf.len = (32 : BitVec 32).toNat ∧ (load [] ready).ibuf.len = (0 : BitVec 32).toNat
    ∧ (load (zeros 31) ready).ibuf.len = (31 : BitVec 32).toNat
    ∧ (load (zeros 33) ready).ibuf.len = (33 : BitVec 32).toNat := by decide

theorem witness_SettweakStoresOrRejects :
    (load td ready).ibuf.len = (16 : BitVec 32).toNat ∧ (load (zeros 15) ready).ibuf.len = (15 : BitVec 32).toNat
    ∧ (load (zeros 17) ready).ibuf.len = (17 : BitVec 32).toNat ∧ (load [] ready).ibuf.len = (0 : BitVec 32).toNat := by
  decide

/-- `LENA = 0`, `LENA = LEN`, `LENA = LEN + 1`. -/
theorem witness_XoraReturnsTheXor :
    (load [1, 2] ready).ibuf.len = (2 : BitVec 32).toNat ∧ (0 : BitVec 24).toNat ≤ (2 : BitVec 32).toNat
    ∧ (2 : BitVec 24).toNat ≤ (2 : BitVec 32).toNat ∧ ¬ (3 : BitVec 24).toNat ≤ (2 : BitVec 32).toNat := by decide

theorem witness_XorIsElementwise :
    2 < min (hex 3 0xFF0FAA).length (hex 5 0x0F0F557788).length
    ∧ (hex 3 0xFF0FAA).length ≤ (hex 5 0x0F0F557788).length := by decide

/-- Both orders. -/
theorem witness_SetkeyAndSettweakMakeReady :
    decode 0x0000002000000001 = .ok (.setkey 32) ∧ decode 0x0000001000000002 = .ok (.settweak 16)
    ∧ { State.reset with hostIn := [.command 0x0000002000000001 k1, .command 0x0000001000000002 td] }.hostIn
      = [.command 0x0000002000000001 k1, .command 0x0000001000000002 td]
    ∧ { State.reset with hostIn := [.command 0x0000001000000002 td, .command 0x0000002000000001 k1] }.hostIn
      = [.command 0x0000001000000002 td, .command 0x0000002000000001 k1] := ⟨by decide, by decide, rfl, rfl⟩

theorem witness_CodecLaws : (hex 8 0x0102030405060708).length % 8 = 0 ∧ td.length = td.length := by decide

/-- T2 and T5: the last word, its last byte. -/
theorem witness_WordByteOrder :
    1 < (hex 19 0x000102030405060708090A0B0C0D0E0F101112).length / 8 ∧ 7 < 8
    ∧ 1 < [0x0123456789ABCDEF#64, 0xFFFFFFFFFFFFFF00#64].length := by decide

theorem witness_ArithmeticLaws : 63 < 64 := by decide
theorem witness_PermutationFollowsTable : 3 < 4 := by decide
theorem witness_SubkeyInjectionIsInvertible : 3 < 4 := by decide
/-- A key and itself: the schedules are equal. -/
theorem witness_DistinctKeysGiveDistinctSchedules :
    (Engine.zero.expand (regOfBytes 32 k1) (regOfBytes 16 td)).sk
      = (Engine.zero.expand (regOfBytes 32 k1) (regOfBytes 16 td)).sk := rfl

/-- `LEN = 16` and its neighbours, for the four corners of the table. -/
theorem witness_MixReturnsTheMix :
    (load (zeros 16) ready).ibuf.len = (16 : BitVec 32).toNat ∧ (load (zeros 15) ready).ibuf.len = (15 : BitVec 32).toNat
    ∧ runs (.mix 0 0 16) (load (zeros 16) ready) (fun t => okFlag t.status)
    ∧ runs (.mix 7 1 16) (load (zeros 16) ready) (fun t => okFlag t.status) := by decide +kernel
theorem witness_UnmixReturnsTheUnmix :
    (load (zeros 16) ready).ibuf.len = (16 : BitVec 32).toNat ∧ (load (zeros 17) ready).ibuf.len = (17 : BitVec 32).toNat
    ∧ runs (.unmix 7 0 16) (load (zeros 16) ready) (fun t => okFlag t.status)
    ∧ runs (.unmix 0 1 16) (load (zeros 16) ready) (fun t => okFlag t.status) := by decide +kernel
theorem witness_PermAndUnpermExchangeGroups :
    (load (zeros 32) ready).ibuf.len = (32 : BitVec 32).toNat ∧ (load (zeros 31) ready).ibuf.len = (31 : BitVec 32).toNat := by
  decide
theorem witness_KsxReturnsTheSchedule :
    (load (zeros 48) ready).ibuf.len = (48 : BitVec 32).toNat ∧ (load (zeros 32) ready).ibuf.len = (32 : BitVec 32).toNat
    ∧ 18 < 19 := by decide

/-- Admitted, and not admitted for each of the five conditions. -/
theorem witness_BlockOperationsRunTheRounds :
    ready.scratchIn.headD true = true
    ∧ ¬ (zeros 31).length = 32 ∧ ¬ td.length = 32 ∧ ¬ k1.length = 16 ∧ ¬ 0 = 32
    ∧ ¬ { ready with scratchIn := [false] }.scratchIn.headD true = true := by decide

theorem witness_BlockOperationsAreInverse :
    (zeros 32).length = 32 ∧ k1.length = 32 ∧ td.length = 16 ∧ State.reset.cfg.rot = ready.cfg.rot
    ∧ ready.scratchIn.headD true = true ∧ State.reset.scratchIn.headD true = true := by decide

/-- Each clause: key unset, tweak unset, a wrong length, the scratch refused, the block. -/
theorem witness_BlockCommandsReturnTheBlock :
    State.reset.klen = 0 ∧ { ready with tlen := 0 }.tlen = 0
    ∧ (ready.klen ≠ 0 ∧ ready.tlen ≠ 0 ∧ (31 : BitVec 32) ≠ 32 ∧ (33 : BitVec 32) ≠ 32)
    ∧ (Ready (load (zeros 32) ready) ∧ (load (zeros 32) ready).ibuf.len = 32
      ∧ (load (zeros 32) ready).scratchIn.headD true = true)
    ∧ (Ready (load (zeros 32) { ready with scratchIn := [false] })
      ∧ (load (zeros 32) { ready with scratchIn := [false] }).ibuf.len = 32
      ∧ ¬ (load (zeros 32) { ready with scratchIn := [false] }).scratchIn.headD true = true) :=
  ⟨rfl, rfl, by decide, ⟨⟨rfl, rfl, rfl⟩, rfl, rfl⟩, ⟨rfl, rfl, rfl⟩, rfl, by decide⟩

theorem witness_BlockCommandsRoundTrip :
    Ready (load (zeros 32) ready) ∧ (load (zeros 32) ready).ibuf.len = 32 ∧ (load (zeros 32) ready).ibuf.wf = true
    ∧ (∃ t, exec (.encb 32) (load (zeros 32) ready) = .next t
        ∧ (okFlag t.status && t.scratchIn.headD true) = true)
    ∧ (∃ t, exec (.decb 32) (load (zeros 32) ready) = .next t
        ∧ (okFlag t.status && t.scratchIn.headD true) = true) :=
  ⟨⟨rfl, rfl, rfl⟩, rfl, by decide, next_of_any (by decide +kernel), next_of_any (by decide +kernel)⟩

/-- T55: `n = 0`, `n = 60`. -/
theorem witness_PaddedBufferLayout :
    ready.blen = 32 ∧ ([] : Bytes).length ≤ 2 ^ 31 - 1 ∧ duck.length ≤ 2 ^ 31 - 1
    ∧ paddedPlain [] = zeros 32 ∧ paddedPlain duck = duck ++ zeros 32 ++ hex 4 0x3C000000 := by decide +kernel
/-- T54, T56. -/
theorem witness_TrailerIsSignedLittleEndian :
    2 ^ 31 - 1 ≤ 2 ^ 31 - 1 ∧ trailerBytes (2 ^ 31 - 1) = hex 4 0xFFFFFF7F
    ∧ trailerValue (hex 4 0xFFFFFFFF) = -1 ∧ trailerValue (hex 4 0x00000080) = -2 ^ 31 := by decide +kernel
theorem witness_TrailerIsTopOfLastWord : k1.length = 32 := by decide

/-- The first and the last of two blocks, with the function that changes nothing for `D`. -/
theorem witness_CiphertextChangeIsLocal :
    let d : Bytes → Bytes := fun b => (b ++ zeros 32).take 32
    (∀ b, (d b).length = 32) ∧ (∀ b ∈ [k1, iv0], b.length = 32) ∧ iv1.length = 32
    ∧ 0 < [k1, iv0].length ∧ 1 < [k1, iv0].length ∧ 0 + 1 < [k1, iv0].length :=
  ⟨fun b => by simp [zeros], by decide, by decide, by decide, by decide, by decide⟩

/-- The empty plaintext and one longer than a block. -/
theorem witness_EncReturnsTheChainedCiphertext :
    Ready ready ∧ ready.ibuf.len = (0 : BitVec 32).toNat ∧ (load duck ready).ibuf.len = (60 : BitVec 32).toNat
    ∧ (60 : BitVec 32).toNat ≤ 2 ^ 31 - 1 ∧ ready.rngIn = [.bytes (regOfBytes 32 iv0)]
    ∧ ScratchOk (((60 : BitVec 32).toNat + 31) / 32 + 1) ready :=
  ⟨ready_ready, rfl, rfl, by decide, rfl, by unfold ScratchOk; decide⟩

/-- Each clause: unset, RNG failure, the first length that is too long, the last block refused. -/
theorem witness_EncFailures :
    State.reset.klen = 0
    ∧ (ready.klen ≠ 0 ∧ ready.tlen ≠ 0 ∧ { ready with rngIn := [.fail] }.rngIn = [.fail])
    ∧ (2 ^ 31 - 1 < (0x80000000 : BitVec 32).toNat ∧ ready.rngIn = [.bytes (regOfBytes 32 iv0)])
    ∧ (let s := load duck { ready with scratchIn := [true, true, false] }
      Ready s ∧ s.ibuf.len = (60 : BitVec 32).toNat ∧ (60 : BitVec 32).toNat ≤ 2 ^ 31 - 1
      ∧ 2 < ((60 : BitVec 32).toNat + 31) / 32 + 1 ∧ ScratchOk 2 s ∧ s.scratchIn[2]? = some false) :=
  ⟨rfl, ⟨by decide, by decide, rfl⟩, ⟨by decide, rfl⟩, ⟨rfl, rfl, rfl⟩, rfl, by decide, by decide,
    by unfold ScratchOk; decide, rfl⟩

theorem witness_EncWaitsForTheRng :
    configured { ready with rngIn := [] } = true ∧ { ready with rngIn := [] }.rngIn = [] := by decide

theorem witness_EncResultLength :
    Invariant ready ∧ ready.ibuf.len = (0 : BitVec 32).toNat
    ∧ ∃ t, exec (.enc 0) ready = .next t ∧ okFlag t.status = true :=
  ⟨ready_invariant, rfl, next_of_any (by decide +kernel)⟩

theorem witness_DistinctIvsGiveDistinctCiphertexts :
    regOfBytes 32 iv0 ≠ regOfBytes 32 iv1
    ∧ (∃ t, exec (.enc 0) { ready with rngIn := [.bytes (regOfBytes 32 iv0)] } = .next t ∧ okFlag t.status = true)
    ∧ (∃ t, exec (.enc 0) { ready with rngIn := [.bytes (regOfBytes 32 iv1)] } = .next t ∧ okFlag t.status = true) :=
  ⟨by decide, next_of_any (by decide +kernel), next_of_any (by decide +kernel)⟩

/-- One block, and each branch: T60 read backwards (`L = 0`), T73 (`L = 32`, the upper bound), T72 (`L = 33`). -/
theorem witness_DecReturnsTheUnchainedPrefix :
    let good := load (iv0 ++ hex 32 0xD9E2C258C324FD5787F1D82E48CDDDD201904BE3058800DF5CD592375748D1F3) ready
    let top := load (iv0 ++ hex 32 0x565409BA3C18E75257A3E0B236AFC199B1DA94948D73413B4C930B0BAA9A78C8) ready
    let bad := load (iv0 ++ hex 32 0x7EF8147D48DE3A0A448AECC0DD0EFA17C77ADA542529629C5C211AA0C392F07F) ready
    Ready good ∧ good.ibuf.len = (64 : BitVec 32).toNat ∧ (64 : BitVec 32).toNat = 32 * (1 + 1) ∧ ScratchOk 1 good
    ∧ trailerValue ((messageAssemble (storedDecrypt good) good.ibuf.bytes).drop 28) = 0
    ∧ trailerValue ((messageAssemble (storedDecrypt top) top.ibuf.bytes).drop 28) = 32
    ∧ trailerValue ((messageAssemble (storedDecrypt bad) bad.ibuf.bytes).drop 28) = 33 :=
  ⟨⟨rfl, rfl, rfl⟩, by decide, by decide, by unfold ScratchOk; decide, by decide +kernel, by decide +kernel,
    by decide +kernel⟩

/-- Both settings, with no whole block and one trailing byte, and with one block and 31 trailing bytes. -/
theorem witness_DecPartialTail :
    let s := load (zeros 33) ready
    let s' := load (zeros 95) { ready with cfg := { ready.cfg with decPartialTail := .ignore } }
    (Ready s ∧ s.ibuf.len = (33 : BitVec 32).toNat ∧ (33 : BitVec 32).toNat = 32 * (0 + 1) + 1
      ∧ s.cfg.decPartialTail = .reject)
    ∧ (Ready s' ∧ s'.ibuf.len = (95 : BitVec 32).toNat ∧ (95 : BitVec 32).toNat = 32 * (1 + 1) + 31
      ∧ s'.cfg.decPartialTail = .ignore
      ∧ ∃ t, exec (.dec (BitVec.ofNat 32 (32 * (1 + 1)))) { s' with ibuf := Memory.ofBytes (s'.ibuf.bytes.take 64) }
        = .next t ∧ (t.klen == 32) = true) :=
  ⟨⟨⟨rfl, rfl, rfl⟩, rfl, rfl, rfl⟩, ⟨rfl, rfl, rfl⟩, rfl, rfl, rfl, next_of_any (by decide +kernel)⟩

/-- Each clause: unset, 31 bytes, 32 bytes, the second block refused. -/
theorem witness_DecFailures :
    State.reset.tlen = 0 ∧ (Ready ready ∧ (31 : BitVec 32).toNat < 32) ∧ (load (zeros 32) ready).ibuf.len = 32
    ∧ (let s := load (zeros 96) { ready with scratchIn := [true, false] }
      Ready s ∧ s.ibuf.len = (96 : BitVec 32).toNat ∧ (96 : BitVec 32).toNat = 32 * (2 + 1) ∧ 1 < 2
      ∧ ScratchOk 1 s ∧ s.scratchIn[1]? = some false) :=
  ⟨rfl, ⟨ready_ready, by decide⟩, rfl, ⟨rfl, rfl, rfl⟩, rfl, rfl, by decide, by unfold ScratchOk; decide, rfl⟩

/-- The empty plaintext. -/
theorem witness_MessageRoundTrip :
    Ready ready ∧ ready.ibuf.len = (0 : BitVec 32).toNat ∧ ready.ibuf.wf = true
    ∧ ∃ t, exec (.enc 0) ready = .next t ∧ okFlag t.status = true ∧ ScratchOk (((0 : BitVec 32).toNat + 31) / 32 + 1) t := by
  refine ⟨ready_ready, rfl, by decide, ?_⟩
  obtain ⟨t, h1, h2⟩ := next_of_any (o := exec (.enc 0) ready)
    (p := fun t => okFlag t.status && t.scratchIn == []) (by decide +kernel)
  simp only [Bool.and_eq_true, beq_iff_eq] at h2
  exact ⟨t, h1, h2.1, by rw [ScratchOk, h2.2]; decide⟩

/-- What HOST presents, and what a reset abandons, is an ENC of a configured machine. -/
theorem witness_OnlyAConfiguredEncUsesTheRngPort :
    (∃ t, step (give 0x18 [] ready) = .next t ∧ (t.rngIn == []) = true)
    ∧ (∃ t, step { ready with hostIn := [.resetDuring 0x18 [] 1] } = .next t ∧ (t.rngIn == []) = true) :=
  ⟨next_of_any (by decide +kernel), next_of_any (by decide +kernel)⟩

/-- One turn of each loop, the last block of a buffer of one block. -/
theorem witness_ChainRegistersAfterATurn :
    let s := { load (zeros 64) ready with mode := { ModeRegs.zero with pbuf := Memory.blank 32 } }
    s.blen = 32 ∧ s.mode.pbuf.wf = true ∧ 32 * 0 + 32 ≤ s.mode.pbuf.len
    ∧ (cbceTurn 0 s).2.isSome = true ∧ (cbcdTurn 0 s).2 = true :=
  ⟨rfl, by decide, by decide, by decide +kernel, by decide +kernel⟩

end Sys2Proof.Tests
end

section
/-! What a completed command leaves keeps the invariant (10_state.md rules R25 to R28, R33; 30_encoding.md
rule R84): the persistent part on its own, the bound on a result's length, and the step. -/

namespace Sys2Proof.Machine

/-- The part of the invariant that a command may rely on: the configuration and the payload. -/
structure PersistentLegal (s : State) : Prop where
  klen  : s.klen = 0 ∨ s.klen = 32
  key   : s.klen = 0 → s.key = Vector.replicate 32 0
  tlen  : s.tlen = 0 ∨ s.tlen = 16
  tweak : s.tlen = 0 → s.tweak = Vector.replicate 16 0
  blen  : s.blen = s.klen
  ibuf  : s.ibuf.wf = true

theorem Invariant.persistentLegal {s : State} (h : Invariant s) : PersistentLegal s := { h with }

theorem PersistentLegal.blen_of_configured {s : State} (h : PersistentLegal s) (hc : configured s = true) :
    s.blen = 32 := by
  have hk : s.klen ≠ 0 := by
    intro h0
    simp [configured, h0] at hc
  rw [h.blen]
  exact h.klen.resolve_left hk

theorem PersistentLegal.onlyScratch {s s' : State} (h : PersistentLegal s) (hs : OnlyScratch s s') :
    PersistentLegal s' := by
  obtain ⟨_, _, _, _, rfl⟩ := hs
  exact { h with }

theorem PersistentLegal.keyWritten {s s' : State} (h : PersistentLegal s) (hs : KeyWritten s s') :
    PersistentLegal s' := by
  rcases hs with rfl | ⟨kb, -, rfl⟩
  · exact ⟨.inl rfl, fun _ => rfl, h.tlen, h.tweak, rfl, h.ibuf⟩
  · exact ⟨.inr rfl, fun h0 => absurd h0 (by simp), h.tlen, h.tweak, rfl, h.ibuf⟩

theorem PersistentLegal.tweakWritten {s s' : State} (h : PersistentLegal s) (hs : TweakWritten s s') :
    PersistentLegal s' := by
  obtain ⟨tb, -, rfl⟩ := hs
  exact ⟨h.klen, h.key, .inr rfl, fun h0 => absurd h0 (by simp), h.blen, h.ibuf⟩

theorem PersistentLegal.presentPayload {s : State} (h : PersistentLegal s) (len : BitVec 32) (p : Bytes) :
    PersistentLegal (presentPayload len p s) :=
  { h with ibuf := presented_wf len p s }

/-! The response of a completion. -/

theorem Reason.code_ne_zero {r : Reason} (h : r ≠ .none) : r.code ≠ 0 := by
  cases r
  case none => exact absurd rfl h
  all_goals decide

theorem invariant_raiseFail {s : State} {r : Reason} (h : PersistentLegal s) (hr : r ≠ .none) :
    Invariant (raiseFail r s) :=
  { h with
    response := by simpa [ResponseShape, statusFail] using Reason.code_ne_zero hr
    obuf := Memory.wf_empty
    scratch := ⟨rfl, rfl⟩ }

theorem invariant_succeed {s : State} {out : Bytes} (h : PersistentLegal s) (hl : out.length < 2 ^ 32) :
    Invariant (succeed out s) :=
  { h with
    response := by simpa [ResponseShape, statusOk, Reason.code] using hl
    obuf := Memory.wf_ofBytes hl
    scratch := ⟨rfl, rfl⟩ }

/-! No result is longer than `RLEN` can say (rule R28). -/

/-- Where the outcome is a next state, its result has fewer than `2^32` bytes. -/
def ResultFits (o : Host.Outcome State Fault Refusal) : Prop := ∀ t, o = .next t → t.obuf.len < 2 ^ 32

theorem ResultFits.fault (f : Fault) : ResultFits (.fault f) := fun _ h => by cases h

theorem ResultFits.failWith (r : Reason) (s : State) : ResultFits (failWith r s) := by
  rintro t ⟨⟩
  simp

theorem ResultFits.succeedWith {out : Bytes} (s : State) (h : out.length < 2 ^ 32) :
    ResultFits (succeedWith out s) := by
  rintro t ⟨⟩
  simpa using h

theorem decryptBlock_length {c k t p : Bytes} {n : Nat} {s s' : State}
    (h : decryptBlock c k t n s = (s', some p)) : p.length = 32 := by
  rcases decryptBlock_cases c k t n s with ⟨_, _, _, _, _, h'⟩ | ⟨-, h'⟩
  · rw [h'] at h
    rw [← Option.some.inj (congrArg Prod.snd h)]
    simp
  · simp [h] at h'

theorem execSetkey_fits (len : BitVec 32) (s : State) : ResultFits (execSetkey len s) := by
  unfold execSetkey
  split
  · exact .succeedWith _ (by simp)
  · split
    · split
      · exact .fault _
      · exact .succeedWith _ (by simp)
    · exact .failWith _ _

theorem execSettweak_fits (len : BitVec 32) (s : State) : ResultFits (execSettweak len s) := by
  unfold execSettweak
  split
  · split
    · exact .fault _
    · exact .succeedWith _ (by simp)
  · exact .failWith _ _

theorem operandX_length {lena : BitVec 24} {len : BitVec 32} {s : State} {a b : Bytes}
    (h : operandX lena len s = some (a, b)) : a.length = lena.toNat := by
  simp only [operandX, Memory.read?] at h
  split at h
  · rename_i ha _
    obtain ⟨rfl, rfl⟩ := Prod.mk.inj (Option.some.inj h)
    split at ha
    · rw [← Option.some.inj ha, Memory.read_length]
    · cases ha
  · cases h

theorem execXora_fits (lena : BitVec 24) (len : BitVec 32) (s : State) : ResultFits (execXora lena len s) := by
  unfold execXora
  split
  · exact .failWith _ _
  · split
    · exact .fault _
    · rename_i a b hop
      have ha := operandX_length hop
      have := lena.isLt
      exact .succeedWith _ (by rw [xorBytes_length]; omega)

theorem execEncb_fits (len : BitVec 32) (s : State) : ResultFits (execEncb len s) := by
  unfold execEncb
  split
  · exact .failWith _ _
  · split
    · exact .failWith _ _
    · split
      · exact .fault _
      · dsimp only
        split <;> rename_i heq
        · exact .failWith _ _
        · exact .succeedWith _ (by simp [encryptBlock_length heq])

theorem execDecb_fits (len : BitVec 32) (s : State) : ResultFits (execDecb len s) := by
  unfold execDecb
  split
  · exact .failWith _ _
  · split
    · exact .failWith _ _
    · split
      · exact .fault _
      · dsimp only
        split <;> rename_i heq
        · exact .failWith _ _
        · exact .succeedWith _ (by simp [decryptBlock_length heq])

theorem lengthFits_iff {n : Nat} : lengthFits n = true ↔ n ≤ maxPlain := decide_eq_true_iff

/-- The chained blocks of a padded plaintext that ENC accepts, with the IV before them, stay below `2^32` bytes
(rules R192, R198). -/
theorem cbce_padded_length_lt {p cs : Bytes} {s s' : State} (hb : s.blen = 32) (hp : p.length ≤ maxPlain)
    (h : cbce (writeTrailer p.length (pad p s)) = (s', some cs)) : 32 + cs.length < 2 ^ 32 := by
  obtain ⟨-, -, -, -, hcs⟩ := cbce_spec h
  have hlen : cs.length = 32 * (BitVec.ofNat 32 (padBlocks 32 p.length)).toNat := by
    simpa [hb] using hcs cs rfl
  have hnb : (BitVec.ofNat 32 (padBlocks 32 p.length)).toNat ≤ (p.length + 31) / 32 + 1 := by
    rw [BitVec.toNat_ofNat]
    exact Nat.mod_le _ _
  rw [maxPlain] at hp
  omega

theorem execEnc_fits {len : BitVec 32} {s : State} (hb : configured s = true → s.blen = 32) :
    ResultFits (execEnc len s) := by
  unfold execEnc
  split
  · exact .failWith _ _
  · rename_i hc
    split
    · exact .fault _
    · exact .failWith _ _
    · rename_i s1 hiv
      have hb1 : s1.blen = 32 := by
        obtain ⟨_, _, _, _, rfl⟩ := ivgen_onlyScratch hiv
        exact hb (by simpa using hc)
      split
      · exact .failWith _ _
      · rename_i hfit
        split
        · exact .fault _
        · rename_i p hop
          have hp : p.length ≤ maxPlain := by
            rw [operandL_length hop]
            exact lengthFits_iff.1 (by simpa using hfit)
          split <;> rename_i heq
          · exact .failWith _ _
          · exact .succeedWith _ (by simpa using cbce_padded_length_lt hb1 hp heq)

/-- A recovered plaintext is no longer than the blocks of its payload (rules R193, R197). -/
theorem execDec_fits (len : BitVec 32) (s : State) : ResultFits (execDec len s) := by
  unfold execDec
  split
  · exact .failWith _ _
  · split
    · exact .failWith _ _
    · split
      · exact .fault _
      · dsimp only
        split
        · exact .failWith _ _
        · split
          · exact .failWith _ _
          · split <;> rename_i heq
            · exact .failWith _ _
            · rename_i s2
              split
              · exact .failWith _ _
              · rename_i l htr
                have hl := trdec_le htr
                obtain ⟨-, hp, -⟩ := cbcd_spec heq
                simp only [openBody_mode, loadIvr_blen, Memory.blank_len] at hp
                have hm := Nat.mul_div_le (len.toNat - s.blen.toNat) s.blen.toNat
                have := len.isLt
                exact .succeedWith _ (by rw [Memory.read_length]; omega)

theorem exec_fits (i : Instr) {s : State} (hb : configured s = true → s.blen = 32) : ResultFits (exec i s) := by
  cases i with
  | setkey len => exact execSetkey_fits len s
  | settweak len => exact execSettweak_fits len s
  | xora lena len => exact execXora_fits lena len s
  | encb len => exact execEncb_fits len s
  | decb len => exact execDecb_fits len s
  | enc len => exact execEnc_fits hb
  | dec len => exact execDec_fits len s
  | mix | unmix | perm | unperm | ksx =>
    simp only [exec, execMix, execUnmix, execPerm, execUnperm, execKsx]
    split
    · exact .failWith _ _
    · split
      · exact .fault _
      · exact .succeedWith _ (by simp [scheduleBytes_length])

/-! Every completion and every step. -/

theorem exec_invariant {i : Instr} {s t : State} (h : PersistentLegal s) (he : exec i s = .next t) :
    Invariant t := by
  have hfit := exec_fits i h.blen_of_configured t he
  rcases exec_shape he with ⟨r, s1, hr, hs, rfl⟩ | ⟨out, s1, hs, rfl⟩ | ⟨_, s1, -, hk, rfl⟩ | ⟨_, s1, -, hw, rfl⟩
  · exact invariant_raiseFail (h.onlyScratch hs) hr
  · exact invariant_succeed (h.onlyScratch hs) hfit
  · exact invariant_succeed (h.keyWritten hk) hfit
  · exact invariant_succeed (h.tweakWritten hw) hfit

theorem runCommand_invariant {hd : BitVec 64} {p : Bytes} {s t : State} (h : PersistentLegal s)
    (he : runCommand hd p s = .next t) : Invariant t := by
  have hp := h.presentPayload (hdrLen hd) p
  cases hdec : decode hd with
  | ok i =>
    rw [runCommand_of_decode hdec] at he
    exact exec_invariant hp he
  | error e =>
    rw [runCommand_of_error hdec] at he
    cases he
    exact invariant_raiseFail hp (by decide)

theorem resetEvent_invariant (s : State) : Invariant (resetEvent s) where
  klen     := .inl rfl
  key      := fun _ => rfl
  tlen     := .inl rfl
  tweak    := fun _ => rfl
  blen     := rfl
  response := by simp [ResponseShape, statusOk, Reason.code]
  obuf     := Memory.wf_empty
  ibuf     := Memory.wf_empty
  scratch  := ⟨rfl, rfl⟩

/-- Settles O10: the reset event's invariant, on the reset state itself. -/
theorem resetSatisfiesInvariant : Obligations.ResetSatisfiesInvariant :=
  resetEvent_invariant State.reset

/-- Settles O11, by the event a step takes: the idle step, a command run to its completion, the two resets. -/
theorem stepKeepsInvariant : Obligations.StepKeepsInvariant := by
  intro s t h he
  unfold step at he
  split at he
  case h_1 =>
    cases he
    exact h
  case h_2 hd p es _ =>
    have hes : PersistentLegal { s with hostIn := es } := { h with }
    exact runCommand_invariant hes he
  case h_3 =>
    cases he
    exact resetEvent_invariant _
  case h_4 =>
    cases he
    exact resetEvent_invariant _

end Sys2Proof.Machine
end

section
/-! What every completion leaves of the scratch and of the persistent state (10_state.md rules R26, R33, R35,
R36; 20_memory.md rule R51). -/

namespace Sys2Proof.Machine

/-- The scratch of rule R33, element by element. -/
theorem ScratchZero.values {s : State} (h : ScratchZero s) :
    s.eng.v = ⟨0, 0, 0, 0⟩ ∧ s.eng.e = ⟨0, 0, 0, 0⟩ ∧ s.eng.f = ⟨0, 0, 0, 0⟩
    ∧ s.eng.kx = Vector.replicate 5 0 ∧ s.eng.tx = Vector.replicate 3 0
    ∧ s.eng.sk = Vector.replicate 19 ⟨0, 0, 0, 0⟩
    ∧ s.eng.d = 0 ∧ s.eng.g = 0 ∧ s.eng.j = 0 ∧ s.mode.i = 0 ∧ s.mode.nb = 0
    ∧ s.mode.ivr = Vector.replicate 32 0 ∧ s.mode.chain = Vector.replicate 32 0
    ∧ s.mode.blk = Vector.replicate 32 0 ∧ s.mode.pbuf.bytes = [] := by
  obtain ⟨he, hm⟩ := h
  rw [he, hm]
  exact ⟨rfl, rfl, rfl, rfl, rfl, rfl, rfl, rfl, rfl, rfl, rfl, rfl, rfl, rfl, rfl⟩

theorem exec_scratchZero {i : Instr} {s t : State} (h : exec i s = .next t) : ScratchZero t := by
  rcases exec_shape h with ⟨_, _, -, -, rfl⟩ | ⟨_, _, -, rfl⟩ | ⟨_, _, -, -, rfl⟩ | ⟨_, _, -, -, rfl⟩
  all_goals exact ⟨rfl, rfl⟩

/-- Settles O14: `raiseFail` and `succeed`, the two ways a command ends, zeroize alike. -/
theorem scratchIsZeroAtCompletion : Obligations.ScratchIsZeroAtCompletion := by
  intro i s t h
  exact (exec_scratchZero h).values

/-! Who writes what. -/

theorem exec_key_kept {i : Instr} {s t : State} (h : exec i s = .next t) (hi : ∀ len, i ≠ .setkey len) :
    t.key = s.key ∧ t.klen = s.klen ∧ t.blen = s.blen := by
  rcases exec_shape h with
    ⟨_, _, -, ⟨_, _, _, _, rfl⟩, rfl⟩ | ⟨_, _, ⟨_, _, _, _, rfl⟩, rfl⟩ | ⟨len, _, rfl, -, -⟩
      | ⟨_, _, -, ⟨_, -, rfl⟩, rfl⟩
  case inr.inr.inl => exact absurd rfl (hi len)
  all_goals exact ⟨rfl, rfl, rfl⟩

theorem exec_tweak_kept {i : Instr} {s t : State} (h : exec i s = .next t) (hi : ∀ len, i ≠ .settweak len) :
    t.tweak = s.tweak ∧ t.tlen = s.tlen := by
  rcases exec_shape h with
    ⟨_, _, -, ⟨_, _, _, _, rfl⟩, rfl⟩ | ⟨_, _, ⟨_, _, _, _, rfl⟩, rfl⟩ | ⟨_, _, -, rfl | ⟨_, -, rfl⟩, rfl⟩
      | ⟨len, _, rfl, -, -⟩
  case inr.inr.inr => exact absurd rfl (hi len)
  all_goals exact ⟨rfl, rfl⟩

/-- No command writes the parameters, the coming events or the payload. -/
theorem exec_inputs_kept {i : Instr} {s t : State} (h : exec i s = .next t) :
    t.cfg = s.cfg ∧ t.hostIn = s.hostIn ∧ t.ibuf = s.ibuf := by
  rcases exec_shape h with
    ⟨_, _, -, ⟨_, _, _, _, rfl⟩, rfl⟩ | ⟨_, _, ⟨_, _, _, _, rfl⟩, rfl⟩ | ⟨_, _, -, rfl | ⟨_, -, rfl⟩, rfl⟩
      | ⟨_, _, -, ⟨_, -, rfl⟩, rfl⟩
  all_goals exact ⟨rfl, rfl, rfl⟩

/-- Settles O15, from what each kind of completion keeps. -/
theorem onlySetkeyAndSettweakWriteConfiguration : Obligations.OnlySetkeyAndSettweakWriteConfiguration := by
  intro i s t h
  obtain ⟨hcfg, hhost, hibuf⟩ := exec_inputs_kept h
  refine ⟨exec_key_kept h, exec_tweak_kept h, hcfg, hhost, ?_⟩
  rw [hibuf]
  exact ⟨rfl, fun _ => rfl⟩

/-- No command unsets a tweak: SETTWEAK fails or stores one of 16 bytes, the others keep it. -/
theorem exec_tlen_set {i : Instr} {s t : State} (h : exec i s = .next t) (hs : s.tlen = 16) : t.tlen = 16 := by
  rcases exec_shape h with
    ⟨_, _, -, ⟨_, _, _, _, rfl⟩, rfl⟩ | ⟨_, _, ⟨_, _, _, _, rfl⟩, rfl⟩ | ⟨_, _, -, rfl | ⟨_, -, rfl⟩, rfl⟩
      | ⟨_, _, -, ⟨_, -, rfl⟩, rfl⟩
  case inr.inr.inr => rfl
  all_goals exact hs

theorem step_of_command {s : State} {h : BitVec 64} {p : Bytes} {es : List HostEvent}
    (he : s.hostIn = .command h p :: es) : step s = runCommand h p { s with hostIn := es } := by
  simp [step, he]

/-- Settles O19: a legal header runs a command, an illegal one fails, and neither unsets the tweak. -/
theorem tweakStaysSetUntilReset : Obligations.TweakStaysSetUntilReset := by
  intro s t h p es he hstep htlen
  rw [step_of_command he] at hstep
  cases hd : decode h with
  | ok i =>
    rw [runCommand_of_decode hd] at hstep
    exact exec_tlen_set hstep htlen
  | error e =>
    rw [runCommand_of_error hd] at hstep
    cases hstep
    exact htlen

/-- Settles O8: the values of the reset state, and the idle step on it. -/
theorem resetValues : Obligations.ResetValues := by
  obtain ⟨hv, he, hf, hkx, htx, hsk, hd, hg, hj, hi, hnb, hivr, hchain, hblk, hpbuf⟩ :=
    (resetSatisfiesInvariant.scratch).values
  exact ⟨rfl, rfl, rfl, rfl, rfl, okFlag_statusWord .., reasonField_statusWord .., rlenField_statusWord .., rfl, rfl,
    hv, he, hf, hkx, htx, hsk, hd, hg, hj, hi, hnb, hivr, hchain, hblk, hpbuf, rfl⟩

end Sys2Proof.Machine
end

section
/-! Two runs of one command (10_state.md rules R33, R35): from states that agree on what the command may read, a
command ends in the same way. -/

namespace Sys2Proof.Machine

/-- Two outcomes of one kind, with the same reason or the same result, on states in the relation `R`. -/
inductive SameEnd (R : State → State → Prop) :
    Host.Outcome State Fault Refusal → Host.Outcome State Fault Refusal → Prop where
  | fault (f : Fault) : SameEnd R (.fault f) (.fault f)
  | failure (r : Reason) {s s' : State} (h : R s s') : SameEnd R (failWith r s) (failWith r s')
  | success (out : Bytes) {s s' : State} (h : R s s') : SameEnd R (succeedWith out s) (succeedWith out s')

theorem SameEnd.response {R : State → State → Prop} {o o' : Host.Outcome State Fault Refusal} {t : State}
    (h : SameEnd R o o') (ho : o = .next t) : ∃ t', o' = .next t' ∧ t'.status = t.status ∧ t'.obuf = t.obuf := by
  cases h with
  | fault f => cases ho
  | failure r _ =>
    cases ho
    exact ⟨_, rfl, rfl, rfl⟩
  | success out _ =>
    cases ho
    exact ⟨_, rfl, rfl, rfl⟩

/-! XORA and the diagnostic commands. -/

theorem succeedWith_setEngine (out : Bytes) (en : Engine) (s : State) :
    succeedWith out (setEngine en s) = succeedWith out s := rfl

/-- The layout of a schedule does not depend on what the engine's registers held. -/
theorem scheduleBytes_expand (en en' : Engine) (k : Vector Byte 32) (tw : Vector Byte 16) :
    scheduleBytes (en.expand k tw) = scheduleBytes (en'.expand k tw) := by
  simp only [scheduleBytes, expand_kx, expand_tx, expand_sk]

theorem operandL_congr {s s' : State} (hm : s'.ibuf = s.ibuf) (len : BitVec 32) :
    operandL len s' = operandL len s := by
  rw [operandL, operandL, hm]

theorem operandX_congr {s s' : State} (hm : s'.ibuf = s.ibuf) (lena : BitVec 24) (len : BitVec 32) :
    operandX lena len s' = operandX lena len s := by
  rw [operandX, operandX, hm]

theorem operandSized_congr {s s' : State} (hm : s'.ibuf = s.ibuf) (n a : Nat) :
    operandSized n a s' = operandSized n a s := by
  rw [operandSized, operandSized, hm]

theorem operandM_congr {s s' : State} (hm : s'.ibuf = s.ibuf) : operandM s' = operandM s := by
  rw [operandM, operandM, operandSized_congr hm]

theorem operandWords_congr {s s' : State} (hm : s'.ibuf = s.ibuf) : operandWords s' = operandWords s := by
  rw [operandWords, operandWords, operandSized_congr hm]

theorem operandKeyTweak_congr {s s' : State} (hm : s'.ibuf = s.ibuf) : operandKeyTweak s' = operandKeyTweak s := by
  rw [operandKeyTweak, operandKeyTweak, operandSized_congr hm, operandSized_congr hm]

/-- XORA and the diagnostic commands read the payload and the parameters alone (rules R35, R144, R173). -/
theorem exec_diagnostic_sameEnd {R : State → State → Prop} {i : Instr} {s s' : State}
    (hi : i.opcode ∈ [Opcode.xora, .mix, .unmix, .perm, .unperm, .ksx]) (hm : s'.ibuf = s.ibuf)
    (hc : s'.cfg = s.cfg) (hR : R s s') : SameEnd R (exec i s) (exec i s') := by
  cases i with
  | setkey | settweak | encb | decb | enc | dec => simp [Instr.opcode] at hi
  | xora | mix | unmix | perm | unperm | ksx =>
    simp only [exec, execXora, execMix, execUnmix, execPerm, execUnperm, execKsx, operandX_congr hm,
      operandM_congr hm, operandWords_congr hm, operandKeyTweak_congr hm, hc, succeedWith_setEngine,
      scheduleBytes_expand s'.eng s.eng]
    split
    · exact .failure _ hR
    · split
      · exact .fault _
      · exact .success _ hR

/-- Settles O21: the two ends are one, and a response is all of the end that is asked for. -/
theorem diagnosticsIgnoreTheStoredKey : Obligations.DiagnosticsIgnoreTheStoredKey := by
  intro i s s' t hi hm hc h
  have hend : SameEnd (fun _ _ => True) (exec i s) (exec i s') := exec_diagnostic_sameEnd hi hm hc trivial
  exact hend.response h

end Sys2Proof.Machine
end

section
/-! The commands that read the configuration (10_state.md rule R33): what they read of the scratch they have
written before, so two states that agree outside the response and the scratch lead to the same end. -/

namespace Sys2Proof.Machine

/-- `s'` is `s` but for the response, the scratch, and the coming events, which are `es`. -/
def SameConfig (es : List HostEvent) (s s' : State) : Prop :=
  ∃ status obuf en mo, s' = { s with status := status, obuf := obuf, eng := en, mode := mo, hostIn := es }

namespace SameConfig

variable {es : List HostEvent} {s s' : State}

theorem cfg (h : SameConfig es s s') : s'.cfg = s.cfg := by obtain ⟨_, _, _, _, rfl⟩ := h; rfl

theorem ibuf (h : SameConfig es s s') : s'.ibuf = s.ibuf := by obtain ⟨_, _, _, _, rfl⟩ := h; rfl

theorem blen (h : SameConfig es s s') : s'.blen = s.blen := by obtain ⟨_, _, _, _, rfl⟩ := h; rfl

theorem keyBytes (h : SameConfig es s s') : keyBytes s' = keyBytes s := by obtain ⟨_, _, _, _, rfl⟩ := h; rfl

theorem tweakBytes (h : SameConfig es s s') : tweakBytes s' = tweakBytes s := by
  obtain ⟨_, _, _, _, rfl⟩ := h; rfl

theorem configured (h : SameConfig es s s') : configured s' = configured s := by
  obtain ⟨_, _, _, _, rfl⟩ := h; rfl

theorem scratchAnswer (h : SameConfig es s s') : scratchAnswer s' = scratchAnswer s := by
  obtain ⟨_, _, _, _, rfl⟩ := h; rfl

theorem mode (h : SameConfig es s s') (mo mo' : ModeRegs) :
    SameConfig es { s with mode := mo } { s' with mode := mo' } := by
  obtain ⟨_, _, _, _, rfl⟩ := h; exact ⟨_, _, _, _, rfl⟩

theorem eng (h : SameConfig es s s') (en en' : Engine) :
    SameConfig es { s with eng := en } { s' with eng := en' } := by
  obtain ⟨_, _, _, _, rfl⟩ := h; exact ⟨_, _, _, _, rfl⟩

theorem takeScratchAnswer (h : SameConfig es s s') :
    SameConfig es (takeScratchAnswer s) (takeScratchAnswer s') := by
  obtain ⟨_, _, _, _, rfl⟩ := h; exact ⟨_, _, _, _, rfl⟩

theorem eraseKey (h : SameConfig es s s') : SameConfig es (eraseKey s) (eraseKey s') := by
  obtain ⟨_, _, _, _, rfl⟩ := h; exact ⟨_, _, _, _, rfl⟩

theorem storeKey (h : SameConfig es s s') (kb : Bytes) : SameConfig es (storeKey kb s) (storeKey kb s') := by
  obtain ⟨_, _, _, _, rfl⟩ := h; exact ⟨_, _, _, _, rfl⟩

theorem fixBlockLen (h : SameConfig es s s') : SameConfig es (fixBlockLen s) (fixBlockLen s') := by
  obtain ⟨_, _, _, _, rfl⟩ := h; exact ⟨_, _, _, _, rfl⟩

theorem storeTweak (h : SameConfig es s s') (tb : Bytes) :
    SameConfig es (storeTweak tb s) (storeTweak tb s') := by
  obtain ⟨_, _, _, _, rfl⟩ := h; exact ⟨_, _, _, _, rfl⟩

end SameConfig

/-- Two ends on one configuration are one next state but for the coming events: the rest is written. -/
theorem SameEnd.next_of_sameConfig {es : List HostEvent} {o o' : Host.Outcome State Fault Refusal} {t : State}
    (h : SameEnd (SameConfig es) o o') (ho : o = .next t) : o' = .next { t with hostIn := es } := by
  cases h with
  | fault f => cases ho
  | failure r hs =>
    cases ho
    obtain ⟨_, _, _, _, rfl⟩ := hs
    rfl
  | success out hs =>
    cases ho
    obtain ⟨_, _, _, _, rfl⟩ := hs
    rfl

/-! Block operations. -/

/-- A block operation's result does not depend on the scratch, and it leaves the same configuration. -/
theorem encryptBlock_sameConfig {es : List HostEvent} {s s' u : State} {p k t : Bytes} {n : Nat} {o : Option Bytes}
    (h : SameConfig es s s') (hr : encryptBlock p k t n s = (u, o)) :
    ∃ u', encryptBlock p k t n s' = (u', o) ∧ SameConfig es u u' := by
  cases hl : blockOperands p k t n with
  | none =>
    simp only [encryptBlock, hl] at hr ⊢
    cases hr
    exact ⟨s', rfl, h⟩
  | some _ =>
    have hn : blockOperands p k t n ≠ none := by simp [hl]
    cases hs : scratchAnswer s with
    | false =>
      rw [encryptBlock_noScratch hn hs] at hr
      cases hr
      exact ⟨_, encryptBlock_noScratch hn (h.scratchAnswer.trans hs), h.takeScratchAnswer⟩
    | true =>
      rw [encryptBlock_admitted hl hs, ← h.cfg] at hr
      cases hr
      exact ⟨_, encryptBlock_admitted hl (h.scratchAnswer.trans hs), h.takeScratchAnswer.eng _ _⟩

theorem decryptBlock_sameConfig {es : List HostEvent} {s s' u : State} {c k t : Bytes} {n : Nat} {o : Option Bytes}
    (h : SameConfig es s s') (hr : decryptBlock c k t n s = (u, o)) :
    ∃ u', decryptBlock c k t n s' = (u', o) ∧ SameConfig es u u' := by
  cases hl : blockOperands c k t n with
  | none =>
    simp only [decryptBlock, hl] at hr ⊢
    cases hr
    exact ⟨s', rfl, h⟩
  | some _ =>
    have hn : blockOperands c k t n ≠ none := by simp [hl]
    cases hs : scratchAnswer s with
    | false =>
      rw [decryptBlock_noScratch hn hs] at hr
      cases hr
      exact ⟨_, decryptBlock_noScratch hn (h.scratchAnswer.trans hs), h.takeScratchAnswer⟩
    | true =>
      rw [decryptBlock_admitted hl hs, ← h.cfg] at hr
      cases hr
      exact ⟨_, decryptBlock_admitted hl (h.scratchAnswer.trans hs), h.takeScratchAnswer.eng _ _⟩

/-! The loops of the mode controller. -/

/-- The mode controller's registers that a turn of a loop reads agree as well: all but `I` and `BLK`, which the
turn writes first. -/
structure SameMessage (es : List HostEvent) (s s' : State) : Prop where
  config : SameConfig es s s'
  ivr    : s'.mode.ivr = s.mode.ivr
  nb     : s'.mode.nb = s.mode.nb
  chain  : s'.mode.chain = s.mode.chain
  pbuf   : s'.mode.pbuf = s.mode.pbuf

/-- The first write of both loops, `CHAIN <- IVR`, makes the chain values agree. -/
theorem SameConfig.sameMessage_loadChain {es : List HostEvent} {s s' : State} (h : SameConfig es s s')
    (hivr : s'.mode.ivr = s.mode.ivr) (hnb : s'.mode.nb = s.mode.nb) (hpbuf : s'.mode.pbuf = s.mode.pbuf) :
    SameMessage es (loadChain s.mode.ivr.toList s) (loadChain s'.mode.ivr.toList s') where
  config := h.mode _ _
  ivr    := hivr
  nb     := hnb
  chain  := by simp [hivr]
  pbuf   := hpbuf

theorem cbceTurn_sameMessage {es : List HostEvent} {s s' u : State} {i : Nat} {o : Option Bytes}
    (h : SameMessage es s s') (hr : cbceTurn i s = (u, o)) :
    ∃ u', cbceTurn i s' = (u', o) ∧ SameMessage es u u' := by
  have hload : ∀ b, SameConfig es (loadBlk b (setI i s)) (loadBlk b (setI i s')) := fun b =>
    (h.config.mode _ _).mode _ _
  simp only [cbceTurn, loadBlk_mode, h.config.blen, h.chain, h.pbuf, (hload _).keyBytes, (hload _).tweakBytes] at hr ⊢
  split at hr <;> rename_i heq <;> cases hr <;>
    obtain ⟨u', heq', hu⟩ := encryptBlock_sameConfig (hload _) heq <;>
    have hmode := encryptBlock_mode heq <;> have hmode' := encryptBlock_mode heq'
  · rw [heq']
    exact ⟨u', rfl, hu, by simp [hmode, hmode', h.ivr], by simp [hmode, hmode', h.nb],
      by simp [hmode, hmode', h.chain], by simp [hmode, hmode', h.pbuf]⟩
  · rw [heq']
    exact ⟨_, rfl, (hu.mode _ _).mode _ _, by simp [hmode, hmode', h.ivr], by simp [hmode, hmode', h.nb],
      by simp, by simp [hmode, hmode', h.pbuf]⟩

theorem cbceLoop_sameMessage {es : List HostEvent} {n i : Nat} {acc : Bytes} {s s' u : State} {o : Option Bytes}
    (h : SameMessage es s s') (hr : cbceLoop n i acc s = (u, o)) :
    ∃ u', cbceLoop n i acc s' = (u', o) ∧ SameMessage es u u' := by
  induction n generalizing i acc s s' with
  | zero =>
    cases hr
    exact ⟨s', rfl, h⟩
  | succ n ih =>
    simp only [cbceLoop] at hr ⊢
    split at hr <;> rename_i heq <;> obtain ⟨u1, heq', hu⟩ := cbceTurn_sameMessage h heq <;> rw [heq']
    · cases hr
      exact ⟨u1, rfl, hu⟩
    · exact ih hu hr

theorem cbce_sameMessage {es : List HostEvent} {s s' u : State} {o : Option Bytes} (h : SameConfig es s s')
    (hivr : s'.mode.ivr = s.mode.ivr) (hnb : s'.mode.nb = s.mode.nb) (hpbuf : s'.mode.pbuf = s.mode.pbuf)
    (hr : cbce s = (u, o)) : ∃ u', cbce s' = (u', o) ∧ SameMessage es u u' := by
  rw [cbce, hnb]
  exact cbceLoop_sameMessage (h.sameMessage_loadChain hivr hnb hpbuf) hr

theorem cbcdTurn_sameMessage {es : List HostEvent} {s s' u : State} {i : Nat} {b : Bool}
    (h : SameMessage es s s') (hr : cbcdTurn i s = (u, b)) :
    ∃ u', cbcdTurn i s' = (u', b) ∧ SameMessage es u u' := by
  have hload : ∀ b, SameConfig es (loadBlk b (setI i s)) (loadBlk b (setI i s')) := fun b =>
    (h.config.mode _ _).mode _ _
  simp only [cbcdTurn, loadBlk_mode, h.config.blen, h.config.ibuf, (hload _).keyBytes, (hload _).tweakBytes] at hr ⊢
  split at hr <;> rename_i heq <;> cases hr <;>
    obtain ⟨u', heq', hu⟩ := decryptBlock_sameConfig (hload _) heq <;>
    have hmode := decryptBlock_mode heq <;> have hmode' := decryptBlock_mode heq'
  · rw [heq']
    exact ⟨u', rfl, hu, by simp [hmode, hmode', h.ivr], by simp [hmode, hmode', h.nb],
      by simp [hmode, hmode', h.chain], by simp [hmode, hmode', h.pbuf]⟩
  · rw [heq']
    exact ⟨_, rfl, ((hu.mode _ _).mode _ _).mode _ _, by simp [hmode, hmode', h.ivr], by simp [hmode, hmode', h.nb],
      by simp [hmode, hmode'], by simp [hmode, hmode', h.chain, h.pbuf]⟩

theorem cbcdLoop_sameMessage {es : List HostEvent} {n i : Nat} {s s' u : State} {b : Bool}
    (h : SameMessage es s s') (hr : cbcdLoop n i s = (u, b)) :
    ∃ u', cbcdLoop n i s' = (u', b) ∧ SameMessage es u u' := by
  induction n generalizing i s s' with
  | zero =>
    cases hr
    exact ⟨s', rfl, h⟩
  | succ n ih =>
    simp only [cbcdLoop] at hr ⊢
    split at hr <;> rename_i heq <;> obtain ⟨u1, heq', hu⟩ := cbcdTurn_sameMessage h heq <;> rw [heq']
    · cases hr
      exact ⟨u1, rfl, hu⟩
    · exact ih hu hr

theorem cbcd_sameMessage {es : List HostEvent} {s s' u : State} {b : Bool} (h : SameConfig es s s')
    (hivr : s'.mode.ivr = s.mode.ivr) (hnb : s'.mode.nb = s.mode.nb) (hpbuf : s'.mode.pbuf = s.mode.pbuf)
    (hr : cbcd s = (u, b)) : ∃ u', cbcd s' = (u', b) ∧ SameMessage es u u' := by
  rw [cbcd, hnb]
  exact cbcdLoop_sameMessage (h.sameMessage_loadChain hivr hnb hpbuf) hr

end Sys2Proof.Machine
end

section
/-! The consequence of rule R33, command by command, and its statement. -/

namespace Sys2Proof.Machine

section TwoRuns

variable {es : List HostEvent} {s s' : State}

theorem execSetkey_sameEnd (h : SameConfig es s s') (len : BitVec 32) :
    SameEnd (SameConfig es) (execSetkey len s) (execSetkey len s') := by
  simp only [execSetkey, operandL_congr h.ibuf]
  split
  · exact .success _ h.eraseKey.fixBlockLen
  · split
    · split
      · exact .fault _
      · exact .success _ (h.eraseKey.storeKey _).fixBlockLen
    · exact .failure _ h

theorem execSettweak_sameEnd (h : SameConfig es s s') (len : BitVec 32) :
    SameEnd (SameConfig es) (execSettweak len s) (execSettweak len s') := by
  simp only [execSettweak, operandL_congr h.ibuf]
  split
  · split
    · exact .fault _
    · exact .success _ (h.storeTweak _)
  · exact .failure _ h

theorem execEncb_sameEnd (h : SameConfig es s s') (len : BitVec 32) :
    SameEnd (SameConfig es) (execEncb len s) (execEncb len s') := by
  simp only [execEncb, h.configured, operandL_congr h.ibuf]
  split
  · exact .failure _ h
  · split
    · exact .failure _ h
    · split
      · exact .fault _
      · rename_i p _
        have h1 : SameConfig es (loadBlk p s) (loadBlk p s') := h.mode _ _
        simp only [loadBlk_mode, loadBlk_blen, h1.keyBytes, h1.tweakBytes, h.blen]
        split <;> rename_i heq <;> obtain ⟨u', heq', hu⟩ := encryptBlock_sameConfig h1 heq <;> rw [heq']
        · exact .failure _ hu
        · exact .success _ (hu.mode _ _)

theorem execDecb_sameEnd (h : SameConfig es s s') (len : BitVec 32) :
    SameEnd (SameConfig es) (execDecb len s) (execDecb len s') := by
  simp only [execDecb, h.configured, operandL_congr h.ibuf]
  split
  · exact .failure _ h
  · split
    · exact .failure _ h
    · split
      · exact .fault _
      · rename_i c _
        have h1 : SameConfig es (loadBlk c s) (loadBlk c s') := h.mode _ _
        simp only [loadBlk_mode, loadBlk_blen, h1.keyBytes, h1.tweakBytes, h.blen]
        split <;> rename_i heq <;> obtain ⟨u', heq', hu⟩ := decryptBlock_sameConfig h1 heq <;> rw [heq']
        · exact .failure _ hu
        · exact .success _ (hu.mode _ _)

theorem ivgen_none_of_sameConfig (h : SameConfig es s s') (hr : ivgen s = none) : ivgen s' = none := by
  obtain ⟨_, _, _, _, rfl⟩ := h
  rcases ivgen_cases s with ⟨hs, -⟩ | ⟨_, _, h'⟩ | ⟨_, _, _, h'⟩
  · simp [ivgen, rngRead, hs]
  · simp [hr] at h'
  · simp [hr] at h'

/-- The two requests take one answer, and where it is an IV both registers hold it. -/
theorem ivgen_sameConfig {b : Bool} {u : State} (h : SameConfig es s s') (hr : ivgen s = some (b, u)) :
    ∃ u', ivgen s' = some (b, u') ∧ SameConfig es u u' ∧ (b = true → u'.mode.ivr = u.mode.ivr) := by
  obtain ⟨_, _, _, _, rfl⟩ := h
  rcases ivgen_cases s with ⟨-, h'⟩ | ⟨as, hs, h'⟩ | ⟨v, as, hs, h'⟩
  · simp [hr] at h'
  · rw [h'] at hr
    cases hr
    simp only [ivgen, rngRead, hs]
    exact ⟨_, rfl, ⟨_, _, _, _, rfl⟩, by simp⟩
  · rw [h'] at hr
    cases hr
    simp only [ivgen, rngRead, hs]
    exact ⟨_, rfl, ⟨_, _, _, _, rfl⟩, fun _ => rfl⟩

theorem execEnc_sameEnd (h : SameConfig es s s') (len : BitVec 32) :
    SameEnd (SameConfig es) (execEnc len s) (execEnc len s') := by
  simp only [execEnc, h.configured]
  split
  · exact .failure _ h
  · split <;> rename_i hiv
    · rw [ivgen_none_of_sameConfig h hiv]
      exact .fault _
    · obtain ⟨u', hiv', hu, -⟩ := ivgen_sameConfig h hiv
      rw [hiv']
      exact .failure _ hu
    · rename_i s1
      obtain ⟨s1', hiv', h1, hivr⟩ := ivgen_sameConfig h hiv
      simp only [hiv', operandL_congr h1.ibuf]
      split
      · exact .failure _ h1
      · split
        · exact .fault _
        · rename_i p _
          have h2 : SameConfig es (writeTrailer p.length (pad p s1)) (writeTrailer p.length (pad p s1')) :=
            (h1.mode _ _).mode _ _
          have hnb : padBlocks s1'.blen.toNat p.length = padBlocks s1.blen.toNat p.length := by rw [h1.blen]
          split <;> rename_i heq <;>
            obtain ⟨u', heq', hu⟩ := cbce_sameMessage h2 (hivr rfl) (by simp [hnb]) (by simp [h1.blen]) heq <;>
            rw [heq']
          · exact .failure _ hu.config
          · simp only [hu.ivr]
            exact .success _ hu.config

theorem trdec_of_sameMessage (h : SameMessage es s s') : trdec s' = trdec s := by
  rw [trdec, trdec, h.pbuf]

theorem execDec_sameEnd (h : SameConfig es s s') (len : BitVec 32) :
    SameEnd (SameConfig es) (execDec len s) (execDec len s') := by
  simp only [execDec, h.configured, h.blen, h.cfg, operandL_congr h.ibuf]
  split
  · exact .failure _ h
  · split
    · exact .failure _ h
    · split
      · exact .fault _
      · rename_i c _
        have h1 : SameConfig es (loadIvr (c.take s.blen.toNat) s) (loadIvr (c.take s.blen.toNat) s') := h.mode _ _
        have hbody : ∀ nb, SameConfig es (openBody nb (loadIvr (c.take s.blen.toNat) s))
            (openBody nb (loadIvr (c.take s.blen.toNat) s')) := fun _ => h1.mode _ _
        split
        · exact .failure _ h1
        · split
          · exact .failure _ h1
          · split <;> rename_i heq <;>
              obtain ⟨u', heq', hu⟩ := cbcd_sameMessage (hbody _) rfl rfl (by simp [h.blen]) heq <;>
              simp only [heq', trdec_of_sameMessage hu, hu.pbuf]
            · exact .failure _ hu.config
            · split
              · exact .failure _ hu.config
              · exact .success _ hu.config

theorem exec_sameEnd (h : SameConfig es s s') (i : Instr) : SameEnd (SameConfig es) (exec i s) (exec i s') := by
  cases i with
  | setkey len => exact execSetkey_sameEnd h len
  | settweak len => exact execSettweak_sameEnd h len
  | encb len => exact execEncb_sameEnd h len
  | decb len => exact execDecb_sameEnd h len
  | enc len => exact execEnc_sameEnd h len
  | dec len => exact execDec_sameEnd h len
  | xora | mix | unmix | perm | unperm | ksx =>
    exact exec_diagnostic_sameEnd (by simp [Instr.opcode]) h.ibuf h.cfg h

end TwoRuns

/-- Settles O20: the premises say that the two states agree outside the response and the scratch. -/
theorem resultDependsOnConfigurationAlone : Obligations.ResultDependsOnConfigurationAlone := by
  intro i s s' t hkey hklen htweak htlen hblen hibuf hcfg hrng hscratch he
  have h : SameConfig s'.hostIn s s' := by
    refine ⟨s'.status, s'.obuf, s'.eng, s'.mode, ?_⟩
    rw [← hkey, ← hklen, ← htweak, ← htlen, ← hblen, ← hibuf, ← hcfg, ← hrng, ← hscratch]
  exact (exec_sameEnd h i).next_of_sameConfig he

end Sys2Proof.Machine
end

section
/-! The chain registers after one turn of the loops (10_state.md rule R31; 45_mode_controller.md rules R194,
R195). -/

namespace Sys2Proof.Machine

/-- Writes of scratch registers change nothing of the configuration. -/
theorem sameConfig_loadBlk_setI (b : Bytes) (i : Nat) (s : State) : SameConfig s.hostIn (loadBlk b (setI i s)) s :=
  ⟨_, _, _, _, rfl⟩

/-- What a write inside a space puts there is read back. -/
theorem Memory.read_write_same {m : Memory} {a n : Nat} {b : Bytes} (h : m.wf = true) (hn : b.length = n)
    (hin : a + n ≤ m.len) : (m.write a b).read a n = b := by
  subst hn
  apply List.ext_getElem
  · simp
  · intro k _ hk
    rw [Memory.read_getElem, Memory.byteAt_write h _ _ _ hin, if_pos (by omega)]
    simp [hk]

/-- The ENC half: `CHAIN` and `BLK` take the block that `EncryptBlock` returns. -/
theorem cbceTurn_registers {i : Nat} {s t : State} {c : Bytes} (hb : s.blen = 32) (h : cbceTurn i s = (t, some c)) :
    (encryptBlock (xorBytes s.mode.chain.toList (s.mode.pbuf.read (32 * i) 32)) (keyBytes s) (tweakBytes s) 32 s).2
      = some c
    ∧ t.mode.chain.toList = c ∧ t.mode.blk.toList = c := by
  have hblen : s.blen.toNat = 32 := by simp [hb]
  simp only [cbceTurn, hblen] at h
  split at h <;> rename_i heq <;> cases h
  have hc := encryptBlock_length heq
  obtain ⟨_, heq', -⟩ := encryptBlock_sameConfig (sameConfig_loadBlk_setI _ i s) heq
  refine ⟨?_, by simp [hc], by simp [hc]⟩
  rw [loadBlk_mode, regOfBytes_toList _ _ (by simp)] at heq'
  exact congrArg Prod.snd heq'

/-- The DEC half: `CHAIN` takes the raw ciphertext block and `BLK` the raw decrypted block; `PBUF` takes that block
unchained, and `IVR` and `NB` stay. -/
theorem cbcdTurn_registers {i : Nat} {s t : State} (hb : s.blen = 32) (h : cbcdTurn i s = (t, true)) :
    ∃ r : Bytes, r.length = 32
      ∧ (decryptBlock (s.ibuf.read (32 + 32 * i) 32) (keyBytes s) (tweakBytes s) 32 s).2 = some r
      ∧ t.mode.chain.toList = s.ibuf.read (32 + 32 * i) 32 ∧ t.mode.blk.toList = r
      ∧ t.mode.ivr = s.mode.ivr ∧ t.mode.nb = s.mode.nb
      ∧ t.mode.pbuf = s.mode.pbuf.write (32 * i) (xorBytes r s.mode.chain.toList) := by
  have hblen : s.blen.toNat = 32 := by simp [hb]
  simp only [cbcdTurn, hblen] at h
  split at h <;> rename_i heq <;> cases h
  rename_i r
  have hr := decryptBlock_length heq
  have hmode := decryptBlock_mode heq
  obtain ⟨_, heq', -⟩ := decryptBlock_sameConfig (sameConfig_loadBlk_setI _ i s) heq
  refine ⟨r, hr, ?_, by simp [hmode], by simp [hr], by simp [hmode], by simp [hmode], by simp [hmode]⟩
  rw [loadBlk_mode, regOfBytes_toList _ _ (by simp)] at heq'
  exact congrArg Prod.snd heq'

/-- Settles O58, from the registers each turn leaves. -/
theorem chainRegistersAfterATurn : Obligations.ChainRegistersAfterATurn := by
  intro i s t hb
  constructor
  · intro c h
    obtain ⟨henc, hchain, hblk⟩ := cbceTurn_registers hb h
    obtain ⟨-, hivr, hpbuf, hnb, -⟩ := cbceTurn_spec h
    exact ⟨henc, hchain, hblk, hivr, hnb, hpbuf⟩
  · intro h
    obtain ⟨r, hr, hdec, hchain, hblk, hivr, hnb, hpbuf⟩ := cbcdTurn_registers hb h
    refine ⟨r, hdec, hchain, hblk, hivr, hnb, fun hwf hin => ?_⟩
    rw [hpbuf, Memory.read_write_same hwf (by simp [hr]) hin]

end Sys2Proof.Machine
end

section
/-! Who takes an answer of the RNG port (20_memory.md rules R50, R64; 45_mode_controller.md rule R190): `ivgen`
takes exactly the first, and no other operation takes any. -/

namespace Sys2Proof.Machine

/-! Operations. -/

theorem encryptBlock_rngIn {p k t : Bytes} {n : Nat} {s s' : State} {o : Option Bytes}
    (h : encryptBlock p k t n s = (s', o)) : s'.rngIn = s.rngIn := by
  simp only [encryptBlock] at h
  split at h
  · cases h
    rfl
  · split at h <;> cases h <;> rfl

theorem decryptBlock_rngIn {c k t : Bytes} {n : Nat} {s s' : State} {o : Option Bytes}
    (h : decryptBlock c k t n s = (s', o)) : s'.rngIn = s.rngIn := by
  simp only [decryptBlock] at h
  split at h
  · cases h
    rfl
  · split at h <;> cases h <;> rfl

theorem cbceTurn_rngIn {i : Nat} {s s' : State} {o : Option Bytes} (h : cbceTurn i s = (s', o)) :
    s'.rngIn = s.rngIn := by
  simp only [cbceTurn] at h
  split at h <;> rename_i heq <;> cases h <;> simpa using encryptBlock_rngIn heq

theorem cbceLoop_rngIn {n i : Nat} {acc : Bytes} {s s' : State} {o : Option Bytes}
    (h : cbceLoop n i acc s = (s', o)) : s'.rngIn = s.rngIn := by
  induction n generalizing i acc s with
  | zero =>
    cases h
    rfl
  | succ n ih =>
    simp only [cbceLoop] at h
    split at h <;> rename_i heq
    · cases h
      exact cbceTurn_rngIn heq
    · exact (ih h).trans (cbceTurn_rngIn heq)

theorem cbce_rngIn {s s' : State} {o : Option Bytes} (h : cbce s = (s', o)) : s'.rngIn = s.rngIn := by
  simpa using cbceLoop_rngIn h

theorem cbcdTurn_rngIn {i : Nat} {s s' : State} {b : Bool} (h : cbcdTurn i s = (s', b)) : s'.rngIn = s.rngIn := by
  simp only [cbcdTurn] at h
  split at h <;> rename_i heq <;> cases h <;> simpa using decryptBlock_rngIn heq

theorem cbcdLoop_rngIn {n i : Nat} {s s' : State} {b : Bool} (h : cbcdLoop n i s = (s', b)) :
    s'.rngIn = s.rngIn := by
  induction n generalizing i s with
  | zero =>
    cases h
    rfl
  | succ n ih =>
    simp only [cbcdLoop] at h
    split at h <;> rename_i heq
    · cases h
      exact cbcdTurn_rngIn heq
    · exact (ih h).trans (cbcdTurn_rngIn heq)

theorem cbcd_rngIn {s s' : State} {b : Bool} (h : cbcd s = (s', b)) : s'.rngIn = s.rngIn := by
  simpa using cbcdLoop_rngIn h

/-- An answered request has taken the RNG agent's first answer, `Fail` or an IV. -/
theorem ivgen_rngIn {s s' : State} {b : Bool} (h : ivgen s = some (b, s')) : ∃ a, s.rngIn = a :: s'.rngIn := by
  rcases ivgen_cases s with ⟨-, h'⟩ | ⟨as, hs, h'⟩ | ⟨iv, as, hs, h'⟩ <;> rw [h'] at h <;> cases h
  · exact ⟨_, hs⟩
  · exact ⟨_, hs⟩

/-! Commands. -/

/-- Where the outcome is a next state, the RNG's coming answers are `as`. -/
def RngAfter (as : List RngAnswer) (o : Host.Outcome State Fault Refusal) : Prop := ∀ t, o = .next t → t.rngIn = as

theorem RngAfter.fault (as : List RngAnswer) (f : Fault) : RngAfter as (.fault f) := fun _ h => by cases h

theorem RngAfter.failWith {as : List RngAnswer} {s : State} (r : Reason) (h : s.rngIn = as) :
    RngAfter as (failWith r s) := by
  rintro t ⟨⟩
  exact h

theorem RngAfter.succeedWith {as : List RngAnswer} {s : State} (out : Bytes) (h : s.rngIn = as) :
    RngAfter as (succeedWith out s) := by
  rintro t ⟨⟩
  exact h

theorem execSetkey_rngIn (len : BitVec 32) (s : State) : RngAfter s.rngIn (execSetkey len s) := by
  unfold execSetkey
  split
  · exact .succeedWith _ rfl
  · split
    · split
      · exact .fault _ _
      · exact .succeedWith _ rfl
    · exact .failWith _ rfl

theorem execSettweak_rngIn (len : BitVec 32) (s : State) : RngAfter s.rngIn (execSettweak len s) := by
  unfold execSettweak
  split
  · split
    · exact .fault _ _
    · exact .succeedWith _ rfl
  · exact .failWith _ rfl

theorem execEncb_rngIn (len : BitVec 32) (s : State) : RngAfter s.rngIn (execEncb len s) := by
  unfold execEncb
  split
  · exact .failWith _ rfl
  · split
    · exact .failWith _ rfl
    · split
      · exact .fault _ _
      · dsimp only
        split <;> rename_i heq
        · exact .failWith _ (by simpa using encryptBlock_rngIn heq)
        · exact .succeedWith _ (by simpa using encryptBlock_rngIn heq)

theorem execDecb_rngIn (len : BitVec 32) (s : State) : RngAfter s.rngIn (execDecb len s) := by
  unfold execDecb
  split
  · exact .failWith _ rfl
  · split
    · exact .failWith _ rfl
    · split
      · exact .fault _ _
      · dsimp only
        split <;> rename_i heq
        · exact .failWith _ (by simpa using decryptBlock_rngIn heq)
        · exact .succeedWith _ (by simpa using decryptBlock_rngIn heq)

theorem execDec_rngIn (len : BitVec 32) (s : State) : RngAfter s.rngIn (execDec len s) := by
  unfold execDec
  split
  · exact .failWith _ rfl
  · split
    · exact .failWith _ rfl
    · split
      · exact .fault _ _
      · dsimp only
        split
        · exact .failWith _ rfl
        · split
          · exact .failWith _ rfl
          · split <;> rename_i heq
            · exact .failWith _ (by simpa using cbcd_rngIn heq)
            · split
              · exact .failWith _ (by simpa using cbcd_rngIn heq)
              · exact .succeedWith _ (by simpa using cbcd_rngIn heq)

/-- XORA and the diagnostic commands touch neither the ports nor the configuration. -/
theorem exec_diagnostic_rngIn {i : Instr} (hi : i.opcode ∈ [Opcode.xora, .mix, .unmix, .perm, .unperm, .ksx])
    (s : State) : RngAfter s.rngIn (exec i s) := by
  cases i with
  | setkey | settweak | encb | decb | enc | dec => simp [Instr.opcode] at hi
  | xora | mix | unmix | perm | unperm | ksx =>
    simp only [exec, execXora, execMix, execUnmix, execPerm, execUnperm, execKsx]
    split
    · exact .failWith _ rfl
    · split
      · exact .fault _ _
      · exact .succeedWith _ (by simp)

/-- No command but ENC uses the RNG port. -/
theorem exec_rngIn_of_ne_enc {i : Instr} (hi : ∀ len, i ≠ .enc len) (s : State) : RngAfter s.rngIn (exec i s) := by
  cases i with
  | setkey len => exact execSetkey_rngIn len s
  | settweak len => exact execSettweak_rngIn len s
  | encb len => exact execEncb_rngIn len s
  | decb len => exact execDecb_rngIn len s
  | enc len => exact absurd rfl (hi len)
  | dec len => exact execDec_rngIn len s
  | xora | mix | unmix | perm | unperm | ksx => exact exec_diagnostic_rngIn (by simp [Instr.opcode]) s

/-- An ENC without key or tweak fails before its request. -/
theorem execEnc_rngIn_of_not_configured {s : State} (hc : configured s = false) (len : BitVec 32) :
    RngAfter s.rngIn (execEnc len s) := by
  rw [execEnc, if_pos (by simp [hc])]
  exact .failWith _ rfl

/-- A configured ENC makes its request first, and what follows takes no other answer. -/
theorem execEnc_rngIn_of_configured {s : State} {a : RngAnswer} {as : List RngAnswer} (hc : configured s = true)
    (hs : s.rngIn = a :: as) (len : BitVec 32) : RngAfter as (execEnc len s) := by
  have hiv : ∀ {b s1}, ivgen s = some (b, s1) → s1.rngIn = as := fun h => by
    obtain ⟨_, h1⟩ := ivgen_rngIn h
    exact (List.cons.inj (h1.symm.trans hs)).2
  rw [execEnc, if_neg (by simp [hc])]
  split <;> rename_i heq
  · exact .fault _ _
  · exact .failWith _ (hiv heq)
  · split
    · exact .failWith _ (hiv heq)
    · split
      · exact .fault _ _
      · split <;> rename_i hcbc
        · exact .failWith _ (by simpa [hiv heq] using cbce_rngIn hcbc)
        · exact .succeedWith _ (by simpa [hiv heq] using cbce_rngIn hcbc)

/-- A configured ENC without an answer waits (rule R268): it has no next state. -/
theorem execEnc_of_rngIn_nil {s : State} (hc : configured s = true) (hs : s.rngIn = []) (len : BitVec 32) :
    execEnc len s = .fault .rngPending := by
  simp [execEnc, hc, ivgen, rngRead, hs]

/-- A configured ENC that completes has taken exactly the first answer. -/
theorem exec_enc_takes_first {len : BitVec 32} {s t : State} (h : exec (.enc len) s = .next t)
    (hc : configured s = true) : ∃ a, s.rngIn = a :: t.rngIn := by
  cases hs : s.rngIn with
  | nil => cases (execEnc_of_rngIn_nil hc hs len).symm.trans h
  | cons a as => exact ⟨a, by rw [execEnc_rngIn_of_configured hc hs len t h]⟩

/-- Settles O16, by the command and, for an ENC, by its configuration check. -/
theorem oneRngRequestPerConfiguredEnc : Obligations.OneRngRequestPerConfiguredEnc := by
  intro i s t h
  refine ⟨?_, ?_, fun hi => exec_rngIn_of_ne_enc hi s t h⟩
  · rintro len rfl hc
    exact exec_enc_takes_first h hc
  · rintro len rfl hc
    exact execEnc_rngIn_of_not_configured hc len t h

/-! Whole steps. -/

/-- The command of header `h` is an ENC with key and tweak set, and the RNG has answered. -/
structure AnsweredEnc (h : BitVec 64) (s : State) : Prop where
  enc        : ∃ len, decode h = .ok (.enc len)
  configured : configured s = true
  answered   : s.rngIn ≠ []

/-- A presented command that completes takes no answer, or it is an answered ENC and takes the first. -/
theorem runCommand_rngIn {h : BitVec 64} {p : Bytes} {s t : State} (he : runCommand h p s = .next t) :
    t.rngIn = s.rngIn ∨ AnsweredEnc h s ∧ t.rngIn = s.rngIn.tail := by
  cases hd : decode h with
  | error e =>
    rw [runCommand_of_error hd] at he
    cases he
    exact .inl rfl
  | ok i =>
    rw [runCommand_of_decode hd] at he
    obtain ⟨henc, hunset, hother⟩ := oneRngRequestPerConfiguredEnc i _ t he
    by_cases hi : ∃ len, i = .enc len
    · obtain ⟨len, rfl⟩ := hi
      cases hc : configured s with
      | false => exact .inl (hunset len rfl hc)
      | true =>
        obtain ⟨a, ha⟩ : ∃ a, s.rngIn = a :: t.rngIn := henc len rfl hc
        exact .inr ⟨⟨⟨len, hd⟩, hc, by simp [ha]⟩, by simp [ha]⟩
    · exact .inl (hother fun len hlen => hi ⟨len, hlen⟩)

/-- So the complete run of a command takes no answer of the RNG, or it is an answered ENC and takes one. -/
theorem answersTaken_rng (h : BitVec 64) (p : Bytes) (s : State) :
    (answersTaken h p s).1 = 0 ∨ AnsweredEnc h s ∧ (answersTaken h p s).1 = 1 := by
  unfold answersTaken
  split
  · rename_i t he
    rcases runCommand_rngIn he with ht | ⟨henc, ht⟩
    · exact .inl (by simp [ht])
    · have hpos := List.length_pos_iff.2 henc.answered
      refine .inr ⟨henc, ?_⟩
      simp only [ht, List.length_tail]
      omega
  · exact .inl rfl
  · exact .inl rfl

/-- An abandoned command has taken no more than its complete run. -/
theorem resetAbandoning_rng (h : BitVec 64) (p : Bytes) (answers : Nat) (s : State) :
    (resetAbandoning h p answers s).rngIn = s.rngIn
    ∨ AnsweredEnc h s ∧ (resetAbandoning h p answers s).rngIn = s.rngIn.tail := by
  obtain ⟨r, k, -, hr, -, -, heq⟩ := resetAbandoning_cases h p answers s
  rw [heq]
  rcases Nat.eq_zero_or_pos r with rfl | hpos
  · exact .inl rfl
  · rcases answersTaken_rng h p s with h0 | ⟨henc, h1⟩
    · omega
    · obtain rfl : r = 1 := by omega
      exact .inr ⟨henc, by simp⟩

theorem AnsweredEnc.takes_first {h : BitVec 64} {s t : State} (he : AnsweredEnc h s) (ht : t.rngIn = s.rngIn.tail) :
    ∃ a, s.rngIn = a :: t.rngIn := by
  rw [ht]
  exact ⟨_, (List.cons_head_tail he.answered).symm⟩

/-- Settles O57, by the event a step takes: the idle step and a reset between commands take no answer, a command
or an abandoned one takes the first when it is an answered ENC. -/
theorem onlyAConfiguredEncUsesTheRngPort : Obligations.OnlyAConfiguredEncUsesTheRngPort := by
  intro s t he
  unfold step at he
  split at he
  case h_1 =>
    cases he
    exact .inl rfl
  case h_2 hd p es hev =>
    rcases runCommand_rngIn he with ht | ⟨henc, ht⟩
    · exact .inl ht
    · obtain ⟨len, hdec⟩ := henc.enc
      exact .inr ⟨henc.configured, henc.takes_first ht, hd, p, es, len, hdec, .inl hev⟩
  case h_3 =>
    cases he
    exact .inl rfl
  case h_4 hd p n es hev =>
    cases he
    rcases resetAbandoning_rng hd p n { s with hostIn := es } with ht | ⟨henc, ht⟩
    · exact .inl ht
    · obtain ⟨len, hdec⟩ := henc.enc
      exact .inr ⟨henc.configured, henc.takes_first ht, hd, p, es, len, hdec, .inr ⟨n, hev⟩⟩

end Sys2Proof.Machine
end

section
/-! The length trailer (20_memory.md rules R52 to R54; 45_mode_controller.md rules R192, R193). -/

namespace Sys2Proof.Machine

/-- The four bytes written for a length are its 32-bit number. -/
theorem leValue_trailerBytes (n : Nat) : leValue (trailerBytes n) = n % 2 ^ 32 := by
  simp only [trailerBytes, List.range, List.range.loop, List.map_cons, List.map_nil, leValue,
    BitVec.extractLsb'_toNat, BitVec.toNat_ofNat, Nat.shiftRight_eq_div_pow]
  omega

/-- Four bytes read as a signed number: their unsigned value, less `2^32` when bit 31 is set. -/
theorem trailerValue_eq {t : Bytes} (h : t.length = 4) :
    trailerValue t = (leValue t : Int) - if leValue t < 2 ^ 31 then 0 else 2 ^ 32 := by
  have hlt : leValue t < 2 ^ 32 := by simpa [h] using leValue_lt t
  rw [trailerValue, BitVec.toInt_eq_toNat_cond, BitVec.toNat_ofNat, Nat.mod_eq_of_lt hlt]
  by_cases hneg : leValue t < 2 ^ 31
  · rw [if_pos hneg, if_pos (by omega), Int.sub_zero]
  · rw [if_neg hneg, if_neg (by omega)]
    rfl

/-- A length that fits is read back from its trailer. -/
theorem trailerValue_trailerBytes {n : Nat} (h : n ≤ maxPlain) : trailerValue (trailerBytes n) = n := by
  rw [maxPlain] at h
  rw [trailerValue_eq (trailerBytes_length n), leValue_trailerBytes, Nat.mod_eq_of_lt (by omega), if_pos (by omega),
    Int.sub_zero]

/-- Settles O45: the read-back of a written length, and the value of four bytes, where bit 31 is the top bit of
byte 3. -/
theorem trailerIsSignedLittleEndian : Obligations.TrailerIsSignedLittleEndian := by
  refine ⟨fun n h => trailerValue_trailerBytes h, fun b0 b1 b2 b3 => ?_⟩
  have hval : leValue [b0, b1, b2, b3] =
      b0.toNat + b1.toNat * 2 ^ 8 + b2.toNat * 2 ^ 16 + b3.toNat * 2 ^ 24 := by
    simp only [leValue]
    omega
  have htop : leValue [b0, b1, b2, b3] < 2 ^ 31 ↔ b3.toNat < 128 := by
    have := b0.isLt
    have := b1.isLt
    have := b2.isLt
    omega
  rw [trailerValue_eq rfl, if_congr htop rfl rfl, hval]
  push_cast
  rfl

/-- Word `i` of a byte string is the little-endian word of its bytes `8i .. 8i+7` (rule R110). -/
theorem b2w_getD {b : Bytes} {i : Nat} (h : i < b.length / 8) :
    (b2w b).getD i 0 = leWord ((b.drop (8 * i)).take 8) := by
  simp [b2w, h]

/-- The upper half of a word is the number of its last four bytes. -/
theorem leWord_append_high {lo hi : Bytes} (hlo : lo.length = 4) (hhi : hi.length = 4) :
    (leWord (lo ++ hi)).extractLsb' 32 32 = BitVec.ofNat 32 (leValue hi) := by
  have h1 : leValue lo < 2 ^ 32 := by simpa [hlo] using leValue_lt lo
  have h2 : leValue hi < 2 ^ 32 := by simpa [hhi] using leValue_lt hi
  apply BitVec.eq_of_toNat_eq
  rw [leWord, leValue_append, hlo, BitVec.extractLsb'_toNat, BitVec.toNat_ofNat, BitVec.toNat_ofNat,
    Nat.shiftRight_eq_div_pow]
  omega

/-- Settles O46: the last four bytes of a block are the upper half of word 3. -/
theorem trailerIsTopOfLastWord : Obligations.TrailerIsTopOfLastWord := by
  intro b hb
  have hword : (b.drop (8 * 3)).take 8 = (b.drop 24).take 4 ++ b.drop 28 := by
    rw [List.take_of_length_le (by simp [hb]), show b.drop 28 = (b.drop 24).drop 4 by simp, List.take_append_drop]
  rw [b2w_getD (by omega), hword, leWord_append_high (by simp [hb]) (by simp [hb])]
  rfl

end Sys2Proof.Machine
end

section
/-! The padded buffer (20_memory.md rule R58; 45_mode_controller.md rules R191, R192). -/

namespace Sys2Proof.Machine

theorem paddedPlain_length (p : Bytes) : (paddedPlain p).length = 32 * ((p.length + 31) / 32 + 1) := by
  simp only [paddedPlain, List.length_append, zeros_length, trailerBytes_length]
  omega

theorem pad_nb_toNat {p : Bytes} {s : State} (hb : s.blen = 32) (hp : p.length ≤ maxPlain) :
    (pad p s).mode.nb.toNat = (p.length + 31) / 32 + 1 := by
  rw [maxPlain] at hp
  have hblen : s.blen.toNat = 32 := by simp [hb]
  rw [pad_mode, hblen, BitVec.toNat_ofNat]
  exact Nat.mod_eq_of_lt (by rw [padBlocks]; omega)

/-- Zero bytes cut short are fewer zero bytes. -/
theorem take_zeros (k n : Nat) : (zeros n).take k = zeros (min k n) := by
  simp [zeros]

theorem pad_pbuf {p : Bytes} {s : State} (hb : s.blen = 32) :
    (pad p s).mode.pbuf = Memory.ofBytes (p ++ zeros (32 * ((p.length + 31) / 32 + 1) - p.length)) := by
  simp [hb, padBlocks]

/-- The trailer takes the place of the last four of the zero bytes that `pad` adds. -/
theorem writeTrailer_pad_pbuf {p : Bytes} {s : State} (hb : s.blen = 32) (hp : p.length ≤ maxPlain) :
    (writeTrailer p.length (pad p s)).mode.pbuf = Memory.ofBytes (paddedPlain p) := by
  have hnb := pad_nb_toNat hb hp
  have hblen : s.blen.toNat = 32 := by simp [hb]
  rw [maxPlain] at hp
  have hlen : (p ++ zeros (32 * ((p.length + 31) / 32 + 1) - p.length)).length
      = 32 * ((p.length + 31) / 32 + 1) := by
    rw [List.length_append, zeros_length]
    omega
  rw [writeTrailer_mode, hnb, pad_pbuf hb, pad_blen, hblen,
    Memory.write_eq_ofBytes (Memory.wf_ofBytes (by omega)) _ _
      (by rw [trailerBytes_length, Memory.ofBytes_len, hlen]; omega),
    Memory.bytes_ofBytes, trailerBytes_length, List.drop_eq_nil_of_le (by omega), List.append_nil,
    List.take_append, List.take_of_length_le (by omega), take_zeros, paddedPlain, Nat.min_eq_left (by omega)]

/-- Settles O44, from the buffer and the block count that `pad` and `trenc` leave. -/
theorem paddedBufferLayout : Obligations.PaddedBufferLayout := by
  intro p s hb hp
  have hlen := paddedPlain_length p
  exact ⟨writeTrailer_pad_pbuf hb hp, pad_nb_toNat hb hp, hlen, by omega, by omega⟩

end Sys2Proof.Machine
end

section
/-! The fields of a header word and the word they make up (30_encoding.md rules R81 to R83). -/

namespace Sys2Proof

/-! What is read from a word that was packed. -/

theorem extractLsb'_middle {u v w : Nat} (hi : BitVec u) (mid : BitVec v) (lo : BitVec w) :
    (hi ++ mid ++ lo).extractLsb' w v = mid := by
  rw [BitVec.extractLsb'_append_eq_of_le le_rfl, Nat.sub_self, BitVec.extractLsb'_append_eq_right]

@[simp] theorem hdrOp_packL (o : Opcode) (len : BitVec 32) : hdrOp (packL o len) = o.byte :=
  BitVec.extractLsb'_append_eq_right

@[simp] theorem hdrReservedL_packL (o : Opcode) (len : BitVec 32) : hdrReservedL (packL o len) = 0 :=
  extractLsb'_middle ..

@[simp] theorem hdrLen_packL (o : Opcode) (len : BitVec 32) : hdrLen (packL o len) = len :=
  (BitVec.extractLsb'_append_eq_of_le (by decide)).trans BitVec.extractLsb'_append_eq_left

@[simp] theorem hdrOp_packX (o : Opcode) (lena : BitVec 24) (len : BitVec 32) : hdrOp (packX o lena len) = o.byte :=
  BitVec.extractLsb'_append_eq_right

@[simp] theorem hdrLena_packX (o : Opcode) (lena : BitVec 24) (len : BitVec 32) :
    hdrLena (packX o lena len) = lena :=
  extractLsb'_middle ..

@[simp] theorem hdrLen_packX (o : Opcode) (lena : BitVec 24) (len : BitVec 32) : hdrLen (packX o lena len) = len :=
  (BitVec.extractLsb'_append_eq_of_le (by decide)).trans BitVec.extractLsb'_append_eq_left

section FormatM

variable (o : Opcode) (row : BitVec 3) (col : BitVec 1) (len : BitVec 32)

@[simp] theorem hdrOp_packM : hdrOp (packM o row col len) = o.byte := BitVec.extractLsb'_append_eq_right

@[simp] theorem hdrRow_packM : hdrRow (packM o row col len) = row := extractLsb'_middle ..

@[simp] theorem hdrCol_packM : hdrCol (packM o row col len) = col :=
  (BitVec.extractLsb'_append_eq_of_le (by decide)).trans (extractLsb'_middle ..)

@[simp] theorem hdrReservedM_packM : hdrReservedM (packM o row col len) = 0 :=
  (BitVec.extractLsb'_append_eq_of_le (by decide)).trans <|
    (BitVec.extractLsb'_append_eq_of_le (by decide)).trans (extractLsb'_middle ..)

@[simp] theorem hdrLen_packM : hdrLen (packM o row col len) = len :=
  (BitVec.extractLsb'_append_eq_of_le (by decide)).trans <|
    (BitVec.extractLsb'_append_eq_of_le (by decide)).trans <|
      (BitVec.extractLsb'_append_eq_of_le (by decide)).trans BitVec.extractLsb'_append_eq_left

end FormatM

/-! What is packed from the fields read from a word: neighbouring fields join to the whole word. -/

theorem packX_of_fields {h : BitVec 64} {o : Opcode} (hop : hdrOp h = o.byte) :
    packX o (hdrLena h) (hdrLen h) = h := by
  have hjoin : hdrLen h ++ hdrLena h = h.extractLsb' 8 56 := BitVec.extractLsb'_append_extractLsb'_eq_extractLsb' rfl
  calc packX o (hdrLena h) (hdrLen h) = hdrLen h ++ hdrLena h ++ hdrOp h := by rw [hop, packX]
    _ = h.extractLsb' 8 56 ++ h.extractLsb' 0 8 := congrArg (· ++ hdrOp h) hjoin
    _ = h := (BitVec.extractLsb'_append_extractLsb'_eq_extractLsb' rfl).trans BitVec.extractLsb'_eq_self

theorem packL_of_fields {h : BitVec 64} {o : Opcode} (hop : hdrOp h = o.byte) (hres : hdrReservedL h = 0) :
    packL o (hdrLen h) = h := by
  have hlena : hdrLena h = 0 := hres
  calc packL o (hdrLen h) = packX o (hdrLena h) (hdrLen h) := by rw [hlena]; rfl
    _ = h := packX_of_fields hop

theorem packM_of_fields {h : BitVec 64} {o : Opcode} (hop : hdrOp h = o.byte) (hres : hdrReservedM h = 0) :
    packM o (hdrRow h) (hdrCol h) (hdrLen h) = h := by
  have hhigh : hdrLen h ++ hdrReservedM h = h.extractLsb' 12 52 :=
    BitVec.extractLsb'_append_extractLsb'_eq_extractLsb' rfl
  have hcol : h.extractLsb' 12 52 ++ hdrCol h = h.extractLsb' 11 53 :=
    BitVec.extractLsb'_append_extractLsb'_eq_extractLsb' rfl
  have hrow : h.extractLsb' 11 53 ++ hdrRow h = h.extractLsb' 8 56 :=
    BitVec.extractLsb'_append_extractLsb'_eq_extractLsb' rfl
  calc packM o (hdrRow h) (hdrCol h) (hdrLen h)
      = hdrLen h ++ hdrReservedM h ++ hdrCol h ++ hdrRow h ++ hdrOp h := by rw [hop, hres]; rfl
    _ = h.extractLsb' 12 52 ++ hdrCol h ++ hdrRow h ++ hdrOp h :=
      congrArg (· ++ hdrCol h ++ hdrRow h ++ hdrOp h) hhigh
    _ = h.extractLsb' 11 53 ++ hdrRow h ++ hdrOp h := congrArg (· ++ hdrRow h ++ hdrOp h) hcol
    _ = h.extractLsb' 8 56 ++ hdrOp h := congrArg (· ++ hdrOp h) hrow
    _ = h := (BitVec.extractLsb'_append_extractLsb'_eq_extractLsb' rfl).trans BitVec.extractLsb'_eq_self

end Sys2Proof
end

section
/-! The rows of the opcode map (30_encoding.md rule R85): what the decoder reads under each row, and that decoding
and encoding undo each other. -/

namespace Sys2Proof

theorem Opcode.ofByte_eq_some_iff {b : Byte} {o : Opcode} : Opcode.ofByte b = some o ↔ b = o.byte := by
  constructor
  · intro h
    have hb := List.find?_some h
    exact (eq_of_beq hb).symm
  · rintro rfl
    cases o <;> rfl

/-- The reserved bits of the row's format are 0 (rules R81 to R83); format X has none. -/
def Opcode.ReservedClear (o : Opcode) (h : BitVec 64) : Prop :=
  match o.format with
  | .L => hdrReservedL h = 0
  | .X => True
  | .M => hdrReservedM h = 0

/-- The row's command with the fields of the header (rules R81 to R85). -/
def Opcode.command (o : Opcode) (h : BitVec 64) : Instr :=
  match o with
  | .setkey   => .setkey (hdrLen h)
  | .settweak => .settweak (hdrLen h)
  | .xora     => .xora (hdrLena h) (hdrLen h)
  | .encb     => .encb (hdrLen h)
  | .decb     => .decb (hdrLen h)
  | .enc      => .enc (hdrLen h)
  | .dec      => .dec (hdrLen h)
  | .mix      => .mix (hdrRow h) (hdrCol h) (hdrLen h)
  | .unmix    => .unmix (hdrRow h) (hdrCol h) (hdrLen h)
  | .perm     => .perm (hdrLen h)
  | .unperm   => .unperm (hdrLen h)
  | .ksx      => .ksx (hdrLen h)

@[simp] theorem Opcode.opcode_command (o : Opcode) (h : BitVec 64) : (o.command h).opcode = o := by
  cases o <;> rfl

@[simp] theorem Opcode.len_command (o : Opcode) (h : BitVec 64) : (o.command h).len = hdrLen h := by
  cases o <;> rfl

/-! The decoder: no row has the header's opcode, a reserved bit is 1, or the row's command is read. -/

theorem decode_of_ofByte_none {h : BitVec 64} (ho : Opcode.ofByte (hdrOp h) = none) :
    decode h = .error (.unknownOpcode (hdrOp h)) := by
  simp only [decode, ho]

theorem decode_of_reservedClear {h : BitVec 64} {o : Opcode} (ho : hdrOp h = o.byte) (hr : o.ReservedClear h) :
    decode h = .ok (o.command h) := by
  rw [← Opcode.ofByte_eq_some_iff] at ho
  cases o
  case xora => simp only [decode, ho, Opcode.command]
  all_goals exact (by simp only [decode, ho]; exact if_pos hr)

theorem decode_of_not_reservedClear {h : BitVec 64} {o : Opcode} (ho : hdrOp h = o.byte)
    (hr : ¬ o.ReservedClear h) : decode h = .error .reservedBits := by
  rw [← Opcode.ofByte_eq_some_iff] at ho
  cases o
  case xora => exact absurd trivial hr
  all_goals exact (by simp only [decode, ho]; exact if_neg hr)

theorem decode_eq_ok_iff {h : BitVec 64} {i : Instr} :
    decode h = .ok i ↔ ∃ o : Opcode, hdrOp h = o.byte ∧ o.ReservedClear h ∧ i = o.command h := by
  constructor
  · intro hd
    cases ho : Opcode.ofByte (hdrOp h) with
    | none =>
      rw [decode_of_ofByte_none ho] at hd
      cases hd
    | some o =>
      rw [Opcode.ofByte_eq_some_iff] at ho
      by_cases hr : o.ReservedClear h
      · rw [decode_of_reservedClear ho hr] at hd
        exact ⟨o, ho, hr, (Except.ok.inj hd).symm⟩
      · rw [decode_of_not_reservedClear ho hr] at hd
        cases hd
  · rintro ⟨o, ho, hr, rfl⟩
    exact decode_of_reservedClear ho hr

/-! The encoder is the other way round. -/

theorem encode_command {h : BitVec 64} {o : Opcode} (ho : hdrOp h = o.byte) (hr : o.ReservedClear h) :
    encode (o.command h) = h := by
  cases o
  case xora => exact packX_of_fields ho
  case mix | unmix => exact packM_of_fields ho hr
  all_goals exact packL_of_fields ho hr

theorem hdrOp_encode (i : Instr) : hdrOp (encode i) = i.opcode.byte := by
  cases i
  case xora => exact hdrOp_packX ..
  case mix | unmix => exact hdrOp_packM ..
  all_goals exact hdrOp_packL ..

theorem reservedClear_encode (i : Instr) : i.opcode.ReservedClear (encode i) := by
  cases i
  case xora => trivial
  case mix | unmix => exact hdrReservedM_packM ..
  all_goals exact hdrReservedL_packL ..

theorem command_encode (i : Instr) : i.opcode.command (encode i) = i := by
  cases i <;> simp [Instr.opcode, Opcode.command, encode]

theorem decode_encode (i : Instr) : decode (encode i) = .ok i := by
  rw [decode_of_reservedClear (hdrOp_encode i) (reservedClear_encode i), command_encode]

theorem encode_of_decode {h : BitVec 64} {i : Instr} (hd : decode h = .ok i) : encode i = h := by
  obtain ⟨o, ho, hr, rfl⟩ := decode_eq_ok_iff.1 hd
  exact encode_command ho hr

theorem hdrLen_of_decode {h : BitVec 64} {i : Instr} (hd : decode h = .ok i) : hdrLen h = i.len := by
  obtain ⟨o, -, -, rfl⟩ := decode_eq_ok_iff.1 hd
  exact (o.len_command h).symm

/-- The 8 bytes of a header word, sent before a payload, are read back as the word's command. -/
theorem decodeBytes_wordBytes_append {h : BitVec 64} {i : Instr} (hd : decode h = .ok i) (payload : Bytes) :
    decodeBytes (Machine.wordBytes h ++ payload) = .ok (i, payload) := by
  have hlen : ¬ (Machine.wordBytes h ++ payload).length < 8 := by simp
  have htake : (Machine.wordBytes h ++ payload).take 8 = Machine.wordBytes h := List.take_left' (by simp)
  have hdrop : (Machine.wordBytes h ++ payload).drop 8 = payload := List.drop_left' (by simp)
  rw [decodeBytes, if_neg hlen, htake, hdrop, Machine.leWord_wordBytes, hd]

/-- Settles O2: every field is read where it was packed, from the word and from its 8 bytes. -/
theorem decodeOfEncode : Obligations.DecodeOfEncode := by
  intro i payload
  exact ⟨decode_encode i, decodeBytes_wordBytes_append (decode_encode i) payload⟩

/-- Settles O3: the fields and the bits fixed by the row make up the whole header. -/
theorem encodeOfDecode : Obligations.EncodeOfDecode := by
  intro h i hd
  exact encode_of_decode hd

/-! Match and mask. -/

theorem encode_masked (i : Instr) : encode i &&& i.opcode.tableMask = i.opcode.tableMatch := by
  cases i
  case xora => exact Laws.packX_masked _ _ _ rfl
  case mix | unmix => exact Laws.packM_masked _ _ _ _ rfl
  all_goals exact Laws.packL_masked _ _ rfl

/-- A match under the mask is a match of every field under its part of the mask. -/
theorem extractLsb'_of_masked {h : BitVec 64} {o : Opcode} (hm : h &&& o.tableMask = o.tableMatch) (start n : Nat) :
    h.extractLsb' start n &&& o.tableMask.extractLsb' start n = o.tableMatch.extractLsb' start n := by
  rw [← BitVec.extractLsb'_and, hm]

theorem hdrOp_of_masked {h : BitVec 64} {o : Opcode} (hm : h &&& o.tableMask = o.tableMatch) :
    hdrOp h = o.byte := by
  have hop := extractLsb'_of_masked hm 0 8
  have hones : o.tableMask.extractLsb' 0 8 = BitVec.allOnes 8 := by cases o <;> decide
  have hbyte : o.tableMatch.extractLsb' 0 8 = o.byte := by cases o <;> decide
  rwa [hones, hbyte, BitVec.and_allOnes] at hop

theorem reservedClear_of_masked {h : BitVec 64} {o : Opcode} (hm : h &&& o.tableMask = o.tableMatch) :
    o.ReservedClear h := by
  cases o
  case xora => trivial
  case mix | unmix => exact BitVec.and_allOnes.symm.trans (extractLsb'_of_masked hm 12 20)
  all_goals exact BitVec.and_allOnes.symm.trans (extractLsb'_of_masked hm 8 24)

/-- Settles O4: the mask of a row covers its opcode and its reserved bits and nothing else. -/
theorem decodesExactlyTheTableRows : Obligations.DecodesExactlyTheTableRows := by
  intro h o
  constructor
  · intro hm
    exact ⟨o.command h, decode_of_reservedClear (hdrOp_of_masked hm) (reservedClear_of_masked hm), o.opcode_command h⟩
  · rintro ⟨i, hd, rfl⟩
    have hmasked := encode_masked i
    rwa [encode_of_decode hd] at hmasked

/-- Settles O1: `decode` evaluated on the sixteen words. -/
theorem writtenHeadersDecode : Obligations.WrittenHeadersDecode := by
  unfold Obligations.WrittenHeadersDecode
  decide

end Sys2Proof
end

section
/-! Illegal headers and the reason in `STATUS` (30_encoding.md rule R87; 60_exceptions.md rules R232, R234): what
rule R87 says of a header's bits is what the decoder and the length checks say, and a command fails with `ILLEGAL`
exactly where its length check does. -/

namespace Sys2Proof.Machine

/-! Headers. -/

theorem mem_opcodeBytes_iff {b : Byte} :
    b ∈ [0x01, 0x02, 0x03, 0x10, 0x11, 0x18, 0x19, 0x20, 0x21, 0x22, 0x23, 0x24] ↔ ∃ o : Opcode, b = o.byte := by
  have hall : ∀ o : Opcode, o ∈ Opcode.all := by intro o; cases o <;> decide
  have hbytes : [0x01, 0x02, 0x03, 0x10, 0x11, 0x18, 0x19, 0x20, 0x21, 0x22, 0x23, 0x24] = Opcode.all.map Opcode.byte :=
    rfl
  rw [hbytes, List.mem_map]
  exact ⟨fun ⟨o, _, ho⟩ => ⟨o, ho.symm⟩, fun ⟨o, ho⟩ => ⟨o, hall o, ho.symm⟩⟩

theorem headerIllegal_of_no_opcode {h : BitVec 64} (ho : ¬ ∃ o : Opcode, hdrOp h = o.byte) : HeaderIllegal h :=
  .inl (mt mem_opcodeBytes_iff.1 ho)

/-- Within a row a header is illegal by a reserved bit or by the length the row requires. -/
theorem headerIllegal_iff_of_opcode {h : BitVec 64} {o : Opcode} (ho : hdrOp h = o.byte) :
    HeaderIllegal h ↔ ¬ o.ReservedClear h ∨ ¬ (o.command h).WF := by
  rw [hdrOp] at ho
  simp only [HeaderIllegal, ho]
  cases o <;>
    simp [Opcode.byte, Opcode.ReservedClear, Opcode.format, Opcode.command, Instr.WF, Instr.check, hdrReservedL,
      hdrReservedM, hdrLen, hdrLena]

theorem headerIllegal_iff_of_decode {h : BitVec 64} {i : Instr} (hd : decode h = .ok i) :
    HeaderIllegal h ↔ ¬ i.WF := by
  obtain ⟨o, ho, hr, rfl⟩ := decode_eq_ok_iff.1 hd
  simp [headerIllegal_iff_of_opcode ho, hr]

theorem headerIllegal_of_error {h : BitVec 64} {e : DecodeError} (hd : decode h = .error e) : HeaderIllegal h := by
  by_cases hop : ∃ o : Opcode, hdrOp h = o.byte
  · obtain ⟨o, ho⟩ := hop
    refine (headerIllegal_iff_of_opcode ho).2 (.inl fun hr => ?_)
    rw [decode_of_reservedClear ho hr] at hd
    cases hd
  · exact headerIllegal_of_no_opcode hop

/-! Commands. -/

theorem exec_of_not_wf {i : Instr} (h : ¬ i.WF) (s : State) : exec i s = failWith .illegal s := by
  cases i
  case setkey | settweak | encb | decb | enc | dec => exact absurd rfl h
  all_goals
    simp only [Instr.WF, Instr.check, ite_eq_left_iff, ite_eq_right_iff, reduceCtorEq, imp_false, not_not] at h
    exact if_pos h

theorem Reason.eq_illegal_of_code {r : Reason} (h : r.code = Reason.illegal.code) : r = .illegal := by
  cases r
  case illegal => rfl
  all_goals cases h

/-- Where the outcome is a next state, `STATUS` holds a reason that rule R232 gives the command, and `ILLEGAL` only
for a length its encoding forbids. -/
def EndsAsTabled (i : Instr) (o : Host.Outcome State Fault Refusal) : Prop :=
  ∀ t, o = .next t → ∃ r ∈ mayRaise i, reasonField t.status = r.code ∧ (r = .illegal → ¬ i.WF)

theorem EndsAsTabled.fault {i : Instr} (f : Fault) : EndsAsTabled i (.fault f) := fun _ h => by cases h

theorem EndsAsTabled.failWith {i : Instr} {r : Reason} (s : State) (hr : r ∈ mayRaise i := by simp [mayRaise])
    (hi : r ≠ .illegal := by decide) : EndsAsTabled i (failWith r s) := by
  rintro t ⟨⟩
  exact ⟨r, hr, reasonField_statusWord .., fun h => absurd h hi⟩

theorem EndsAsTabled.illegal {i : Instr} (s : State) (h : ¬ i.WF) :
    EndsAsTabled i (Machine.failWith .illegal s) := by
  rintro t ⟨⟩
  exact ⟨.illegal, by cases i <;> simp [mayRaise], reasonField_statusWord .., fun _ => h⟩

theorem EndsAsTabled.succeedWith {i : Instr} (out : Bytes) (s : State) : EndsAsTabled i (succeedWith out s) := by
  rintro t ⟨⟩
  exact ⟨.none, by cases i <;> simp [mayRaise], reasonField_statusWord .., by simp⟩

theorem execSetkey_endsAsTabled (len : BitVec 32) (s : State) : EndsAsTabled (.setkey len) (execSetkey len s) := by
  unfold execSetkey
  split
  · exact .succeedWith _ _
  · split
    · split
      · exact .fault _
      · exact .succeedWith _ _
    · exact .failWith _

theorem execSettweak_endsAsTabled (len : BitVec 32) (s : State) :
    EndsAsTabled (.settweak len) (execSettweak len s) := by
  unfold execSettweak
  split
  · split
    · exact .fault _
    · exact .succeedWith _ _
  · exact .failWith _

theorem execXora_endsAsTabled (lena : BitVec 24) (len : BitVec 32) (s : State) :
    EndsAsTabled (.xora lena len) (execXora lena len s) := by
  unfold execXora
  split
  · rename_i hlen
    exact .illegal _ (by simpa [Instr.check] using hlen)
  · split
    · exact .fault _
    · exact .succeedWith _ _

theorem execEncb_endsAsTabled (len : BitVec 32) (s : State) : EndsAsTabled (.encb len) (execEncb len s) := by
  unfold execEncb
  split
  · exact .failWith _
  · split
    · exact .failWith _
    · split
      · exact .fault _
      · dsimp only
        split
        · exact .failWith _
        · exact .succeedWith _ _

theorem execDecb_endsAsTabled (len : BitVec 32) (s : State) : EndsAsTabled (.decb len) (execDecb len s) := by
  unfold execDecb
  split
  · exact .failWith _
  · split
    · exact .failWith _
    · split
      · exact .fault _
      · dsimp only
        split
        · exact .failWith _
        · exact .succeedWith _ _

theorem execEnc_endsAsTabled (len : BitVec 32) (s : State) : EndsAsTabled (.enc len) (execEnc len s) := by
  unfold execEnc
  split
  · exact .failWith _
  · split
    · exact .fault _
    · exact .failWith _
    · split
      · exact .failWith _
      · split
        · exact .fault _
        · split
          · exact .failWith _
          · exact .succeedWith _ _

theorem execDec_endsAsTabled (len : BitVec 32) (s : State) : EndsAsTabled (.dec len) (execDec len s) := by
  unfold execDec
  split
  · exact .failWith _
  · split
    · exact .failWith _
    · split
      · exact .fault _
      · dsimp only
        split
        · exact .failWith _
        · split
          · exact .failWith _
          · split
            · exact .failWith _
            · split
              · exact .failWith _
              · exact .succeedWith _ _

theorem exec_endsAsTabled (i : Instr) (s : State) : EndsAsTabled i (exec i s) := by
  cases i with
  | setkey len => exact execSetkey_endsAsTabled len s
  | settweak len => exact execSettweak_endsAsTabled len s
  | xora lena len => exact execXora_endsAsTabled lena len s
  | encb len => exact execEncb_endsAsTabled len s
  | decb len => exact execDecb_endsAsTabled len s
  | enc len => exact execEnc_endsAsTabled len s
  | dec len => exact execDec_endsAsTabled len s
  | mix | unmix | perm | unperm | ksx =>
    simp only [exec, execMix, execUnmix, execPerm, execUnperm, execKsx]
    split
    · rename_i hlen
      exact .illegal _ (by simpa [Instr.check] using hlen)
    · split
      · exact .fault _
      · exact .succeedWith _ _

/-- Settles O6: the decoder or the length check rejects the header, and either way the command is `raiseFail`. -/
theorem illegalHeaderFails : Obligations.IllegalHeaderFails := by
  intro s h p es he hill
  refine ⟨(presentPayload (hdrLen h) p s).ibuf, rfl, ?_⟩
  rw [step_of_command he]
  cases hd : decode h with
  | ok i =>
    rw [runCommand_of_decode hd, exec_of_not_wf ((headerIllegal_iff_of_decode hd).1 hill)]
    rfl
  | error e =>
    rw [runCommand_of_error hd]
    rfl

/-- Settles O7: a legal header is one of a command that passes its length check. -/
theorem legalHeaderIsNotIllegal : Obligations.LegalHeaderIsNotIllegal := by
  intro s t h p es he hleg hstep
  rw [step_of_command he] at hstep
  cases hd : decode h with
  | ok i =>
    rw [headerIllegal_iff_of_decode hd, not_not] at hleg
    rw [runCommand_of_decode hd] at hstep
    obtain ⟨r, -, hcode, hr⟩ := exec_endsAsTabled i _ t hstep
    rw [hcode]
    exact fun hc => hr (Reason.eq_illegal_of_code hc) hleg
  | error e => exact absurd (headerIllegal_of_error hd) hleg

/-- Settles O5: `LEN` of the header is the command's, and `IBUF` takes that many bytes of the payload. -/
theorem stepRunsTheDecodedCommand : Obligations.StepRunsTheDecodedCommand := by
  intro s h p es i he hd
  refine ⟨(presentPayload (hdrLen h) p s).ibuf, ?_, ?_, presented_wf .., fun hp => ?_⟩
  · rw [step_of_command he, runCommand_of_decode hd]
    rfl
  · rw [← hdrLen_of_decode hd]
    rfl
  · rw [presented_bytes _ _ _ (by rwa [hdrLen_of_decode hd]), Memory.bytes_ofBytes]

end Sys2Proof.Machine
end

section
/-! The word codec (40_word_codec.md rules R110 to R112): a byte string is read eight bytes at a time, and one group
of eight bytes is one word. -/

namespace Sys2Proof.Machine

/-- The recursion of rule R110 over a byte string: fewer than 8 bytes are left, or a group of 8 bytes comes first. -/
theorem byteGroups_induction {P : Bytes → Prop} (short : ∀ b, b.length < 8 → P b)
    (group : ∀ g b, g.length = 8 → P b → P (g ++ b)) (b : Bytes) : P b := by
  by_cases h : b.length < 8
  · exact short b h
  · rw [← List.take_append_drop 8 b]
    exact group _ _ (by simp; omega) (byteGroups_induction short group (b.drop 8))
termination_by b.length
decreasing_by simp; omega

theorem b2w_of_short {b : Bytes} (h : b.length < 8) : b2w b = [] := by simp [b2w, Nat.div_eq_of_lt h]

/-- A leading group of 8 bytes is the first word. -/
theorem b2w_group_append {g : Bytes} (h : g.length = 8) (b : Bytes) : b2w (g ++ b) = leWord g :: b2w b := by
  have hcount : (g ++ b).length / 8 = b.length / 8 + 1 := by
    rw [List.length_append, h]
    omega
  have hrest (i : Nat) : (g ++ b).drop (8 * (i + 1)) = b.drop (8 * i) := by
    rw [show 8 * (i + 1) = g.length + 8 * i by omega, List.drop_length_add_append]
  rw [b2w, hcount, List.range_succ_eq_map, List.map_cons, List.map_map, Nat.mul_zero, List.drop_zero,
    List.take_left' h]
  simp [b2w, Function.comp_def, hrest]

@[simp] theorem b2w_w2b (w : List Word) : b2w (w2b w) = w := by
  induction w with
  | nil => rfl
  | cons x xs ih => rw [w2b_cons, b2w_group_append (wordBytes_length x), leWord_wordBytes, ih]

/-- A trailing partial group is lost (rule R112). -/
theorem w2b_b2w (b : Bytes) : w2b (b2w b) = b.take (8 * (b.length / 8)) := by
  induction b using byteGroups_induction with
  | short b h => simp [b2w_of_short h, Nat.div_eq_of_lt h]
  | group g b h ih =>
    have hcut : 8 * ((g ++ b).length / 8) = g.length + 8 * (b.length / 8) := by
      rw [List.length_append, h]
      omega
    rw [b2w_group_append h, w2b_cons, wordBytes_leWord g h, ih, hcut, List.take_length_add_append]

theorem w2b_b2w_eq_self_iff (b : Bytes) : w2b (b2w b) = b ↔ b.length % 8 = 0 := by
  rw [w2b_b2w, List.take_eq_self_iff]
  omega

theorem b2w_append (a c : Bytes) (h : a.length % 8 = 0) : b2w (a ++ c) = b2w a ++ b2w c := by
  induction a using byteGroups_induction with
  | short a ha =>
    obtain rfl : a = [] := List.length_eq_zero_iff.1 (by omega)
    rfl
  | group g a hg ih =>
    have ha : a.length % 8 = 0 := by
      rw [List.length_append, hg] at h
      omega
    rw [List.append_assoc, b2w_group_append hg, b2w_group_append hg, ih ha, List.cons_append]

/-! XOR of words is XOR of their bytes. -/

theorem wordBytes_xor (x y : Word) : wordBytes (x ^^^ y) = xorBytes (wordBytes x) (wordBytes y) := by
  simp [wordBytes, wordByte, xorBytes, List.zipWith_map, BitVec.extractLsb'_xor]

theorem leWord_xorBytes {g h : Bytes} (hg : g.length = 8) (hh : h.length = 8) :
    leWord (xorBytes g h) = leWord g ^^^ leWord h := by
  calc leWord (xorBytes g h)
      = leWord (xorBytes (wordBytes (leWord g)) (wordBytes (leWord h))) := by
        rw [wordBytes_leWord g hg, wordBytes_leWord h hh]
    _ = leWord g ^^^ leWord h := by rw [← wordBytes_xor, leWord_wordBytes]

theorem xorBytes_append {g h : Bytes} (hlen : g.length = h.length) (a c : Bytes) :
    xorBytes (g ++ a) (h ++ c) = xorBytes g h ++ xorBytes a c := List.zipWith_append hlen

theorem b2w_xorBytes (a c : Bytes) (h : a.length = c.length) :
    b2w (xorBytes a c) = List.zipWith (· ^^^ ·) (b2w a) (b2w c) := by
  induction a using byteGroups_induction generalizing c with
  | short a ha => rw [b2w_of_short ha, b2w_of_short (by rw [xorBytes_length]; omega), List.zipWith_nil_left]
  | group g a hg ih =>
    rw [List.length_append, hg] at h
    have hc : (c.take 8).length = 8 := by rw [List.length_take]; omega
    have htail := ih (c.drop 8) (by rw [List.length_drop]; omega)
    rw [← List.take_append_drop 8 c, xorBytes_append (by rw [hg, hc]),
      b2w_group_append (by rw [xorBytes_length, hg, hc, Nat.min_self]), b2w_group_append hg, b2w_group_append hc,
      leWord_xorBytes hg hc, htail, List.zipWith_cons_cons]

/-- Settles O27: each law by induction over the words or over the groups of 8 bytes. -/
theorem codecLaws : Obligations.CodecLaws :=
  ⟨b2w_w2b, w2b_b2w, w2b_b2w_eq_self_iff, b2w_append, b2w_xorBytes⟩

/-! Byte order. -/

theorem wordByte_leWord {g : Bytes} (hg : g.length = 8) {k : Nat} (hk : k < 8) :
    wordByte (leWord g) k = g.getD k 0 := by
  have hk' : (wordBytes (leWord g)).getD k 0 = wordByte (leWord g) k := by simp [wordBytes, hk]
  rw [← hk', wordBytes_leWord g hg]

/-- Bits `8k+7 : 8k` of word `i` are byte `8i + k` (rule R110). -/
theorem b2w_byteOrder {b : Bytes} {i k : Nat} (hi : i < b.length / 8) (hk : k < 8) :
    ((b2w b).getD i 0).extractLsb' (8 * k) 8 = b.getD (8 * i + k) 0 := by
  have hgroup : ((b.drop (8 * i)).take 8).length = 8 := by
    rw [List.length_take, List.length_drop]
    omega
  calc ((b2w b).getD i 0).extractLsb' (8 * k) 8
      = wordByte (leWord ((b.drop (8 * i)).take 8)) k := by rw [b2w_getD hi, wordByte]
    _ = ((b.drop (8 * i)).take 8).getD k 0 := wordByte_leWord hgroup hk
    _ = b.getD (8 * i + k) 0 := by simp [hk]

/-- Settles O28: the byte order of `w2b w` is that of `b2w`, which reads the words `w` back from these bytes. -/
theorem wordByteOrder : Obligations.WordByteOrder := by
  refine ⟨fun b => ⟨b2w_length b, fun i k hi hk => b2w_byteOrder hi hk⟩,
    fun w => ⟨w2b_length w, fun i k hi hk => ?_⟩⟩
  have hword : i < (w2b w).length / 8 := by
    rw [w2b_length]
    omega
  rw [← b2w_byteOrder hword hk, b2w_w2b]

end Sys2Proof.Machine
end

section
/-! The arithmetic of the round engine and its primitives on words (41_round_primitives.md rules R120 to R127,
R132). -/

namespace Sys2Proof.Machine

/-! Rotation (rule R120), bit by bit and as a number. -/

theorem rotr_getLsbD (a : Word) (r : BitVec 6) {i : Nat} (hi : i < 64) :
    (rotr a r).getLsbD i = a.getLsbD ((i + r.toNat) % 64) := by
  have hr : r.toNat < 64 := r.isLt
  rw [rotr, BitVec.getLsbD_rotateRight_of_lt hr]
  by_cases hwrap : i < 64 - r.toNat
  · rw [show (i + r.toNat) % 64 = r.toNat + i by omega]
    simp [hwrap]
  · rw [show (i + r.toNat) % 64 = i - (64 - r.toNat) by omega]
    simp [hwrap, hi]

theorem rotl_getLsbD (a : Word) (r : BitVec 6) {i : Nat} (hi : i < 64) :
    (rotl a r).getLsbD i = a.getLsbD ((i + (64 - r.toNat)) % 64) := by
  have hr : r.toNat < 64 := r.isLt
  rw [rotl, BitVec.getLsbD_rotateLeft_of_le hr]
  by_cases hwrap : i < r.toNat
  · rw [show (i + (64 - r.toNat)) % 64 = 64 - r.toNat + i by omega]
    simp [hwrap]
  · rw [show (i + (64 - r.toNat)) % 64 = i - r.toNat by omega]
    simp [hwrap, hi]

/-- The same read forwards: bit `i` of the word goes to place `(i + r) mod 64`. -/
theorem rotl_getLsbD_add (a : Word) (r : BitVec 6) {i : Nat} (hi : i < 64) :
    (rotl a r).getLsbD ((i + r.toNat) % 64) = a.getLsbD i := by
  have hr : r.toNat < 64 := r.isLt
  rw [rotl_getLsbD a r (by omega)]
  congr 1
  omega

@[simp] theorem rotr_rotl (a : Word) (r : BitVec 6) : rotr (rotl a r) r = a := by
  apply BitVec.eq_of_getLsbD_eq
  intro i hi
  rw [rotr_getLsbD _ r hi, rotl_getLsbD_add a r hi]

@[simp] theorem rotl_rotr (a : Word) (r : BitVec 6) : rotl (rotr a r) r = a := by
  have hr : r.toNat < 64 := r.isLt
  apply BitVec.eq_of_getLsbD_eq
  intro i hi
  rw [rotl_getLsbD _ r hi, rotr_getLsbD a r (by omega)]
  congr 1
  omega

theorem rotr_eq_rotl (a : Word) (r : BitVec 6) : rotr a r = rotl a (BitVec.ofNat 6 ((64 - r.toNat) % 64)) := by
  have hr : r.toNat < 64 := r.isLt
  apply BitVec.eq_of_getLsbD_eq
  intro i hi
  rw [rotr_getLsbD a r hi, rotl_getLsbD a _ hi, BitVec.toNat_ofNat]
  congr 1
  omega

/-- The bits that stay fill the places from `r` up, and the bits that leave at the top fill the `r` places below
them, so their OR is their sum. -/
theorem rotl_toNat (a : Word) (r : BitVec 6) :
    (rotl a r).toNat = (a.toNat * 2 ^ r.toNat) % 2 ^ 64 + a.toNat / 2 ^ (64 - r.toNat) := by
  have hr : r.toNat < 64 := r.isLt
  have hsplit : 2 ^ 64 = 2 ^ r.toNat * 2 ^ (64 - r.toNat) := by rw [← pow_add, Nat.add_sub_of_le hr.le]
  have hstay : a.toNat * 2 ^ r.toNat % 2 ^ 64 = 2 ^ r.toNat * (a.toNat % 2 ^ (64 - r.toNat)) := by
    rw [hsplit, Nat.mul_comm, Nat.mul_mod_mul_left]
  have hleave : a.toNat / 2 ^ (64 - r.toNat) < 2 ^ r.toNat := by
    rw [Nat.div_lt_iff_lt_mul (by positivity), ← hsplit]
    exact a.isLt
  rw [rotl, BitVec.toNat_rotateLeft, Nat.mod_eq_of_lt hr, Nat.shiftLeft_eq, Nat.shiftRight_eq_div_pow, hstay,
    Nat.two_pow_add_eq_or_of_lt hleave]

/-- Settles O29: a rotation moves each bit to its place around the word, and the laws compare the places. -/
theorem arithmeticLaws : Obligations.ArithmeticLaws := by
  constructor
  · intro a b
    refine ⟨BitVec.toNat_add a b, ?_, BitVec.add_sub_cancel a b, BitVec.sub_add_cancel a b, xor_cancel_right a b⟩
    rw [BitVec.toNat_sub, Nat.add_comm]
  · intro a r
    exact ⟨fun i hi => rotl_getLsbD_add a r hi, rotl_toNat a r, fun i hi => rotr_getLsbD a r hi, rotr_rotl a r,
      rotl_rotr a r, rotr_eq_rotl a r⟩

/-! MIX (rules R122, R123). -/

theorem unmix_mix (t : RotTable) (a b : Word) (d j : Nat) :
    unmix t (mix t a b d j).1 (mix t a b d j).2 d j = (a, b) := by
  simp only [mix, unmix]
  rw [BitVec.xor_comm, xor_cancel_right, rotr_rotl, BitVec.add_sub_cancel]

theorem mix_unmix (t : RotTable) (a b : Word) (d j : Nat) :
    mix t (unmix t a b d j).1 (unmix t a b d j).2 d j = (a, b) := by
  simp only [mix, unmix]
  rw [BitVec.sub_add_cancel, rotl_rotr, BitVec.xor_comm a b, xor_cancel_right]

/-- Settles O30: each step of `unmix` undoes a step of `mix`, in the reverse order. -/
theorem mixAndUnmixAreInverse : Obligations.MixAndUnmixAreInverse := by
  intro t d j a b
  exact ⟨unmix_mix t a b d j, mix_unmix t a b d j⟩

/-! The word permutation (rules R124, R125). -/

theorem wordAt_perm (f : Quad) {i : Nat} (h : i < 4) : wordAt (perm f) i = wordAt f piTable[i] := by
  interval_cases i <;> rfl

theorem unperm_eq_perm (f : Quad) : unperm f = perm f := rfl

@[simp] theorem perm_perm (f : Quad) : perm (perm f) = f := rfl

/-- The table is its own inverse, so it leads back to the word it was read at. -/
theorem wordAt_unperm (v : Quad) {i : Nat} (h : i < 4) : wordAt (unperm v) piTable[i] = wordAt v i := by
  interval_cases i <;> rfl

/-- Settles O31: `PI` exchanges words 1 and 3, so `perm` is its own inverse. -/
theorem permutationFollowsTable : Obligations.PermutationFollowsTable := by
  intro f
  refine ⟨fun i h => wordAt_perm f h, fun i h => wordAt_unperm f h, ?_, ?_, unperm_eq_perm f⟩
  · rw [unperm_eq_perm, perm_perm]
  · rw [unperm_eq_perm, perm_perm]

/-! Subkey injection and removal (rules R126, R127). -/

theorem wordAt_addsk (v k : Quad) (i : Nat) : wordAt (addsk v k) i = wordAt v i + wordAt k i := by
  simp only [wordAt, addsk]
  split_ifs <;> rfl

theorem wordAt_subsk (v k : Quad) (i : Nat) : wordAt (subsk v k) i = wordAt v i - wordAt k i := by
  simp only [wordAt, subsk]
  split_ifs <;> rfl

@[simp] theorem subsk_addsk (v k : Quad) : subsk (addsk v k) k = v := by
  simp only [subsk, addsk, BitVec.add_sub_cancel]

@[simp] theorem addsk_subsk (v k : Quad) : addsk (subsk v k) k = v := by
  simp only [subsk, addsk, BitVec.sub_add_cancel]

/-- Settles O32, word by word. -/
theorem subkeyInjectionIsInvertible : Obligations.SubkeyInjectionIsInvertible := by
  intro v k
  exact ⟨fun i _ => wordAt_addsk v k i, fun i _ => wordAt_subsk v k i, subsk_addsk v k, addsk_subsk v k⟩

end Sys2Proof.Machine
end

section
/-! The diagnostic commands MIX, UNMIX, PERM and UNPERM (41_round_primitives.md rules R128 to R131): what each
returns for a payload of its length, and `ILLEGAL` for any other header. -/

namespace Sys2Proof.Machine

/-! Illegal headers (rule R87). -/

/-- A header that has the opcode of a row and not its match has a reserved bit 1, so it is illegal (rule R87). -/
theorem reservedBitFails (o : Opcode) : ReservedBitFails o := by
  intro s h p es he hop hmatch
  have hres : ¬ o.ReservedClear h := fun hclear =>
    hmatch ((decodesExactlyTheTableRows h o).2 ⟨_, decode_of_reservedClear hop hclear, o.opcode_command h⟩)
  exact illegalHeaderFails s h p es he ((headerIllegal_iff_of_opcode hop).2 (.inl hres))

theorem exec_illegal {i : Instr} (h : ¬ i.WF) (s : State) : exec i s = .next (afterFailure s .illegal) :=
  exec_of_not_wf h s

/-! MIX and UNMIX. -/

/-- The amount a header names: its row and its column are in the table (rules R83, R121). -/
theorem rotAmount_toNat (t : RotTable) (row : BitVec 3) (col : BitVec 1) :
    rotAmount t row.toNat col.toNat = t[row.toNat][col.toNat] := by
  simp only [rotAmount, Nat.mod_eq_of_lt row.isLt, Nat.mod_eq_of_lt col.isLt]

theorem mix_toNat (t : RotTable) (x0 x1 : Word) (row : BitVec 3) (col : BitVec 1) :
    mix t x0 x1 row.toNat col.toNat = (x0 + x1, rotl x1 t[row.toNat][col.toNat] ^^^ (x0 + x1)) := by
  rw [mix, rotAmount_toNat]

theorem unmix_toNat (t : RotTable) (y0 y1 : Word) (row : BitVec 3) (col : BitVec 1) :
    unmix t y0 y1 row.toNat col.toNat =
      (y0 - rotr (y0 ^^^ y1) t[row.toNat][col.toNat], rotr (y0 ^^^ y1) t[row.toNat][col.toNat]) := by
  rw [unmix, rotAmount_toNat]

@[simp] theorem pairOf_setPair (q : Quad) (j : Nat) (p : Word × Word) : pairOf (setPair q j p) j = p := by
  by_cases h : j = 0 <;> simp [pairOf, setPair, h]

/-- A payload of 16 bytes is two words (rule R83). -/
theorem operandM_words {s : State} (h : s.ibuf.len = 16) :
    ∃ w : Word × Word, operandM s = some w ∧ b2w s.ibuf.bytes = [w.1, w.2] := by
  refine ⟨_, operandM_eq_some s h, ?_⟩
  rw [pairWords_eq, regOfBytes_toList _ _ (by rw [Memory.bytes_length, h])]

theorem exec_mix_of_operandM {s : State} {x0 x1 : Word} (h : operandM s = some (x0, x1)) (row : BitVec 3)
    (col : BitVec 1) :
    exec (.mix row col 16) s =
      .next (afterSuccess s (w2b [x0 + x1, rotl x1 s.cfg.rot[row.toNat][col.toNat] ^^^ (x0 + x1)])) := by
  simp only [exec, execMix, h, pairOf_setPair, mix_toNat]
  rfl

theorem exec_unmix_of_operandM {s : State} {y0 y1 : Word} (h : operandM s = some (y0, y1)) (row : BitVec 3)
    (col : BitVec 1) :
    exec (.unmix row col 16) s =
      .next (afterSuccess s (w2b [y0 - rotr (y0 ^^^ y1) s.cfg.rot[row.toNat][col.toNat],
        rotr (y0 ^^^ y1) s.cfg.rot[row.toNat][col.toNat]])) := by
  simp only [exec, execUnmix, h, pairOf_setPair, unmix_toNat]
  rfl

/-- Settles O36: the header's length check, then the formula on the payload's two words. -/
theorem mixReturnsTheMix : Obligations.MixReturnsTheMix := by
  refine ⟨reservedBitFails .mix, fun row col len s hlen => ?_⟩
  split
  case isTrue h16 =>
    subst h16
    obtain ⟨⟨x0, x1⟩, hop, hw⟩ := operandM_words hlen
    exact ⟨x0, x1, hw, exec_mix_of_operandM hop row col⟩
  case isFalse h16 => exact exec_illegal (by simpa [Instr.check] using h16) s

/-- Settles O37: the header's length check, then the formula on the payload's two words. -/
theorem unmixReturnsTheUnmix : Obligations.UnmixReturnsTheUnmix := by
  refine ⟨reservedBitFails .unmix, fun row col len s hlen => ?_⟩
  split
  case isTrue h16 =>
    subst h16
    obtain ⟨⟨y0, y1⟩, hop, hw⟩ := operandM_words hlen
    exact ⟨y0, y1, _, hw, rfl, exec_unmix_of_operandM hop row col⟩
  case isFalse h16 => exact exec_illegal (by simpa [Instr.check] using h16) s

/-! PERM and UNPERM. -/

/-- The second and the fourth of four 8-byte groups change places (rule R130). -/
def exchangeGroups (b : Bytes) : Bytes :=
  b.take 8 ++ (b.drop 24).take 8 ++ (b.drop 16).take 8 ++ (b.drop 8).take 8

/-- The bytes of a block's words are the block's. -/
theorem blockBytes_blockWords (b : Vector Byte 32) : blockBytes (blockWords b) = b.toList := by
  rw [blockBytes, quadWords_blockWords, (w2b_b2w_eq_self_iff _).2 (by simp)]

theorem exchangeGroups_append {a b c d : Bytes} (ha : a.length = 8) (hb : b.length = 8) (hc : c.length = 8)
    (hd : d.length = 8) : exchangeGroups (a ++ (b ++ (c ++ d))) = a ++ (d ++ (c ++ b)) := by
  simp [exchangeGroups, List.drop_append, List.drop_eq_nil_of_le, ha, hb, hc, hd]

/-- Word `i` is group `i`, so the permutation of the words is the exchange of the groups. -/
theorem blockBytes_perm (q : Quad) : blockBytes (perm q) = exchangeGroups (blockBytes q) := by
  simp [blockBytes, quadWords, perm, exchangeGroups_append]

/-- A payload of 32 bytes is four words (rules R130, R131). -/
theorem operandWords_bytes {s : State} (h : s.ibuf.len = 32) :
    ∃ q : Quad, operandWords s = some q ∧ blockBytes q = s.ibuf.bytes := by
  refine ⟨_, operandWords_eq_some s h, ?_⟩
  rw [blockBytes_blockWords, regOfBytes_toList _ _ (by rw [Memory.bytes_length, h])]

theorem exec_perm_of_operandWords {s : State} {q : Quad} (h : operandWords s = some q) :
    exec (.perm 32) s = .next (afterSuccess s (blockBytes (perm q))) := by
  simp only [exec, execPerm, h]
  rfl

theorem exec_unperm_of_operandWords {s : State} {q : Quad} (h : operandWords s = some q) :
    exec (.unperm 32) s = .next (afterSuccess s (blockBytes (perm q))) := by
  simp only [exec, execUnperm, h]
  rfl

/-- Settles O38: the header's length check, then the exchange of the payload's groups. -/
theorem permAndUnpermExchangeGroups : Obligations.PermAndUnpermExchangeGroups := by
  refine ⟨reservedBitFails .perm, reservedBitFails .unperm, fun len s hlen => ?_⟩
  split
  case isTrue h32 =>
    subst h32
    obtain ⟨q, hop, hq⟩ := operandWords_bytes hlen
    refine ⟨exchangeGroups s.ibuf.bytes, rfl, ?_⟩
    rw [← hq, ← blockBytes_perm]
    exact ⟨exec_perm_of_operandWords hop, exec_unperm_of_operandWords hop⟩
  case isFalse h32 =>
    exact ⟨exec_illegal (by simpa [Instr.check] using h32) s, exec_illegal (by simpa [Instr.check] using h32) s⟩

end Sys2Proof.Machine
end

section
/-! The key schedule (42_key_schedule.md rules R140 to R144): the two extended arrays, a subkey group by the formula
of rule R142, and where each of them stands in the result of KSX. -/

namespace Sys2Proof.Machine

/-! The extended key and the extended tweak (rules R140, R141). -/

theorem b2w_eq_extKey (k : Vector Byte 32) :
    b2w k.toList = [(extKey k)[0], (extKey k)[1], (extKey k)[2], (extKey k)[3]] :=
  (quadWords_blockWords k).symm

/-- The parity word is the parity of the constant and the key words. -/
theorem extKey_four (k : Vector Byte 32) :
    (extKey k)[4] = c240 ^^^ (extKey k)[0] ^^^ (extKey k)[1] ^^^ (extKey k)[2] ^^^ (extKey k)[3] := rfl

theorem b2w_eq_extTweak (t : Vector Byte 16) : b2w t.toList = [(extTweak t)[0], (extTweak t)[1]] :=
  (pairWords_eq t).symm

theorem extTweak_two (t : Vector Byte 16) : (extTweak t)[2] = (extTweak t)[0] ^^^ (extTweak t)[1] := rfl

/-- Settles O33: the key words occur twice in the XOR of all five, so the constant of the fifth is left. -/
theorem extendedKeyParity : Obligations.ExtendedKeyParity := by
  refine fun k => ⟨b2w_eq_extKey k, ?_⟩
  generalize hx : (extKey k)[0] ^^^ (extKey k)[1] ^^^ (extKey k)[2] ^^^ (extKey k)[3] = x
  have hfifth : (extKey k)[4] = c240 ^^^ x := by rw [extKey_four, ← hx]; simp only [BitVec.xor_assoc]
  rw [hfifth, BitVec.xor_comm c240, ← BitVec.xor_assoc, BitVec.xor_self, BitVec.zero_xor, c240]

/-- Settles O34, from the words of the tweak and the definition of the third. -/
theorem extendedTweakParity : Obligations.ExtendedTweakParity :=
  fun t => ⟨b2w_eq_extTweak t, extTweak_two t⟩

/-! The subkey groups (rule R142). -/

@[simp] theorem kxAt_mod (kx : Vector Word 5) (n : Nat) : kxAt kx (n % 5) = kxAt kx n := by
  simp only [kxAt, Nat.mod_mod]

@[simp] theorem txAt_mod (tx : Vector Word 3) (n : Nat) : txAt tx (n % 3) = txAt tx n := by
  simp only [txAt, Nat.mod_mod]

/-- A group's bytes with the indexes of the extended arrays reduced, as rule R142 writes them. -/
theorem blockBytes_subkey (kx : Vector Word 5) (tx : Vector Word 3) (g : Nat) :
    blockBytes (subkey kx tx g) =
      w2b [kxAt kx (g % 5), kxAt kx ((g + 1) % 5) + txAt tx (g % 3),
        kxAt kx ((g + 2) % 5) + txAt tx ((g + 1) % 3), kxAt kx ((g + 3) % 5) + BitVec.ofNat 64 g] := by
  simp only [kxAt_mod, txAt_mod]
  rfl

/-! The result layout of KSX (rule R144). -/

theorem scheduleBytes_take_40 (en : Engine) : (scheduleBytes en).take 40 = w2b en.kx.toList := by
  rw [scheduleBytes, List.append_assoc, List.take_left' (by simp)]

theorem scheduleBytes_drop_40_take_24 (en : Engine) : ((scheduleBytes en).drop 40).take 24 = w2b en.tx.toList := by
  rw [scheduleBytes, List.append_assoc, List.drop_left' (by simp), List.take_left' (by simp)]

/-- Every file of words takes 32 bytes, so file `i` begins at byte `32i`. -/
theorem flatMap_blockBytes_drop_take {qs : List Quad} {i : Nat} (h : i < qs.length) :
    ((qs.flatMap blockBytes).drop (32 * i)).take 32 = blockBytes qs[i] := by
  induction qs generalizing i with
  | nil => cases h
  | cons q qs ih =>
    rw [List.flatMap_cons]
    cases i with
    | zero => exact List.take_left' (blockBytes_length q)
    | succ i =>
      rw [show 32 * (i + 1) = (blockBytes q).length + 32 * i by rw [blockBytes_length]; omega,
        List.drop_length_add_append]
      exact ih (Nat.lt_of_succ_lt_succ h)

theorem scheduleBytes_drop_take_32 (en : Engine) {g : Nat} (hg : g < 19) :
    ((scheduleBytes en).drop (64 + 32 * g)).take 32 = blockBytes en.sk[g] := by
  rw [scheduleBytes, ← List.drop_drop, List.drop_left' (by simp), flatMap_blockBytes_drop_take (by simpa using hg),
    Vector.getElem_toList]

theorem scheduleOf_getElem (k : Vector Byte 32) (t : Vector Byte 16) {g : Nat} (hg : g < 19) :
    (scheduleOf k t)[g] = subkey (extKey k) (extTweak t) g := Vector.getElem_ofFn hg

/-- A payload of 48 bytes is a key and a tweak, the four words of the key before the two of the tweak. -/
theorem operandKeyTweak_words {s : State} (h : s.ibuf.len = 48) :
    ∃ (k : Vector Byte 32) (t : Vector Byte 16), operandKeyTweak s = some (k, t)
      ∧ b2w s.ibuf.bytes = b2w k.toList ++ b2w t.toList := by
  refine ⟨_, _, operandKeyTweak_eq_some s h, ?_⟩
  rw [regOfBytes_toList _ _ (by simp [h]), regOfBytes_toList _ _ (by simp [h]), ← b2w_append _ _ (by simp [h]),
    List.take_append_drop]

theorem succeedWith_eq_afterSuccess (out : Bytes) (s : State) : succeedWith out s = .next (afterSuccess s out) := rfl

theorem exec_ksx_of_operandKeyTweak {s : State} {k : Vector Byte 32} {t : Vector Byte 16}
    (h : operandKeyTweak s = some (k, t)) :
    exec (.ksx 48) s = .next (afterSuccess s (scheduleBytes (s.eng.expand k t))) := by
  simp only [exec, execKsx, h, succeedWith_setEngine]
  exact succeedWith_eq_afterSuccess _ _

/-- Settles O39: the header's length check, then each part of the layout from the expanded engine. -/
theorem ksxReturnsTheSchedule : Obligations.KsxReturnsTheSchedule := by
  refine ⟨reservedBitFails .ksx, fun len s hlen => ?_⟩
  split
  case isTrue h48 =>
    subst h48
    obtain ⟨k, t, hop, hw⟩ := operandKeyTweak_words hlen
    refine ⟨scheduleBytes (s.eng.expand k t), kxAt (extKey k), txAt (extTweak t), exec_ksx_of_operandKeyTweak hop,
      scheduleBytes_length _, ?_, extKey_four k, extTweak_two t, ?_, ?_, fun g hg => ?_⟩
    · rw [hw, b2w_eq_extKey, b2w_eq_extTweak]
      rfl
    · rw [scheduleBytes_take_40, expand_kx]
      rfl
    · rw [scheduleBytes_drop_40_take_24, expand_tx]
      rfl
    · simp only [scheduleBytes_drop_take_32 _ hg, expand_sk, scheduleOf_getElem k t hg, blockBytes_subkey]
  case isFalse h48 => exact exec_illegal (by simpa [Instr.check] using h48) s

end Sys2Proof.Machine
end

section
/-! The block operations (43_block_ops.md rules R150 to R156): a round and the round back, the 72 rounds on the
words of a block, and what `EncryptBlock` and `DecryptBlock` answer. -/

namespace Sys2Proof.Machine

/-! A round and the round back (rules R150, R151). -/

@[simp] theorem unmixWords_mixWords (t : RotTable) (d : Nat) (e : Quad) : unmixWords t d (mixWords t d e) = e := by
  simp only [unmixWords, mixWords, unmix_mix]

@[simp] theorem mixWords_unmixWords (t : RotTable) (d : Nat) (f : Quad) : mixWords t d (unmixWords t d f) = f := by
  simp only [mixWords, unmixWords, mix_unmix]

@[simp] theorem removeWords_injectWords (sk : Vector Quad 19) (v : Quad) (d : Nat) :
    removeWords sk (injectWords sk v d) d = v := by
  by_cases h : d % 4 = 0 <;> simp [removeWords, injectWords, h]

@[simp] theorem injectWords_removeWords (sk : Vector Quad 19) (e : Quad) (d : Nat) :
    injectWords sk (removeWords sk e d) d = e := by
  by_cases h : d % 4 = 0 <;> simp [removeWords, injectWords, h]

theorem backwardWords_forwardWords (t : RotTable) (sk : Vector Quad 19) (v : Quad) (d : Nat) :
    backwardWords t sk (forwardWords t sk v d) d = v := by
  simp only [backwardWords, forwardWords, unperm_eq_perm, perm_perm, unmixWords_mixWords, removeWords_injectWords]

theorem forwardWords_backwardWords (t : RotTable) (sk : Vector Quad 19) (v : Quad) (d : Nat) :
    forwardWords t sk (backwardWords t sk v d) d = v := by
  simp only [backwardWords, forwardWords, unperm_eq_perm, perm_perm, mixWords_unmixWords, injectWords_removeWords]

/-- Steps that can each be undone are undone together in the reverse order. -/
theorem foldl_reverse_foldl {α β : Type} {f g : β → α → β} (h : ∀ v d, g (f v d) d = v) (ds : List α)
    (v : β) :
    ds.reverse.foldl g (ds.foldl f v) = v := by
  induction ds generalizing v with
  | nil => rfl
  | cons d ds ih => rw [List.foldl_cons, List.reverse_cons, List.foldl_append, ih, List.foldl_cons, List.foldl_nil, h]

/-! The rounds of a whole operation. -/

/-- The words of a block after rounds 0 to 71 and the addition of group 18 (rule R150). -/
def encryptWords (t : RotTable) (sk : Vector Quad 19) (v : Quad) : Quad :=
  addsk ((List.range 72).foldl (forwardWords t sk) v) sk[18]

/-- The words of a block after the subtraction of group 18 and rounds 71 to 0 (rule R151). -/
def decryptWords (t : RotTable) (sk : Vector Quad 19) (v : Quad) : Quad :=
  (List.range 72).reverse.foldl (backwardWords t sk) (subsk v sk[18])

theorem decryptWords_encryptWords (t : RotTable) (sk : Vector Quad 19) (v : Quad) :
    decryptWords t sk (encryptWords t sk v) = v := by
  rw [decryptWords, encryptWords, subsk_addsk, foldl_reverse_foldl (backwardWords_forwardWords t sk)]

theorem encryptWords_decryptWords (t : RotTable) (sk : Vector Quad 19) (v : Quad) :
    encryptWords t sk (decryptWords t sk v) = v := by
  have h := foldl_reverse_foldl (forwardWords_backwardWords t sk) (List.range 72).reverse (subsk v sk[18])
  rw [List.reverse_reverse] at h
  rw [decryptWords, encryptWords, h, addsk_subsk]

/-- Group 18 is in the file, so no default is read. -/
theorem getD_eighteen (sk : Vector Quad 19) : sk.getD 18 quadZero = sk[18] := by
  simp [Vector.getD]

theorem cipherEncrypt_eq (t : RotTable) (k : Vector Byte 32) (tw : Vector Byte 16) (p : Vector Byte 32) :
    cipherEncrypt t k tw p = blockBytes (encryptWords t (scheduleOf k tw) (blockWords p)) := by
  simp only [cipherEncrypt, runForward_v, getD_eighteen]
  rfl

theorem cipherDecrypt_eq (t : RotTable) (k : Vector Byte 32) (tw : Vector Byte 16) (c : Vector Byte 32) :
    cipherDecrypt t k tw c = blockBytes (decryptWords t (scheduleOf k tw) (blockWords c)) := by
  simp only [cipherDecrypt, runBackward_v, getD_eighteen]
  rfl

theorem quadWords_injective {q r : Quad} (h : quadWords q = quadWords r) : q = r := by
  cases q
  cases r
  simpa [quadWords] using h

/-- The words of a block's bytes are the block's. -/
theorem blockWords_blockBytes (q : Quad) : blockWords (regOfBytes 32 (blockBytes q)) = q := by
  apply quadWords_injective
  rw [quadWords_blockWords, regOfBytes_toList _ _ (blockBytes_length q), blockBytes, b2w_w2b]

theorem cipherDecrypt_cipherEncrypt (t : RotTable) (k : Vector Byte 32) (tw : Vector Byte 16) (p : Vector Byte 32) :
    cipherDecrypt t k tw (regOfBytes 32 (cipherEncrypt t k tw p)) = p.toList := by
  rw [cipherDecrypt_eq, cipherEncrypt_eq, blockWords_blockBytes, decryptWords_encryptWords, blockBytes_blockWords]

theorem cipherEncrypt_cipherDecrypt (t : RotTable) (k : Vector Byte 32) (tw : Vector Byte 16) (c : Vector Byte 32) :
    cipherEncrypt t k tw (regOfBytes 32 (cipherDecrypt t k tw c)) = c.toList := by
  rw [cipherEncrypt_eq, cipherDecrypt_eq, blockWords_blockBytes, encryptWords_decryptWords, blockBytes_blockWords]

/-! The answers of the block operations (rules R152, R153). -/

theorem blockOperands_of_length {b k t : Bytes} (hb : b.length = 32) (hk : k.length = 32) (ht : t.length = 16) :
    blockOperands b k t 32 = some (regOfBytes 32 b, regOfBytes 32 k, regOfBytes 16 t) := by
  simp [blockOperands, sized_eq_some hb, sized_eq_some hk, sized_eq_some ht, blockLen]

/-- A block operation that is not admitted takes at most an answer of the scratch oracle. -/
theorem blockOps_not_admitted {b k t : Bytes} {n : Nat} {s : State}
    (h : blockOperands b k t n = none ∨ scratchAnswer s = false) :
    ∃ m : Nat, encryptBlock b k t n s = ({ s with scratchIn := s.scratchIn.drop m }, none)
      ∧ decryptBlock b k t n s = ({ s with scratchIn := s.scratchIn.drop m }, none) := by
  cases hl : blockOperands b k t n with
  | none => exact ⟨0, by simp [encryptBlock, hl], by simp [decryptBlock, hl]⟩
  | some o =>
    have hn : blockOperands b k t n ≠ none := by simp [hl]
    have hs : scratchAnswer s = false := h.resolve_left hn
    rw [encryptBlock_noScratch hn hs, decryptBlock_noScratch hn hs, takeScratchAnswer, ← List.drop_one]
    exact ⟨1, rfl, rfl⟩

/-- Settles O40: an admitted operation answers the cipher's words, and what is not admitted fails by its operands or
by the oracle's answer. -/
theorem blockOperationsRunTheRounds : Obligations.BlockOperationsRunTheRounds := by
  refine fun s => ⟨fun b k t hs => ?_, fun b k t n h => ?_⟩
  · have hl := blockOperands_sized b k t
    intro sk after c p
    rw [encryptBlock_admitted hl hs, decryptBlock_admitted hl hs, cipherEncrypt_eq, cipherDecrypt_eq]
    exact ⟨rfl, rfl⟩
  · apply blockOps_not_admitted
    by_cases hs : scratchAnswer s = true
    · exact .inl (blockOperands_eq_none.2 fun ⟨hb, hk, ht, hn⟩ => h ⟨hb, hk, ht, hn, hs⟩)
    · exact .inr (Bool.eq_false_iff.2 hs)

/-- Settles O41: the rounds of one operation undo those of the other, and both use one schedule. -/
theorem blockOperationsAreInverse : Obligations.BlockOperationsAreInverse := by
  intro b k t s s' hb hk ht hrot hs hs'
  have hbytes : (regOfBytes 32 b).toList = b := regOfBytes_toList 32 b hb
  constructor
  · refine ⟨_, by rw [encryptBlock_admitted (blockOperands_of_length hb hk ht) hs], ?_⟩
    rw [decryptBlock_admitted (blockOperands_of_length (cipherEncrypt_length ..) hk ht) hs', hrot,
      cipherDecrypt_cipherEncrypt, hbytes]
  · refine ⟨_, by rw [decryptBlock_admitted (blockOperands_of_length hb hk ht) hs], ?_⟩
    rw [encryptBlock_admitted (blockOperands_of_length (cipherDecrypt_length ..) hk ht) hs', hrot,
      cipherEncrypt_cipherDecrypt, hbytes]

end Sys2Proof.Machine
end

section
/-! ENCB and DECB (43_block_ops.md rules R154, R155): the failures in the order of their tests, the block a ready
machine returns, and one command undone by the other. -/

namespace Sys2Proof.Machine

theorem configured_eq_false_iff {s : State} : configured s = false ↔ s.klen = 0 ∨ s.tlen = 0 := by
  simp [configured, or_iff_not_imp_left]

theorem configured_eq_true_iff {s : State} : configured s = true ↔ s.klen ≠ 0 ∧ s.tlen ≠ 0 := by
  simp [configured]

/-- Both commands fail with `CONFIG` before any other test (rule R233). -/
theorem exec_blockCommands_not_configured {s : State} (h : configured s = false) (len : BitVec 32) :
    exec (.encb len) s = .next (afterFailure s .config) ∧ exec (.decb len) s = .next (afterFailure s .config) := by
  simp only [exec, execEncb, execDecb, h, Bool.not_false, if_true]
  exact ⟨rfl, rfl⟩

theorem exec_blockCommands_wrong_length {s : State} {len : BitVec 32} (h : configured s = true) (hl : len ≠ 32) :
    exec (.encb len) s = .next (afterFailure s .argument)
    ∧ exec (.decb len) s = .next (afterFailure s .argument) := by
  simp only [exec, execEncb, execDecb, h, Bool.not_true, Bool.false_eq_true, if_false, if_pos hl]
  exact ⟨rfl, rfl⟩

/-! On a ready machine with a payload of one block. -/

section
variable {s : State} (hr : Ready s) (hp : s.ibuf.len = 32)
include hr

theorem Ready.configured : configured s = true := configured_of_set s hr.klen hr.tlen

include hp

/-- The payload is a block and the stored key and tweak have their sizes (rule R152). -/
theorem Ready.blockOperands_payload :
    blockOperands s.ibuf.bytes s.key.toList s.tweak.toList s.blen.toNat =
      some (regOfBytes 32 s.ibuf.bytes, s.key, s.tweak) := by
  have hb : s.ibuf.bytes.length = 32 := by rw [Memory.bytes_length, hp]
  rw [hr.blen]
  exact (blockOperands_of_length hb (Vector.length_toList) (Vector.length_toList)).trans (by simp)

/-- What ENCB and DECB hand to their block operation, once the payload is in `BLK`. -/
theorem Ready.blockOperands_blk :
    blockOperands (loadBlk s.ibuf.bytes s).mode.blk.toList (keyBytes (loadBlk s.ibuf.bytes s))
        (tweakBytes (loadBlk s.ibuf.bytes s)) (loadBlk s.ibuf.bytes s).blen.toNat =
      some (regOfBytes 32 s.ibuf.bytes, s.key, s.tweak) := by
  have hb : s.ibuf.bytes.length = 32 := by rw [Memory.bytes_length, hp]
  rw [keyBytes_of_set (loadBlk _ s) hr.klen, tweakBytes_of_set (loadBlk _ s) hr.tlen, loadBlk_mode,
    regOfBytes_toList _ _ hb]
  exact hr.blockOperands_payload hp

theorem exec_encb_admitted (hs : scratchAnswer s = true) :
    exec (.encb 32) s = .next (afterSuccess (takeScratchAnswer s) (storedEncrypt s s.ibuf.bytes)) := by
  simp only [exec, execEncb, hr.configured, operandL_eq_some 32 s hp,
    encryptBlock_admitted (s := loadBlk s.ibuf.bytes s) (hr.blockOperands_blk hp) hs]
  rfl

theorem exec_decb_admitted (hs : scratchAnswer s = true) :
    exec (.decb 32) s = .next (afterSuccess (takeScratchAnswer s) (storedDecrypt s s.ibuf.bytes)) := by
  simp only [exec, execDecb, hr.configured, operandL_eq_some 32 s hp,
    decryptBlock_admitted (s := loadBlk s.ibuf.bytes s) (hr.blockOperands_blk hp) hs]
  rfl

theorem exec_blockCommands_refused (hs : scratchAnswer s = false) :
    exec (.encb 32) s = .next (afterFailure (takeScratchAnswer s) .resource)
    ∧ exec (.decb 32) s = .next (afterFailure (takeScratchAnswer s) .resource) := by
  have hl := Option.ne_none_iff_exists'.2 ⟨_, hr.blockOperands_blk hp⟩
  simp only [exec, execEncb, execDecb, hr.configured, operandL_eq_some 32 s hp,
    encryptBlock_noScratch (s := loadBlk s.ibuf.bytes s) hl hs,
    decryptBlock_noScratch (s := loadBlk s.ibuf.bytes s) hl hs]
  exact ⟨rfl, rfl⟩

end

/-- Settles O42, clause by clause in the order of the commands' tests. -/
theorem blockCommandsReturnTheBlock : Obligations.BlockCommandsReturnTheBlock := by
  refine ⟨reservedBitFails .encb, reservedBitFails .decb, fun len s => ⟨fun h => ?_, fun hk ht hl => ?_, ?_⟩⟩
  · exact exec_blockCommands_not_configured (configured_eq_false_iff.2 h) len
  · exact exec_blockCommands_wrong_length (configured_eq_true_iff.2 ⟨hk, ht⟩) hl
  · rintro hr rfl hp after
    have hl := hr.blockOperands_payload hp
    split
    case isTrue hs =>
      exact ⟨_, _, storedEncrypt_length .., storedDecrypt_length .., congrArg Prod.snd (encryptBlock_admitted hl hs),
        congrArg Prod.snd (decryptBlock_admitted hl hs), exec_encb_admitted hr hp hs, exec_decb_admitted hr hp hs⟩
    case isFalse hs => exact exec_blockCommands_refused hr hp (Bool.eq_false_iff.2 hs)

/-! The result presented as the next payload (rule R155). -/

theorem storedDecrypt_storedEncrypt (s : State) {b : Bytes} (hb : b.length = 32) :
    storedDecrypt s (storedEncrypt s b) = b := by
  rw [storedDecrypt, storedEncrypt, cipherDecrypt_cipherEncrypt, regOfBytes_toList _ _ hb]

theorem storedEncrypt_storedDecrypt (s : State) {b : Bytes} (hb : b.length = 32) :
    storedEncrypt s (storedDecrypt s b) = b := by
  rw [storedEncrypt, storedDecrypt, cipherEncrypt_cipherDecrypt, regOfBytes_toList _ _ hb]

/-- A command that fails where the scratch is refused has had the scratch when it succeeds. -/
theorem scratchAnswer_of_okFlag {i : Instr} {s t : State} {r : Reason}
    (hrefused : scratchAnswer s = false → exec i s = .next (afterFailure (takeScratchAnswer s) r))
    (he : exec i s = .next t) (hok : okFlag t.status = true) : scratchAnswer s = true := by
  by_contra hs
  rw [hrefused (Bool.eq_false_iff.2 hs)] at he
  rw [← Host.Outcome.next.inj he] at hok
  simp [afterFailure, statusFail] at hok

/-- `s` after a block command returned `out`, with `out` presented as the next payload. -/
def returnedAndPresented (s : State) (out : Bytes) : State :=
  { afterSuccess (takeScratchAnswer s) out with ibuf := Memory.ofBytes out }

theorem Ready.returnedAndPresented {s : State} (h : Ready s) (out : Bytes) : Ready (returnedAndPresented s out) :=
  ⟨h.klen, h.tlen, h.blen⟩

theorem returnedAndPresented_bytes (s : State) (out : Bytes) : (returnedAndPresented s out).ibuf.bytes = out :=
  Memory.bytes_ofBytes out

/-- The second command has the key, the tweak and the table of the first. -/
theorem storedEncrypt_returnedAndPresented (s : State) (out : Bytes) :
    storedEncrypt (returnedAndPresented s out) = storedEncrypt s := rfl

theorem storedDecrypt_returnedAndPresented (s : State) (out : Bytes) :
    storedDecrypt (returnedAndPresented s out) = storedDecrypt s := rfl

theorem exec_decb_of_returned_encb {s : State} {b : Bytes} (hr : Ready s) (hb : b.length = 32)
    (hs : scratchAnswer (returnedAndPresented s (storedEncrypt s b)) = true) :
    ∃ u, exec (.decb 32) (returnedAndPresented s (storedEncrypt s b)) = .next (afterSuccess u b) := by
  have hd := exec_decb_admitted (hr.returnedAndPresented (storedEncrypt s b)) (storedEncrypt_length ..) hs
  rw [returnedAndPresented_bytes, storedDecrypt_returnedAndPresented, storedDecrypt_storedEncrypt s hb] at hd
  exact ⟨_, hd⟩

theorem exec_encb_of_returned_decb {s : State} {b : Bytes} (hr : Ready s) (hb : b.length = 32)
    (hs : scratchAnswer (returnedAndPresented s (storedDecrypt s b)) = true) :
    ∃ u, exec (.encb 32) (returnedAndPresented s (storedDecrypt s b)) = .next (afterSuccess u b) := by
  have he := exec_encb_admitted (hr.returnedAndPresented (storedDecrypt s b)) (storedDecrypt_length ..) hs
  rw [returnedAndPresented_bytes, storedEncrypt_returnedAndPresented, storedEncrypt_storedDecrypt s hb] at he
  exact ⟨_, he⟩

/-- A success that returns the content of a space leaves that space in `OBUF`. -/
theorem afterSuccess_bytes (s : State) {m : Memory} (hwf : m.wf = true) :
    okFlag (afterSuccess s m.bytes).status = true ∧ (afterSuccess s m.bytes).obuf = m :=
  ⟨okFlag_statusWord .., Memory.ofBytes_bytes hwf⟩

/-- Settles O43: the first command's result is a block, and the second undoes it under the same key and tweak. -/
theorem blockCommandsRoundTrip : Obligations.BlockCommandsRoundTrip := by
  intro s t hr hp hwf
  have hb : s.ibuf.bytes.length = 32 := by rw [Memory.bytes_length, hp]
  refine ⟨fun he hok hs' => ?_, fun he hok hs' => ?_⟩
  · have hs := scratchAnswer_of_okFlag (fun hs => (exec_blockCommands_refused hr hp hs).1) he hok
    obtain rfl := Host.Outcome.next.inj ((exec_encb_admitted hr hp hs).symm.trans he)
    obtain ⟨u, hu⟩ := exec_decb_of_returned_encb hr hb hs'
    exact ⟨_, hu, afterSuccess_bytes u hwf⟩
  · have hs := scratchAnswer_of_okFlag (fun hs => (exec_blockCommands_refused hr hp hs).2) he hok
    obtain rfl := Host.Outcome.next.inj ((exec_decb_admitted hr hp hs).symm.trans he)
    obtain ⟨u, hu⟩ := exec_encb_of_returned_decb hr hb hs'
    exact ⟨_, hu, afterSuccess_bytes u hwf⟩

end Sys2Proof.Machine
end

section
/-! Key and tweak management and the byte-array XOR (44_cipher_abstraction.md rules R170 to R173): the algebra of
`xor`, and what SETKEY, SETTWEAK and XORA leave behind for each length of their operands. -/

namespace Sys2Proof.Machine

/-! The byte-array XOR (rule R172). -/

theorem xorBytes_getElem? {a b : Bytes} {k : Nat} (h : k < min a.length b.length) :
    (xorBytes a b)[k]? = some (a.getD k 0 ^^^ b.getD k 0) := by
  obtain ⟨ha, hb⟩ := Nat.lt_min.1 h
  simp [xorBytes, ha, hb]

@[simp] theorem xorBytes_self (a : Bytes) : xorBytes a a = zeros a.length := by
  simp [xorBytes, zeros, List.zipWith_self]

theorem xorBytes_comm (a b : Bytes) : xorBytes a b = xorBytes b a :=
  List.zipWith_comm_of_comm BitVec.xor_comm

/-- The operand that is not shorter XORed twice leaves the other, byte by byte. -/
theorem xorBytes_xorBytes_cancel {a b : Bytes} (h : a.length ≤ b.length) : xorBytes (xorBytes a b) b = a := by
  induction a generalizing b with
  | nil => rfl
  | cons x a ih =>
    cases b with
    | nil => cases h
    | cons y b =>
      calc xorBytes (xorBytes (x :: a) (y :: b)) (y :: b)
          = (x ^^^ y ^^^ y) :: xorBytes (xorBytes a b) b := rfl
        _ = x :: a := by rw [BitVec.xor_assoc, BitVec.xor_self, BitVec.xor_zero, ih (Nat.le_of_succ_le_succ h)]

/-- Settles O25, law by law. -/
theorem xorIsElementwise : Obligations.XorIsElementwise := fun a b =>
  ⟨xorBytes_length a b, fun _ => xorBytes_getElem?, xorBytes_self a, xorBytes_comm a b, xorBytes_xorBytes_cancel⟩

/-! SETKEY (rule R170). -/

theorem exec_setkey_stores {s : State} (h : s.ibuf.len = 32) :
    exec (.setkey 32) s =
      .next (afterSuccess { s with key := regOfBytes 32 s.ibuf.bytes, klen := 32, blen := 32 } []) := by
  simp only [exec, execSetkey, operandL_eq_some 32 s h]
  rfl

theorem exec_setkey_erases (s : State) :
    exec (.setkey 0) s = .next (afterSuccess { s with key := Vector.replicate 32 0, klen := 0, blen := 0 } []) := rfl

theorem exec_setkey_rejects {len : BitVec 32} (h32 : len ≠ 32) (h0 : len ≠ 0) (s : State) :
    exec (.setkey len) s = .next (afterFailure s .config) := by
  simp only [exec, execSetkey, if_neg h0, if_neg h32]
  rfl

/-- Settles O22, length by length. -/
theorem setkeyStoresErasesOrRejects : Obligations.SetkeyStoresErasesOrRejects := by
  refine ⟨reservedBitFails .setkey, fun len s hlen => ?_⟩
  split_ifs with h32 h0
  · subst h32
    exact ⟨_, regOfBytes_toList _ _ (by rw [Memory.bytes_length]; exact hlen), exec_setkey_stores hlen⟩
  · subst h0
    exact exec_setkey_erases s
  · exact exec_setkey_rejects h32 h0 s

/-! SETTWEAK (rule R171). -/

theorem exec_settweak_stores {s : State} (h : s.ibuf.len = 16) :
    exec (.settweak 16) s =
      .next (afterSuccess { s with tweak := regOfBytes 16 s.ibuf.bytes, tlen := 16 } []) := by
  simp only [exec, execSettweak, operandL_eq_some 16 s h]
  rfl

theorem exec_settweak_rejects {len : BitVec 32} (h16 : len ≠ 16) (s : State) :
    exec (.settweak len) s = .next (afterFailure s .config) := by
  simp only [exec, execSettweak, if_neg h16]
  rfl

/-- Settles O23, length by length. -/
theorem settweakStoresOrRejects : Obligations.SettweakStoresOrRejects := by
  refine ⟨reservedBitFails .settweak, fun len s hlen => ?_⟩
  split_ifs with h16
  · subst h16
    exact ⟨_, regOfBytes_toList _ _ (by rw [Memory.bytes_length]; exact hlen), exec_settweak_stores hlen⟩
  · exact exec_settweak_rejects h16 s

/-! XORA (rule R173). -/

theorem exec_xora_returns {lena : BitVec 24} {len : BitVec 32} {s : State} (h : s.ibuf.len = len.toNat)
    (hle : lena.toNat ≤ len.toNat) :
    exec (.xora lena len) s =
      .next (afterSuccess s (xorBytes (s.ibuf.bytes.take lena.toNat) (s.ibuf.bytes.drop lena.toNat))) := by
  simp only [exec, execXora, if_neg (Nat.not_lt.2 hle), operandX_eq_some lena len s h hle]
  rfl

/-- Settles O24: the header's check of `LENA`, then the XOR of the payload's two parts. -/
theorem xoraReturnsTheXor : Obligations.XoraReturnsTheXor := by
  intro lena len s hlen
  split_ifs with hle
  · exact exec_xora_returns hlen hle
  · exact exec_illegal (by simpa [Instr.check] using hle) s

end Sys2Proof.Machine
end

section
/-! Distinct keys (42_key_schedule.md rule R142; 45_mode_controller.md rule R200): group 0 of the subkey file and the
tweak give the key words back. -/

namespace Sys2Proof.Machine

theorem subkey_zero (kx : Vector Word 5) (tx : Vector Word 3) :
    subkey kx tx 0 = ⟨kx[0], kx[1] + tx[0], kx[2] + tx[1], kx[3]⟩ := by
  simp [subkey, kxAt, txAt]

/-- A key is determined by its words. -/
theorem eq_of_b2w_toList_eq {k k' : Vector Byte 32} (h : b2w k.toList = b2w k'.toList) : k = k' := by
  have hcodec : ∀ k : Vector Byte 32, w2b (b2w k.toList) = k.toList := fun k =>
    (w2b_b2w_eq_self_iff _).2 (by simp)
  rw [← Vector.toList_inj, ← hcodec k, h, hcodec k']

/-- Settles O35: what group 0 adds to the key words is the tweak's, which is the same for both keys. -/
theorem distinctKeysGiveDistinctSchedules : Obligations.DistinctKeysGiveDistinctSchedules := by
  intro en k k' tw h
  have hgroup : subkey (extKey k) (extTweak tw) 0 = subkey (extKey k') (extTweak tw) 0 := by
    rw [← scheduleOf_getElem k tw (by decide), ← scheduleOf_getElem k' tw (by decide)]
    simp only [← expand_sk en, h]
  rw [subkey_zero, subkey_zero, Quad.mk.injEq, BitVec.add_left_inj, BitVec.add_left_inj] at hgroup
  obtain ⟨h0, h1, h2, h3⟩ := hgroup
  exact eq_of_b2w_toList_eq (by rw [b2w_eq_extKey, b2w_eq_extKey, h0, h1, h2, h3])

end Sys2Proof.Machine
end

section
/-! The chaining formulas on byte strings (45_mode_controller.md rules R194, R195; 20_memory.md rule R57): single
blocks of `chainDecrypt`, the lengths, and that unchaining undoes chaining. -/

namespace Sys2Proof.Machine

/-! XOR (rule R172). -/

/-- The middle operand cancels. -/
theorem xorBytes_xorBytes_middle {a b c : Bytes} (hab : a.length = b.length) (hbc : b.length = c.length) :
    xorBytes (xorBytes a b) (xorBytes b c) = xorBytes a c := by
  have hcancel : ∀ x y z : Byte, (x ^^^ y) ^^^ (y ^^^ z) = x ^^^ z := fun x y z => by
    rw [BitVec.xor_assoc, ← BitVec.xor_assoc y, BitVec.xor_self, BitVec.zero_xor]
  refine List.ext_getElem (by simp [hab, hbc]) fun k _ _ => ?_
  simp only [xorBytes, List.getElem_zipWith, hcancel]

/-! Single recovered blocks. -/

theorem chainDecrypt_getElem? (d : Bytes → Bytes) (iv : Bytes) (cs : List Bytes) (j : Nat) :
    (chainDecrypt d iv cs)[j]? = cs[j]?.map fun c => xorBytes (d c) ((iv :: cs).getD j []) := by
  induction cs generalizing iv j with
  | nil => rfl
  | cons c cs ih =>
    cases j with
    | zero => rfl
    | succ j => exact ih c j

/-- The chain value of block `j` is another one only where block `j - 1` is. -/
theorem chainValue_set_of_ne (iv c : Bytes) (cs : List Bytes) {i j : Nat} (h : j ≠ i + 1) :
    (iv :: cs.set i c).getD j [] = (iv :: cs).getD j [] := by
  cases j with
  | zero => rfl
  | succ j => simp [List.getElem?_set_ne (fun hij : i = j => h (congrArg (· + 1) hij.symm))]

/-- Settles O47: recovered block `j` reads ciphertext blocks `j` and `j - 1` alone. -/
theorem ciphertextChangeIsLocal : Obligations.CiphertextChangeIsLocal := by
  intro d iv c cs i hd hcs hc hi ps qs
  refine ⟨fun j hji hji' => ?_, ?_, fun hi' => ?_⟩
  · simp only [ps, qs, chainDecrypt_getElem?, chainValue_set_of_ne iv c cs hji', List.getElem?_set_ne (Ne.symm hji)]
  · simp only [qs, chainDecrypt_getElem?, chainValue_set_of_ne iv c cs (Nat.lt_succ_self i).ne,
      List.getElem?_set_self hi, Option.map_some]
  · have hci : cs[i].length = 32 := hcs _ (List.getElem_mem hi)
    have hp : ps.getD (i + 1) [] = xorBytes (d cs[i + 1]) cs[i] := by
      simp [ps, List.getD_eq_getElem?_getD, chainDecrypt_getElem?, hi, hi']
    rw [hp, List.getD_eq_getElem _ _ hi, xorBytes_xorBytes_middle (by rw [hd, hci]) (by rw [hci, hc])]
    simp [qs, chainDecrypt_getElem?, hi, hi']

end Sys2Proof.Machine
end

section
/-! The answers of the scratch oracle (43_block_ops.md rules R152, R153): what a command may have changed after `n`
block operations, and where the first operation that is not admitted stands. -/

namespace Sys2Proof.Machine

/-- `s'` is `s` but for the scratch, with `n` answers of the scratch oracle gone. -/
def AnswersTaken (n : Nat) (s s' : State) : Prop :=
  ∃ en mo, s' = { s with eng := en, mode := mo, scratchIn := s.scratchIn.drop n }

namespace AnswersTaken

variable {n m : Nat} {s s' s'' : State}

theorem mode (s : State) (mo : ModeRegs) : AnswersTaken 0 s { s with mode := mo } := ⟨s.eng, mo, rfl⟩

/-- One answer is taken from the front. -/
theorem one {en : Engine} {mo : ModeRegs}
    (h : s' = { s with eng := en, mode := mo, scratchIn := s.scratchIn.tail }) : AnswersTaken 1 s s' :=
  ⟨en, mo, by rw [h, List.drop_one]⟩

theorem setMode (h : AnswersTaken n s s') (mo : ModeRegs) : AnswersTaken n s { s' with mode := mo } := by
  obtain ⟨en, _, rfl⟩ := h
  exact ⟨en, mo, rfl⟩

theorem setEngine (h : AnswersTaken n s s') (en : Engine) : AnswersTaken n s (setEngine en s') := by
  obtain ⟨_, mo, rfl⟩ := h
  exact ⟨en, mo, rfl⟩

theorem trans (h : AnswersTaken n s s') (h' : AnswersTaken m s' s'') : AnswersTaken (n + m) s s'' := by
  obtain ⟨_, _, rfl⟩ := h
  obtain ⟨en, mo, rfl⟩ := h'
  exact ⟨en, mo, by simp [List.drop_drop]⟩

theorem zero_trans (h : AnswersTaken 0 s s') (h' : AnswersTaken n s' s'') : AnswersTaken n s s'' := by
  simpa using h.trans h'

theorem scratchIn (h : AnswersTaken n s s') : s'.scratchIn = s.scratchIn.drop n := by
  obtain ⟨_, _, rfl⟩ := h
  rfl

theorem ibuf (h : AnswersTaken n s s') : s'.ibuf = s.ibuf := by
  obtain ⟨_, _, rfl⟩ := h
  rfl

theorem ready (h : AnswersTaken n s s') (hr : Ready s) : Ready s' := by
  obtain ⟨_, _, rfl⟩ := h
  exact { hr with }

theorem storedEncrypt (h : AnswersTaken n s s') : storedEncrypt s' = storedEncrypt s := by
  obtain ⟨_, _, rfl⟩ := h
  rfl

theorem storedDecrypt (h : AnswersTaken n s s') : storedDecrypt s' = storedDecrypt s := by
  obtain ⟨_, _, rfl⟩ := h
  rfl

/-- Completion clears the scratch, so the answers are all that is left of the operations. -/
theorem afterSuccess (h : AnswersTaken n s s') (out : Bytes) :
    afterSuccess s' out = afterSuccess { s with scratchIn := s.scratchIn.drop n } out := by
  obtain ⟨_, _, rfl⟩ := h
  rfl

theorem afterFailure (h : AnswersTaken n s s') (r : Reason) :
    afterFailure s' r = afterFailure { s with scratchIn := s.scratchIn.drop n } r := by
  obtain ⟨_, _, rfl⟩ := h
  rfl

end AnswersTaken

/-! The next answers. -/

theorem AnswersTaken.scratchOk_iff {n : Nat} {s s' : State} (h : AnswersTaken 0 s s') :
    ScratchOk n s' ↔ ScratchOk n s := by
  rw [ScratchOk, ScratchOk, h.scratchIn, List.drop_zero]

theorem scratchOk_zero (s : State) : ScratchOk 0 s := by simp [ScratchOk]

/-- The first answer and those after it. -/
theorem scratchOk_succ_iff {n : Nat} {s s' : State} (h : AnswersTaken 1 s s') :
    ScratchOk (n + 1) s ↔ scratchAnswer s = true ∧ ScratchOk n s' := by
  rw [ScratchOk, ScratchOk, scratchAnswer, h.scratchIn]
  cases s.scratchIn <;> simp

theorem ScratchOk.scratchAnswer {n : Nat} {s : State} (h : ScratchOk (n + 1) s) : scratchAnswer s = true :=
  ((scratchOk_succ_iff (s' := takeScratchAnswer s) (.one rfl)).1 h).1

/-- The first operation that is not admitted is the one after `j` admitted ones. -/
def FirstRefused (j : Nat) (s : State) : Prop := ScratchOk j s ∧ s.scratchIn[j]? = some false

theorem AnswersTaken.firstRefused_iff {j : Nat} {s s' : State} (h : AnswersTaken 0 s s') :
    FirstRefused j s' ↔ FirstRefused j s := by
  rw [FirstRefused, FirstRefused, h.scratchOk_iff, h.scratchIn, List.drop_zero]

theorem FirstRefused.scratchAnswer_zero {s : State} (h : FirstRefused 0 s) : scratchAnswer s = false := by
  rw [scratchAnswer, List.headD_eq_head?_getD, List.head?_eq_getElem?, h.2, Option.getD_some]

theorem FirstRefused.succ {j : Nat} {s s' : State} (h : FirstRefused (j + 1) s) (ht : AnswersTaken 1 s s') :
    FirstRefused j s' := by
  refine ⟨((scratchOk_succ_iff ht).1 h.1).2, ?_⟩
  rw [ht.scratchIn, List.getElem?_drop, Nat.add_comm, h.2]

/-- Either every one of `n` operations is admitted or one of them is the first that is not. -/
theorem scratchOk_or_firstRefused (n : Nat) (s : State) : ScratchOk n s ∨ ∃ j < n, FirstRefused j s := by
  induction n with
  | zero => exact .inl (scratchOk_zero s)
  | succ n ih =>
    rcases ih with hok | ⟨j, hj, hf⟩
    · by_cases hn : s.scratchIn[n]? = some false
      · exact .inr ⟨n, Nat.lt_succ_self n, hok, hn⟩
      · refine .inl fun b hb => ?_
        rw [List.take_add_one, List.mem_append, Option.mem_toList] at hb
        rcases hb with hb | hb
        · exact hok b hb
        · exact Bool.eq_true_of_not_eq_false fun hfalse => hn (hfalse ▸ hb)
    · exact .inr ⟨j, Nat.lt_succ_of_lt hj, hf⟩

end Sys2Proof.Machine
end

section
/-! The loops of the mode controller on a ready machine (45_mode_controller.md rules R194, R195): what a turn does
when its block operation is admitted and when it is not, and the blocks the whole loop emits or recovers. -/

namespace Sys2Proof.Machine

/-- Blocks `i .. i+n-1` of a space whose block 0 begins at offset `a`. -/
def Memory.blocks (m : Memory) (a i n : Nat) : List Bytes := (List.range' i n).map fun k => m.read (a + 32 * k) 32

theorem Memory.blocks_succ (m : Memory) (a i n : Nat) :
    m.blocks a i (n + 1) = m.read (a + 32 * i) 32 :: m.blocks a (i + 1) n := by
  rw [Memory.blocks, List.range'_succ, List.map_cons, Memory.blocks]

/-- All whole blocks of a space from `a` on are the blocks of its bytes from `a` on (rule R57). -/
theorem Memory.blocks_eq_blocksOf (m : Memory) (a : Nat) :
    m.blocks a 0 ((m.len - a) / 32) = blocksOf (m.bytes.drop a) := by
  rw [Memory.blocks, blocksOf, List.length_drop, Memory.bytes_length, List.range_eq_range']
  refine List.map_congr_left fun k hk => ?_
  have hk := List.mem_range'_1.1 hk
  rw [Memory.bytes, Memory.drop_read _ _ _ _ (by omega), Memory.drop_read _ _ _ _ (by omega),
    Memory.take_read _ _ _ _ (by omega), Nat.zero_add]

/-! One turn. -/

/-- A turn's block operation consults the oracle once. -/
theorem answersTaken_turn (b : Bytes) (i : Nat) (s : State) :
    AnswersTaken 1 s (takeScratchAnswer (loadBlk b (setI i s))) := .one rfl

section
variable {s : State} (hr : Ready s) (i : Nat)
include hr

theorem Ready.blen_toNat : s.blen.toNat = 32 := by
  rw [hr.blen]
  rfl

/-- The operands of a turn's block operation: the block in `BLK`, the stored key, the stored tweak. -/
theorem Ready.blockOperands_turn (b : Bytes) :
    blockOperands (loadBlk b (setI i s)).mode.blk.toList (keyBytes (loadBlk b (setI i s)))
      (tweakBytes (loadBlk b (setI i s))) 32 = some (regOfBytes 32 b, s.key, s.tweak) := by
  rw [blockOperands_set (s := loadBlk b (setI i s)) hr.klen hr.tlen (by simp), regOfBytes_toList_self]
  rfl

theorem Ready.encryptBlock_turn (hs : scratchAnswer s = true) (b : Bytes) :
    encryptBlock (loadBlk b (setI i s)).mode.blk.toList (keyBytes (loadBlk b (setI i s)))
      (tweakBytes (loadBlk b (setI i s))) 32 (loadBlk b (setI i s)) =
      (setEngine Engine.zero (takeScratchAnswer (loadBlk b (setI i s))), some (storedEncrypt s b)) :=
  encryptBlock_admitted (hr.blockOperands_turn i b) hs

theorem Ready.decryptBlock_turn (hs : scratchAnswer s = true) (b : Bytes) :
    decryptBlock (loadBlk b (setI i s)).mode.blk.toList (keyBytes (loadBlk b (setI i s)))
      (tweakBytes (loadBlk b (setI i s))) 32 (loadBlk b (setI i s)) =
      (setEngine Engine.zero (takeScratchAnswer (loadBlk b (setI i s))), some (storedDecrypt s b)) :=
  decryptBlock_admitted (hr.blockOperands_turn i b) hs

theorem cbceTurn_admitted (hs : scratchAnswer s = true) :
    ∃ s', cbceTurn i s = (s', some (storedEncrypt s (xorBytes s.mode.chain.toList (s.mode.pbuf.read (32 * i) 32))))
      ∧ AnswersTaken 1 s s' := by
  simp only [cbceTurn, hr.blen_toNat, hr.encryptBlock_turn i hs]
  exact ⟨_, rfl, (((answersTaken_turn _ i s).setEngine _).setMode _).setMode _⟩

theorem cbceTurn_refused (hs : scratchAnswer s = false) :
    ∃ s', cbceTurn i s = (s', none) ∧ AnswersTaken 1 s s' := by
  have hl := Option.ne_none_iff_exists'.2
    ⟨_, hr.blockOperands_turn i (xorBytes s.mode.chain.toList (s.mode.pbuf.read (32 * i) 32))⟩
  simp only [cbceTurn, hr.blen_toNat, encryptBlock_noScratch (s := loadBlk _ (setI i s)) hl hs]
  exact ⟨_, rfl, answersTaken_turn _ i s⟩

theorem cbcdTurn_admitted (hs : scratchAnswer s = true) :
    ∃ s', cbcdTurn i s = (s', true) ∧ AnswersTaken 1 s s'
      ∧ s'.mode.chain.toList = s.ibuf.read (32 + 32 * i) 32
      ∧ s'.mode.pbuf = s.mode.pbuf.write (32 * i)
          (xorBytes (storedDecrypt s (s.ibuf.read (32 + 32 * i) 32)) s.mode.chain.toList) := by
  simp only [cbcdTurn, hr.blen_toNat, hr.decryptBlock_turn i hs]
  exact ⟨_, rfl, ((((answersTaken_turn _ i s).setEngine _).setMode _).setMode _).setMode _, by simp, rfl⟩

theorem cbcdTurn_refused (hs : scratchAnswer s = false) :
    ∃ s', cbcdTurn i s = (s', false) ∧ AnswersTaken 1 s s' := by
  have hl := Option.ne_none_iff_exists'.2 ⟨_, hr.blockOperands_turn i (s.ibuf.read (32 + 32 * i) 32)⟩
  simp only [cbcdTurn, hr.blen_toNat, decryptBlock_noScratch (s := loadBlk _ (setI i s)) hl hs]
  exact ⟨_, rfl, answersTaken_turn _ i s⟩

end

/-! The turns of a loop, one after the other. -/

/-- Every turn admitted: the chained blocks are emitted after what was there (rule R194). -/
theorem cbceLoop_admitted {n i : Nat} {acc : Bytes} {s : State} (hr : Ready s) (hs : ScratchOk n s) :
    ∃ s', cbceLoop n i acc s = (s', some (acc ++
        (chainEncrypt (storedEncrypt s) s.mode.chain.toList (s.mode.pbuf.blocks 0 i n)).flatten))
      ∧ AnswersTaken n s s' := by
  induction n generalizing i acc s with
  | zero => exact ⟨s, by simp [cbceLoop, Memory.blocks, chainEncrypt], .mode s s.mode⟩
  | succ n ih =>
    obtain ⟨s1, hturn, htaken⟩ := cbceTurn_admitted hr i hs.scratchAnswer
    obtain ⟨-, hchain, -⟩ := cbceTurn_registers hr.blen hturn
    obtain ⟨-, -, hpbuf, -⟩ := cbceTurn_spec hturn
    obtain ⟨s', hloop, htaken'⟩ := ih (htaken.ready hr) ((scratchOk_succ_iff htaken).1 hs).2
    rw [hchain, hpbuf, htaken.storedEncrypt] at hloop
    refine ⟨s', ?_, Nat.add_comm n 1 ▸ htaken.trans htaken'⟩
    simp only [cbceLoop, hturn]
    rw [hloop, Memory.blocks_succ, chainEncrypt, List.flatten_cons, List.append_assoc, Nat.zero_add]

/-- The first refused operation ends the loop. -/
theorem cbceLoop_refused {n j i : Nat} {acc : Bytes} {s : State} (hr : Ready s) (hj : j < n) (hf : FirstRefused j s) :
    ∃ s', cbceLoop n i acc s = (s', none) ∧ AnswersTaken (j + 1) s s' := by
  induction j generalizing n i acc s with
  | zero =>
    obtain ⟨s1, hturn, htaken⟩ := cbceTurn_refused hr i hf.scratchAnswer_zero
    obtain ⟨n, rfl⟩ := Nat.exists_eq_add_of_lt hj
    exact ⟨s1, by simp only [cbceLoop, hturn], htaken⟩
  | succ j ih =>
    obtain ⟨n, rfl⟩ := Nat.exists_eq_add_of_lt hj
    obtain ⟨s1, hturn, htaken⟩ := cbceTurn_admitted hr i hf.1.scratchAnswer
    obtain ⟨s', hloop, htaken'⟩ := ih (n := j + 1 + n) (htaken.ready hr) (by omega) (hf.succ htaken)
    exact ⟨s', by simp only [cbceLoop, hturn]; exact hloop, Nat.add_comm (j + 1) 1 ▸ htaken.trans htaken'⟩

/-- Every turn admitted: the unchained blocks stand in `PBUF` from block `i` on (rule R195). -/
theorem cbcdLoop_admitted {n i : Nat} {s : State} (hr : Ready s) (hs : ScratchOk n s)
    (hwf : s.mode.pbuf.wf = true) (hlen : s.mode.pbuf.len = 32 * (i + n)) :
    ∃ s', cbcdLoop n i s = (s', true) ∧ AnswersTaken n s s'
      ∧ s'.mode.pbuf.bytes = s.mode.pbuf.bytes.take (32 * i) ++
          (chainDecrypt (storedDecrypt s) s.mode.chain.toList (s.ibuf.blocks 32 i n)).flatten := by
  induction n generalizing i s with
  | zero =>
    refine ⟨s, rfl, .mode s s.mode, ?_⟩
    rw [List.take_of_length_le (by simp [hlen])]
    simp [Memory.blocks, chainDecrypt]
  | succ n ih =>
    obtain ⟨s1, hturn, htaken, hchain, hpbuf⟩ := cbcdTurn_admitted hr i hs.scratchAnswer
    obtain ⟨-, hlen1, hwf1⟩ := cbcdTurn_spec hturn
    obtain ⟨s', hloop, htaken', hbytes⟩ := ih (i := i + 1) (htaken.ready hr) ((scratchOk_succ_iff htaken).1 hs).2
      (hwf1 hwf) (by rw [hlen1, hlen]; omega)
    refine ⟨s', by simp only [cbcdLoop, hturn]; exact hloop, Nat.add_comm n 1 ▸ htaken.trans htaken', ?_⟩
    have hblock : (xorBytes (storedDecrypt s (s.ibuf.read (32 + 32 * i) 32)) s.mode.chain.toList).length = 32 := by simp
    have htake : s1.mode.pbuf.bytes.take (32 * (i + 1)) = s.mode.pbuf.bytes.take (32 * i) ++
        xorBytes (storedDecrypt s (s.ibuf.read (32 + 32 * i) 32)) s.mode.chain.toList := by
      rw [hpbuf, Memory.write_eq_ofBytes hwf _ _ (by omega), Memory.bytes_ofBytes,
        List.take_left' (by simp [hblock, hlen]; omega)]
    rw [hbytes, htake, hchain, htaken.storedDecrypt, htaken.ibuf, Memory.blocks_succ, chainDecrypt, List.flatten_cons,
      List.append_assoc]

theorem cbcdLoop_refused {n j i : Nat} {s : State} (hr : Ready s) (hj : j < n) (hf : FirstRefused j s) :
    ∃ s', cbcdLoop n i s = (s', false) ∧ AnswersTaken (j + 1) s s' := by
  induction j generalizing n i s with
  | zero =>
    obtain ⟨s1, hturn, htaken⟩ := cbcdTurn_refused hr i hf.scratchAnswer_zero
    obtain ⟨n, rfl⟩ := Nat.exists_eq_add_of_lt hj
    exact ⟨s1, by simp only [cbcdLoop, hturn], htaken⟩
  | succ j ih =>
    obtain ⟨n, rfl⟩ := Nat.exists_eq_add_of_lt hj
    obtain ⟨s1, hturn, htaken, -⟩ := cbcdTurn_admitted hr i hf.1.scratchAnswer
    obtain ⟨s', hloop, htaken'⟩ := ih (n := j + 1 + n) (htaken.ready hr) (by omega) (hf.succ htaken)
    exact ⟨s', by simp only [cbcdLoop, hturn]; exact hloop, Nat.add_comm (j + 1) 1 ▸ htaken.trans htaken'⟩

end Sys2Proof.Machine
end

section
/-! ENC (45_mode_controller.md rule R196): its failures in the order of their tests, what a success took and returned,
and the chained ciphertext of a ready machine. -/

namespace Sys2Proof.Machine

/-- The state `cbce` starts from: the IV in `IVR`, the padded plaintext and its trailer in `PBUF` (rules R190 to
R192). -/
def messageLoaded (p : Bytes) (iv : Vector Byte 32) (as : List RngAnswer) (s : State) : State :=
  writeTrailer p.length (pad p { s with rngIn := as, mode := { s.mode with ivr := iv } })

theorem messageLoaded_ivr (p : Bytes) (iv : Vector Byte 32) (as : List RngAnswer) (s : State) :
    (messageLoaded p iv as s).mode.ivr = iv := rfl

/-- `CHAIN` starts as the IV (rule R194). -/
theorem messageLoaded_chain (p : Bytes) (iv : Vector Byte 32) (as : List RngAnswer) (s : State) :
    (loadChain iv.toList (messageLoaded p iv as s)).mode.chain = iv := regOfBytes_toList_self 32 iv

theorem messageLoaded_taken (p : Bytes) (iv : Vector Byte 32) (as : List RngAnswer) (s : State) :
    AnswersTaken 0 { s with rngIn := as } (loadChain iv.toList (messageLoaded p iv as s)) := ⟨_, _, rfl⟩

/-! The command's tests in their order (rule R233). -/

section
variable {len : BitVec 32} {s s2 : State} {iv : Vector Byte 32} {as : List RngAnswer} {p cs : Bytes}

theorem exec_enc_not_configured (hc : configured s = false) :
    exec (.enc len) s = .next (afterFailure s .config) := by
  simp only [exec, execEnc, hc, Bool.not_false, if_true]
  rfl

theorem ivgen_fail (h : s.rngIn = .fail :: as) : ivgen s = some (false, { s with rngIn := as }) := by
  simp only [ivgen, rngRead, h]

theorem ivgen_bytes (h : s.rngIn = .bytes iv :: as) :
    ivgen s = some (true, { s with rngIn := as, mode := { s.mode with ivr := iv } }) := by
  simp only [ivgen, rngRead, h]

theorem exec_enc_random (hc : configured s = true) (hrng : s.rngIn = .fail :: as) :
    exec (.enc len) s = .next (afterFailure { s with rngIn := as } .random) := by
  simp only [exec, execEnc, hc, ivgen_fail hrng]
  rfl

variable (hc : configured s = true) (hrng : s.rngIn = .bytes iv :: as)
include hc hrng

theorem exec_enc_length (hl : maxPlain < len.toNat) :
    exec (.enc len) s = .next (afterFailure { s with rngIn := as } .length) := by
  have hfits : lengthFits len.toNat = false := decide_eq_false (Nat.not_le.2 hl)
  simp only [exec, execEnc, hc, ivgen_bytes hrng, hfits]
  rfl

variable (hl : len.toNat ≤ maxPlain) (hp : operandL len s = some p)
include hl hp

theorem exec_enc_resource (h : cbce (messageLoaded p iv as s) = (s2, none)) :
    exec (.enc len) s = .next (afterFailure s2 .resource) := by
  have hp' : operandL len { s with rngIn := as, mode := { s.mode with ivr := iv } } = some p := hp
  simp only [exec, execEnc, hc, ivgen_bytes hrng, lengthFits_iff.2 hl, hp']
  rw [← messageLoaded, h]
  rfl

theorem exec_enc_chained (h : cbce (messageLoaded p iv as s) = (s2, some cs)) :
    exec (.enc len) s = .next (afterSuccess s2 (iv.toList ++ cs)) := by
  have hp' : operandL len { s with rngIn := as, mode := { s.mode with ivr := iv } } = some p := hp
  obtain ⟨-, hivr, -⟩ := cbce_spec h
  simp only [exec, execEnc, hc, ivgen_bytes hrng, lengthFits_iff.2 hl, hp']
  rw [← messageLoaded, h, ← messageLoaded_ivr p iv as s, ← hivr]
  rfl

end

/-! A success (rules R190, R194, R196). -/

theorem okFlag_afterFailure (s : State) (r : Reason) : okFlag (afterFailure s r).status = false :=
  okFlag_statusWord ..

/-- What a successful ENC took and returned: every test passed, the RNG's IV, and the chained blocks after it. -/
theorem exec_enc_success {len : BitVec 32} {s t : State} (h : exec (.enc len) s = .next t)
    (hok : okFlag t.status = true) :
    ∃ iv as p s2 cs, configured s = true ∧ s.rngIn = .bytes iv :: as ∧ len.toNat ≤ maxPlain ∧ operandL len s = some p
      ∧ cbce (messageLoaded p iv as s) = (s2, some cs) ∧ t.obuf = Memory.ofBytes (iv.toList ++ cs) := by
  have hfail : ∀ {r s1}, exec (.enc len) s ≠ .next (afterFailure s1 r) := fun hf => by
    cases hf.symm.trans h
    simp [okFlag_afterFailure] at hok
  cases hc : configured s with
  | false => exact absurd (exec_enc_not_configured hc) hfail
  | true =>
    rcases ivgen_cases s with ⟨hrng, hiv⟩ | ⟨as, hrng, -⟩ | ⟨iv, as, hrng, hiv⟩
    · simp [exec, execEnc, hc, hiv] at h
    · exact absurd (exec_enc_random hc hrng) hfail
    · rcases Nat.lt_or_ge maxPlain len.toNat with hl | hl
      · exact absurd (exec_enc_length hc hrng hl) hfail
      · cases hp : operandL len s with
        | none =>
          have hp' : operandL len { s with rngIn := as, mode := { s.mode with ivr := iv } } = none := hp
          simp [exec, execEnc, hc, hiv, lengthFits_iff.2 hl, hp'] at h
        | some p =>
          rcases hcbce : cbce (messageLoaded p iv as s) with ⟨s2, _ | cs⟩
          · exact absurd (exec_enc_resource hc hrng hl hp hcbce) hfail
          · refine ⟨iv, as, p, s2, cs, rfl, hrng, hl, rfl, hcbce, ?_⟩
            cases (exec_enc_chained hc hrng hl hp hcbce).symm.trans h
            rfl

/-- Settles O51: 32 bytes of IV and 32 for each of the `NB` blocks that `pad` counts. -/
theorem encResultLength : Obligations.EncResultLength := by
  intro len s t hinv _ h hok
  obtain ⟨iv, as, p, s2, cs, hc, -, hl, hp, hcbce, hout⟩ := exec_enc_success h hok
  have hb : s.blen = 32 := hinv.persistentLegal.blen_of_configured hc
  have hplen := operandL_length hp
  obtain ⟨-, -, -, -, hcs⟩ := cbce_spec hcbce
  have hnb : (messageLoaded p iv as s).mode.nb.toNat = (len.toNat + 31) / 32 + 1 := by
    rw [← hplen]
    exact pad_nb_toNat (s := { s with rngIn := as, mode := { s.mode with ivr := iv } }) hb (hplen ▸ hl)
  have hlen : t.obuf.len = 32 * ((len.toNat + 31) / 32 + 2) := by
    rw [hout, Memory.ofBytes_len, List.length_append, Vector.length_toList, hcs cs rfl, hnb]
    omega
  omega

/-- The first block of a successful ENC's result is the RNG's answer. -/
theorem exec_enc_iv {len : BitVec 32} {s t : State} {iv : Vector Byte 32} {as : List RngAnswer}
    (h : exec (.enc len) { s with rngIn := .bytes iv :: as } = .next t) (hok : okFlag t.status = true) :
    t.obuf.bytes.take 32 = iv.toList := by
  obtain ⟨iv', as', p, s2, cs, -, hrng, -, -, -, hout⟩ := exec_enc_success h hok
  cases hrng
  rw [hout, Memory.bytes_ofBytes, List.take_left' (by simp)]

/-- Settles O52: the result begins with the IV. -/
theorem distinctIvsGiveDistinctCiphertexts : Obligations.DistinctIvsGiveDistinctCiphertexts := by
  intro len s t u iv iv' as as' ht htok hu huok hne heq
  apply hne
  rw [← Vector.toList_inj, ← exec_enc_iv ht htok, heq, exec_enc_iv hu huok]

/-! On a ready machine with an IV and a plaintext that fits. -/

section
variable {p : Bytes} {s : State} (hr : Ready s) (hp : p.length ≤ maxPlain) (iv : Vector Byte 32) (as : List RngAnswer)
include hr hp

theorem messageLoaded_nb : (messageLoaded p iv as s).mode.nb.toNat = (p.length + 31) / 32 + 1 :=
  pad_nb_toNat (s := { s with rngIn := as, mode := { s.mode with ivr := iv } }) hr.blen hp

/-- `PBUF` holds the blocks of the padded plaintext (rules R58, R191, R192). -/
theorem messageLoaded_blocks :
    (messageLoaded p iv as s).mode.pbuf.blocks 0 0 ((p.length + 31) / 32 + 1) = blocksOf (paddedPlain p) := by
  have hpbuf : (messageLoaded p iv as s).mode.pbuf = Memory.ofBytes (paddedPlain p) :=
    writeTrailer_pad_pbuf (s := { s with rngIn := as, mode := { s.mode with ivr := iv } }) hr.blen hp
  have hcount : ((Memory.ofBytes (paddedPlain p)).len - 0) / 32 = (p.length + 31) / 32 + 1 := by
    rw [Memory.ofBytes_len, paddedPlain_length]
    omega
  rw [hpbuf, ← hcount, Memory.blocks_eq_blocksOf, Memory.bytes_ofBytes, List.drop_zero]

theorem cbce_messageLoaded_admitted (hs : ScratchOk ((p.length + 31) / 32 + 1) s) :
    ∃ s2, cbce (messageLoaded p iv as s) =
        (s2, some (chainEncrypt (storedEncrypt s) iv.toList (blocksOf (paddedPlain p))).flatten)
      ∧ AnswersTaken ((p.length + 31) / 32 + 1) { s with rngIn := as } s2 := by
  have htaken := messageLoaded_taken p iv as s
  have hr0 : Ready { s with rngIn := as } := { hr with }
  obtain ⟨s2, hloop, htaken2⟩ := cbceLoop_admitted (i := 0) (acc := []) (htaken.ready hr0) (htaken.scratchOk_iff.2 hs)
  refine ⟨s2, ?_, htaken.zero_trans htaken2⟩
  rw [cbce, messageLoaded_nb hr hp, messageLoaded_ivr, hloop, htaken.storedEncrypt, messageLoaded_chain,
    ← messageLoaded_blocks hr hp iv as]
  rfl

theorem cbce_messageLoaded_refused {j : Nat} (hj : j < (p.length + 31) / 32 + 1) (hf : FirstRefused j s) :
    ∃ s2, cbce (messageLoaded p iv as s) = (s2, none) ∧ AnswersTaken (j + 1) { s with rngIn := as } s2 := by
  have htaken := messageLoaded_taken p iv as s
  have hr0 : Ready { s with rngIn := as } := { hr with }
  obtain ⟨s2, hloop, htaken2⟩ := cbceLoop_refused (i := 0) (acc := []) (htaken.ready hr0) hj
    (htaken.firstRefused_iff.2 hf)
  refine ⟨s2, ?_, htaken.zero_trans htaken2⟩
  rw [cbce, messageLoaded_nb hr hp, messageLoaded_ivr]
  exact hloop

end

section
variable {len : BitVec 32} {s : State} {iv : Vector Byte 32} {as : List RngAnswer} (hr : Ready s)
  (hlen : s.ibuf.len = len.toNat) (hl : len.toNat ≤ maxPlain) (hrng : s.rngIn = .bytes iv :: as)
include hr hlen hl hrng

theorem exec_enc_admitted (hs : ScratchOk ((len.toNat + 31) / 32 + 1) s) :
    exec (.enc len) s = .next (afterSuccess
      { s with rngIn := as, scratchIn := s.scratchIn.drop ((len.toNat + 31) / 32 + 1) }
      (messageEncrypt (storedEncrypt s) iv.toList s.ibuf.bytes)) := by
  have hp : s.ibuf.bytes.length = len.toNat := by rw [Memory.bytes_length, hlen]
  obtain ⟨s2, hcbce, htaken⟩ := cbce_messageLoaded_admitted hr (hp ▸ hl) iv as (hp ▸ hs)
  rw [exec_enc_chained hr.configured hrng hl (operandL_eq_some len s hlen) hcbce, htaken.afterSuccess, hp,
    messageEncrypt]

theorem exec_enc_firstRefused {j : Nat} (hj : j < (len.toNat + 31) / 32 + 1) (hf : FirstRefused j s) :
    exec (.enc len) s =
      .next (afterFailure { s with rngIn := as, scratchIn := s.scratchIn.drop (j + 1) } .resource) := by
  have hp : s.ibuf.bytes.length = len.toNat := by rw [Memory.bytes_length, hlen]
  obtain ⟨s2, hcbce, htaken⟩ := cbce_messageLoaded_refused hr (hp ▸ hl) iv as (hp ▸ hj) hf
  rw [exec_enc_resource hr.configured hrng hl (operandL_eq_some len s hlen) hcbce, htaken.afterFailure]

end

/-- Settles O48: the loop on the padded buffer emits the chained blocks, and the IV stands before them. -/
theorem encReturnsTheChainedCiphertext : Obligations.EncReturnsTheChainedCiphertext :=
  fun _ _ _ _ hr hlen hl hrng hs => exec_enc_admitted hr hlen hl hrng hs

/-- Settles O49, clause by clause in the order of the command's tests. -/
theorem encFailures : Obligations.EncFailures := by
  refine fun len s => ⟨fun h => ?_, fun hk ht as hrng => ?_, fun hk ht iv as hrng hl => ?_,
    fun hr hlen hl iv as j hrng hj hok hfalse => ?_⟩
  · exact exec_enc_not_configured (configured_eq_false_iff.2 h)
  · exact exec_enc_random (configured_eq_true_iff.2 ⟨hk, ht⟩) hrng
  · exact exec_enc_length (configured_eq_true_iff.2 ⟨hk, ht⟩) hrng hl
  · exact exec_enc_firstRefused hr hlen hl hrng hj ⟨hok, hfalse⟩

end Sys2Proof.Machine
end

section
/-! DEC (45_mode_controller.md rule R197): its failures in the order of their tests, and what a ready machine recovers
from whole blocks. -/

namespace Sys2Proof.Machine

/-! The tests before the first block operation. -/

theorem exec_dec_not_configured {len : BitVec 32} {s : State} (hc : configured s = false) :
    exec (.dec len) s = .next (afterFailure s .config) := by
  simp only [exec, execDec, hc, Bool.not_false, if_true]
  rfl

section
variable {len : BitVec 32} {s : State} (hr : Ready s)
include hr

theorem exec_dec_short (h : len.toNat < 32) : exec (.dec len) s = .next (afterFailure s .corrupt) := by
  simp only [exec, execDec, hr.configured, hr.blen_toNat, if_pos h]
  rfl

variable (hlen : s.ibuf.len = len.toNat) (h32 : 32 ≤ len.toNat)
include hlen h32

/-- `DEC_PARTIAL_TAIL = reject` (decision D11). -/
theorem exec_dec_badBody (hbad : badBody s.cfg 32 (len.toNat - 32) = true) :
    exec (.dec len) s = .next (afterFailure s .corrupt) := by
  simp only [exec, execDec, hr.configured, hr.blen_toNat, if_neg (Nat.not_lt.2 h32), operandL_eq_some len s hlen, hbad]
  rfl

theorem exec_dec_noBlock (h0 : (len.toNat - 32) / 32 = 0) :
    exec (.dec len) s = .next (afterFailure s .corrupt) := by
  cases hbad : badBody s.cfg 32 (len.toNat - 32) with
  | true => exact exec_dec_badBody hr hlen h32 hbad
  | false =>
    simp only [exec, execDec, hr.configured, hr.blen_toNat, if_neg (Nat.not_lt.2 h32), operandL_eq_some len s hlen,
      hbad, h0]
    rfl

end

/-! A payload whose blocks are decrypted. -/

/-- A ready machine with an IV, `n ≥ 1` whole blocks and no further byte but an ignored tail (rule R197). -/
structure AcceptsBody (len : BitVec 32) (n : Nat) (s : State) : Prop where
  ready   : Ready s
  payload : s.ibuf.len = len.toNat
  count   : (len.toNat - 32) / 32 = n
  pos     : 1 ≤ n
  whole   : badBody s.cfg 32 (len.toNat - 32) = false

/-- The state `cbcd` starts from: the IV in `IVR`, `NB`, and `PBUF` of `32 * NB` zero bytes (rules R50, R195, R197). -/
def bodyLoaded (n : Nat) (s : State) : State := openBody n (loadIvr (s.ibuf.bytes.take 32) s)

theorem bodyLoaded_taken (n : Nat) (s : State) :
    AnswersTaken 0 s (loadChain (bodyLoaded n s).mode.ivr.toList (bodyLoaded n s)) := ⟨_, _, rfl⟩

/-- What DEC leaves after its loop: `RESOURCE` when a block operation failed, else by `trdec` the plaintext or
`CORRUPT`. -/
def afterBody : State × Bool → State
  | (s2, false) => afterFailure s2 .resource
  | (s2, true)  =>
    match trdec s2 with
    | none   => afterFailure s2 .corrupt
    | some l => afterSuccess s2 (s2.mode.pbuf.read 0 l)

section
variable {len : BitVec 32} {n : Nat} {s : State} (h : AcceptsBody len n s)
include h

theorem AcceptsBody.le_len : 32 ≤ len.toNat := by
  have := h.count
  have := h.pos
  omega

theorem exec_dec_of_acceptsBody : exec (.dec len) s = .next (afterBody (cbcd (bodyLoaded n s))) := by
  simp only [exec, execDec, h.ready.configured, h.ready.blen_toNat, if_neg (Nat.not_lt.2 h.le_len),
    operandL_eq_some len s h.payload, h.whole, h.count, if_neg (Nat.ne_of_gt h.pos)]
  rw [← bodyLoaded]
  rcases cbcd (bodyLoaded n s) with ⟨s2, _ | _⟩
  · rfl
  · cases htr : trdec s2 <;> simp only [afterBody, htr] <;> rfl

/-! The blocks that `cbcd` recovers. -/

theorem bodyLoaded_nb : (bodyLoaded n s).mode.nb.toNat = n := by
  have := h.count
  have := len.isLt
  rw [bodyLoaded, openBody_mode, BitVec.toNat_ofNat]
  exact Nat.mod_eq_of_lt (by omega)

theorem bodyLoaded_pbuf : (bodyLoaded n s).mode.pbuf = Memory.blank (32 * n) := by
  rw [bodyLoaded, openBody_mode, loadIvr_blen, h.ready.blen_toNat]

/-- `CHAIN` starts as the first 32 bytes of the payload (rules R195, R197). -/
theorem bodyLoaded_chain :
    (loadChain (bodyLoaded n s).mode.ivr.toList (bodyLoaded n s)).mode.chain.toList = s.ibuf.bytes.take 32 := by
  have := h.le_len
  simp [bodyLoaded, h.payload, this]

theorem AcceptsBody.ibuf_blocks : s.ibuf.blocks 32 0 n = blocksOf (s.ibuf.bytes.drop 32) := by
  rw [← Memory.blocks_eq_blocksOf, h.payload, h.count]

theorem cbcd_bodyLoaded_admitted (hs : ScratchOk n s) :
    ∃ s2, cbcd (bodyLoaded n s) = (s2, true) ∧ AnswersTaken n s s2 ∧ s2.mode.pbuf.len = 32 * n
      ∧ s2.mode.pbuf.bytes = messageAssemble (storedDecrypt s) s.ibuf.bytes := by
  have htaken := bodyLoaded_taken n s
  have hpbuf : (loadChain (bodyLoaded n s).mode.ivr.toList (bodyLoaded n s)).mode.pbuf = Memory.blank (32 * n) :=
    bodyLoaded_pbuf h
  have := h.count
  have := len.isLt
  obtain ⟨s2, hloop, htaken2, hbytes⟩ := cbcdLoop_admitted (i := 0) (htaken.ready h.ready) (htaken.scratchOk_iff.2 hs)
    (hpbuf ▸ Memory.wf_blank (by omega)) (by rw [hpbuf, Memory.blank_len, Nat.zero_add])
  have hcbcd : cbcd (bodyLoaded n s) = (s2, true) := by
    rw [cbcd, bodyLoaded_nb h]
    exact hloop
  obtain ⟨-, hlen, -⟩ := cbcd_spec hcbcd
  refine ⟨s2, hcbcd, htaken.zero_trans htaken2, by rw [hlen, bodyLoaded_pbuf h, Memory.blank_len], ?_⟩
  rw [hbytes, bodyLoaded_chain h, htaken.storedDecrypt, htaken.ibuf, h.ibuf_blocks, messageAssemble, Nat.mul_zero,
    List.take_zero, List.nil_append]

theorem cbcd_bodyLoaded_refused {j : Nat} (hj : j < n) (hf : FirstRefused j s) :
    ∃ s2, cbcd (bodyLoaded n s) = (s2, false) ∧ AnswersTaken (j + 1) s s2 := by
  have htaken := bodyLoaded_taken n s
  obtain ⟨s2, hloop, htaken2⟩ := cbcdLoop_refused (i := 0) (htaken.ready h.ready) hj (htaken.firstRefused_iff.2 hf)
  refine ⟨s2, ?_, htaken.zero_trans htaken2⟩
  rw [cbcd, bodyLoaded_nb h]
  exact hloop

end

/-! The end of the command (rules R193, R197). -/

/-- `trdec` on the bytes of `PBUF`. -/
theorem trdec_of_bytes {s : State} {buf : Bytes} {n : Nat} (hbytes : s.mode.pbuf.bytes = buf)
    (hlen : s.mode.pbuf.len = n) (h4 : 4 ≤ n) :
    trdec s = if 0 ≤ trailerValue (buf.drop (n - 4)) ∧ trailerValue (buf.drop (n - 4)) ≤ n then
      some (trailerValue (buf.drop (n - 4))).toNat else none := by
  have hread : s.mode.pbuf.read (n - 4) 4 = buf.drop (n - 4) := by
    rw [← hbytes, Memory.bytes, hlen, Memory.drop_read _ _ _ _ (Nat.sub_le n 4), Nat.zero_add, Nat.sub_sub_self h4]
  simp only [trdec, hlen, hread]
  rw [← ite_not]
  exact if_congr (by omega) rfl rfl

/-- What DEC leaves when `n` blocks are assembled in `buf`: the first `L` bytes, `L` the trailer's signed value, or
`CORRUPT` when `L` is out of range. -/
def assembledEnd (n : Nat) (buf : Bytes) (s : State) : State :=
  if 0 ≤ trailerValue (buf.drop (32 * n - 4)) ∧ trailerValue (buf.drop (32 * n - 4)) ≤ 32 * n then
    afterSuccess s (buf.take (trailerValue (buf.drop (32 * n - 4))).toNat)
  else afterFailure s .corrupt

theorem afterBody_assembled {s : State} {buf : Bytes} {n : Nat} (hn : 1 ≤ n) (hbytes : s.mode.pbuf.bytes = buf)
    (hlen : s.mode.pbuf.len = 32 * n) : afterBody (s, true) = assembledEnd n buf s := by
  rw [afterBody, trdec_of_bytes hbytes hlen (by omega), assembledEnd]
  push_cast
  split_ifs with hl
  · have hle : (trailerValue (buf.drop (32 * n - 4))).toNat ≤ 32 * n := by omega
    have hread := Memory.take_read s.mode.pbuf 0 (32 * n) _ hle
    rw [← hlen, ← Memory.bytes, hbytes, hlen] at hread
    simp only [hread]
  · rfl

theorem AnswersTaken.assembledEnd {m n : Nat} {s s' : State} (h : AnswersTaken m s s') (buf : Bytes) :
    assembledEnd n buf s' = assembledEnd n buf { s with scratchIn := s.scratchIn.drop m } := by
  rw [Machine.assembledEnd, h.afterSuccess, h.afterFailure, Machine.assembledEnd]

section
variable {len : BitVec 32} {n : Nat} {s : State} (h : AcceptsBody len n s)
include h

theorem exec_dec_admitted (hs : ScratchOk n s) :
    exec (.dec len) s = .next (assembledEnd n (messageAssemble (storedDecrypt s) s.ibuf.bytes)
      { s with scratchIn := s.scratchIn.drop n }) := by
  obtain ⟨s2, hcbcd, htaken, hlen, hbytes⟩ := cbcd_bodyLoaded_admitted h hs
  rw [exec_dec_of_acceptsBody h, hcbcd, afterBody_assembled h.pos hbytes hlen, htaken.assembledEnd]

theorem exec_dec_firstRefused {j : Nat} (hj : j < n) (hf : FirstRefused j s) :
    exec (.dec len) s = .next (afterFailure { s with scratchIn := s.scratchIn.drop (j + 1) } .resource) := by
  obtain ⟨s2, hcbcd, htaken⟩ := cbcd_bodyLoaded_refused h hj hf
  rw [exec_dec_of_acceptsBody h, hcbcd, afterBody, htaken.afterFailure]

end

/-! Payloads of whole blocks, and of whole blocks and a tail (rule R197, decision D11). -/

theorem badBody_of_dvd {cfg : Config} {m : Nat} (h : m % 32 = 0) : badBody cfg 32 m = false := by
  simp [badBody, h]

theorem acceptsBody_of_whole {len : BitVec 32} {n : Nat} {s : State} (hr : Ready s) (hlen : s.ibuf.len = len.toNat)
    (hn : len.toNat = 32 * (n + 1)) (hpos : 1 ≤ n) : AcceptsBody len n s where
  ready   := hr
  payload := hlen
  count   := by omega
  pos     := hpos
  whole   := badBody_of_dvd (by omega)

/-- Settles O53: what the loop assembles and what `trdec` makes of it. -/
theorem decReturnsTheUnchainedPrefix : Obligations.DecReturnsTheUnchainedPrefix := by
  intro len s n hr hlen hn hpos hs
  have h := acceptsBody_of_whole hr hlen hn hpos
  obtain ⟨s2, -, -, hlen2, hbytes⟩ := cbcd_bodyLoaded_admitted h hs
  refine ⟨by rw [← hbytes, Memory.bytes_length, hlen2], ?_⟩
  intro buf l
  have hexec := exec_dec_admitted h hs
  rw [assembledEnd] at hexec
  split_ifs at hexec ⊢ with hl
  · exact hexec
  · exact hexec

/-- Settles O55, clause by clause in the order of the command's tests. -/
theorem decFailures : Obligations.DecFailures := by
  refine fun len s => ⟨fun h => ?_, fun hr h => ?_, fun hr h32 hlen => ?_, fun hr hlen n j hn hj hok hfalse => ?_⟩
  · exact exec_dec_not_configured (configured_eq_false_iff.2 h)
  · exact exec_dec_short hr h
  · subst h32
    exact exec_dec_noBlock hr hlen (by decide) (by decide)
  · exact exec_dec_firstRefused (acceptsBody_of_whole hr hlen hn (by omega)) hj ⟨hok, hfalse⟩

/-- Bytes behind the last whole block are in no block (rule R57). -/
theorem blocksOf_take {b : Bytes} {n : Nat} (h : b.length / 32 = n) : blocksOf (b.take (32 * n)) = blocksOf b := by
  have hcount : (b.take (32 * n)).length / 32 = n := by
    rw [List.length_take]
    omega
  rw [blocksOf, blocksOf, hcount, h]
  refine List.map_congr_left fun i hi => ?_
  have hi := List.mem_range.1 hi
  rw [List.drop_take, List.take_take, Nat.min_eq_left (by omega)]

theorem messageAssemble_take (d : Bytes → Bytes) {c : Bytes} {n : Nat} (h : c.length / 32 = n + 1) :
    messageAssemble d (c.take (32 * (n + 1))) = messageAssemble d c := by
  rw [messageAssemble, messageAssemble, List.take_take, Nat.min_eq_left (by omega), List.drop_take,
    show 32 * (n + 1) - 32 = 32 * n by omega, blocksOf_take (by rw [List.length_drop]; omega)]

/-- The payload of `s` cut to its IV and its `n` whole blocks. -/
def withoutTail (n : Nat) (s : State) : State :=
  { s with ibuf := Memory.ofBytes (s.ibuf.bytes.take (32 * (n + 1))) }

/-- The tail is read by no block, and the end of the command keeps `IBUF`. -/
theorem assembledEnd_withoutTail {n : Nat} {s : State} (h : s.ibuf.len / 32 = n + 1) :
    { assembledEnd n (messageAssemble (storedDecrypt (withoutTail n s)) (withoutTail n s).ibuf.bytes)
        { withoutTail n s with scratchIn := s.scratchIn.drop n } with ibuf := s.ibuf } =
      assembledEnd n (messageAssemble (storedDecrypt s) s.ibuf.bytes)
        { s with scratchIn := s.scratchIn.drop n } := by
  have hbytes : messageAssemble (storedDecrypt (withoutTail n s)) (withoutTail n s).ibuf.bytes =
      messageAssemble (storedDecrypt s) s.ibuf.bytes := by
    rw [withoutTail, Memory.bytes_ofBytes, messageAssemble_take _ (by rw [Memory.bytes_length, h])]
    rfl
  rw [hbytes, assembledEnd, assembledEnd]
  split_ifs <;> rfl

theorem Ready.withoutTail {s : State} (hr : Ready s) (n : Nat) : Ready (withoutTail n s) := { hr with }

theorem badBody_tail {cfg : Config} {m : Nat} (h : m % 32 ≠ 0) :
    badBody cfg 32 m = (cfg.decPartialTail == .reject) := by
  simp [badBody, h]

/-- With the tail ignored, the blocks and the answers of the oracle are those of the payload without it. -/
theorem exec_dec_withoutTail {len len' : BitVec 32} {n : Nat} {s t : State} (h : AcceptsBody len n s)
    (h' : AcceptsBody len' n (withoutTail n s)) (ht : exec (.dec len') (withoutTail n s) = .next t) :
    exec (.dec len) s = .next { t with ibuf := s.ibuf } := by
  have hblocks : s.ibuf.len / 32 = n + 1 := by
    have := h.payload
    have := h.count
    have := h.le_len
    omega
  rcases scratchOk_or_firstRefused n s with hs | ⟨j, hj, hf⟩
  · rw [exec_dec_admitted h hs, ← assembledEnd_withoutTail hblocks]
    cases (exec_dec_admitted h' hs).symm.trans ht
    rfl
  · rw [exec_dec_firstRefused h hj hf]
    cases (exec_dec_firstRefused h' hj hf).symm.trans ht
    rfl

theorem toNat_ofNat_wholeBlocks {len : BitVec 32} {n r : Nat} (h : len.toNat = 32 * (n + 1) + r) :
    (BitVec.ofNat 32 (32 * (n + 1))).toNat = 32 * (n + 1) := by
  have := len.isLt
  rw [BitVec.toNat_ofNat]
  exact Nat.mod_eq_of_lt (by omega)

/-- Settles O54: `reject` is the test of the body's length; under `ignore` both payloads have no block, or the same
blocks. -/
theorem decPartialTail : Obligations.DecPartialTail := by
  intro len s n r hr hlen hn hr0 hr32
  have hbad := badBody_tail (cfg := s.cfg) (m := len.toNat - 32) (by omega)
  refine ⟨fun hreject => ?_, fun hignore t ht => ?_⟩
  · exact exec_dec_badBody hr hlen (by omega) (by rw [hbad, hreject]; rfl)
  · have hlen' := toNat_ofNat_wholeBlocks hn
    have hpay' : (withoutTail n s).ibuf.len = (BitVec.ofNat 32 (32 * (n + 1))).toNat := by
      rw [hlen', withoutTail, Memory.ofBytes_len, List.length_take, Memory.bytes_length]
      omega
    have hr' := hr.withoutTail n
    rcases Nat.eq_zero_or_pos n with rfl | hpos
    · rw [exec_dec_noBlock hr hlen (by omega) (by omega)]
      cases (exec_dec_noBlock hr' hpay' (by omega) (by omega)).symm.trans ht
      rfl
    · have h : AcceptsBody len n s := ⟨hr, hlen, by omega, hpos, by rw [hbad, hignore]; rfl⟩
      exact exec_dec_withoutTail h (acceptsBody_of_whole hr' hpay' hlen' hpos) ht

end Sys2Proof.Machine
end

section
/-! The round trip of a message (45_mode_controller.md rule R199): unchaining undoes chaining, the assembled buffer of
an ENC result is the padded plaintext, and its trailer gives the plaintext back. -/

namespace Sys2Proof.Machine

/-! Blocks (rule R57). -/

theorem length_of_mem_blocksOf {b c : Bytes} (h : c ∈ blocksOf b) : c.length = 32 := by
  obtain ⟨i, hi, rfl⟩ := List.mem_map.1 h
  have := List.mem_range.1 hi
  rw [List.length_take, List.length_drop]
  omega

@[simp] theorem blocksOf_length (b : Bytes) : (blocksOf b).length = b.length / 32 := by simp [blocksOf]

theorem blocksOf_append {c : Bytes} (hc : c.length = 32) (b : Bytes) : blocksOf (c ++ b) = c :: blocksOf b := by
  have hcount : (c ++ b).length / 32 = b.length / 32 + 1 := by
    rw [List.length_append]
    omega
  rw [blocksOf, hcount, List.range_succ_eq_map, List.map_cons, List.map_map, blocksOf, Nat.mul_zero, List.drop_zero,
    List.take_left' hc]
  congr 1
  refine List.map_congr_left fun i _ => ?_
  rw [Function.comp_apply, Nat.succ_eq_add_one, Nat.mul_succ, Nat.add_comm, ← List.drop_drop, List.drop_left' hc]

/-- A list of blocks is read back from its bytes. -/
theorem blocksOf_flatten {cs : List Bytes} (h : ∀ c ∈ cs, c.length = 32) : blocksOf cs.flatten = cs := by
  induction cs with
  | nil => rfl
  | cons c cs ih =>
    rw [List.flatten_cons, blocksOf_append (h c List.mem_cons_self), ih fun b hb => h b (List.mem_cons_of_mem c hb)]

/-- A whole number of blocks leaves no byte out. -/
theorem flatten_blocksOf {n : Nat} {b : Bytes} (h : b.length = 32 * n) : (blocksOf b).flatten = b := by
  induction n generalizing b with
  | zero => rw [List.length_eq_zero_iff.1 h]; rfl
  | succ n ih =>
    rw [← List.take_append_drop 32 b, blocksOf_append (by rw [List.length_take]; omega), List.flatten_cons,
      ih (by rw [List.length_drop]; omega)]

theorem length_flatten_of_blocks {cs : List Bytes} (h : ∀ c ∈ cs, c.length = 32) :
    cs.flatten.length = 32 * cs.length := by
  rw [List.length_flatten, List.map_congr_left h, List.map_const', List.sum_replicate, smul_eq_mul, Nat.mul_comm]

/-! Chaining and back (rules R194, R195). -/

section
variable {e d : Bytes → Bytes} (he : ∀ b, (e b).length = 32)
include he

theorem length_of_mem_chainEncrypt {iv c : Bytes} {ps : List Bytes} (h : c ∈ chainEncrypt e iv ps) :
    c.length = 32 := by
  induction ps generalizing iv with
  | nil => cases h
  | cons p ps ih =>
    rcases List.mem_cons.1 h with rfl | h
    · exact he _
    · exact ih h

omit he in
@[simp] theorem chainEncrypt_length (iv : Bytes) (ps : List Bytes) : (chainEncrypt e iv ps).length = ps.length := by
  induction ps generalizing iv with
  | nil => rfl
  | cons p ps ih => exact congrArg (· + 1) (ih _)

/-- `D(E(P_i ^ C_{i-1})) ^ C_{i-1} = P_i`, block by block. -/
theorem chainDecrypt_chainEncrypt (hde : ∀ b, b.length = 32 → d (e b) = b) {iv : Bytes} {ps : List Bytes}
    (hiv : iv.length = 32) (hps : ∀ p ∈ ps, p.length = 32) : chainDecrypt d iv (chainEncrypt e iv ps) = ps := by
  induction ps generalizing iv with
  | nil => rfl
  | cons p ps ih =>
    have hp : p.length = 32 := hps p List.mem_cons_self
    have hblock : xorBytes (d (e (xorBytes iv p))) iv = p := by
      rw [hde _ (by simp [hiv, hp]), xorBytes_comm iv p, xorBytes_xorBytes_cancel (by rw [hp, hiv])]
    rw [chainEncrypt, chainDecrypt, hblock, ih (he _) fun q hq => hps q (List.mem_cons_of_mem p hq)]

/-- The blocks behind the IV are the chained blocks, and unchained they are the padded plaintext. -/
theorem messageAssemble_messageEncrypt (hde : ∀ b, b.length = 32 → d (e b) = b) {iv : Bytes} (hiv : iv.length = 32)
    (p : Bytes) : messageAssemble d (messageEncrypt e iv p) = paddedPlain p := by
  rw [messageAssemble, messageEncrypt, List.take_left' hiv, List.drop_left' hiv,
    blocksOf_flatten fun c => length_of_mem_chainEncrypt he,
    chainDecrypt_chainEncrypt he hde hiv fun q => length_of_mem_blocksOf, flatten_blocksOf (paddedPlain_length p)]

/-- `32 * (ceil(n/32) + 2)` bytes (rule R198). -/
theorem messageEncrypt_length {iv : Bytes} (hiv : iv.length = 32) (p : Bytes) :
    (messageEncrypt e iv p).length = 32 * ((p.length + 31) / 32 + 1 + 1) := by
  rw [messageEncrypt, List.length_append, hiv, length_flatten_of_blocks fun c => length_of_mem_chainEncrypt he,
    chainEncrypt_length, blocksOf_length, paddedPlain_length]
  omega

end

/-! The padded plaintext at the end of DEC (rules R192, R193). -/

theorem paddedPlain_take (p : Bytes) : (paddedPlain p).take p.length = p := by
  rw [paddedPlain, List.append_assoc, List.take_left]

theorem paddedPlain_drop (p : Bytes) :
    (paddedPlain p).drop (32 * ((p.length + 31) / 32 + 1) - 4) = trailerBytes p.length := by
  rw [paddedPlain]
  apply List.drop_left'
  rw [List.length_append, zeros_length]
  omega

theorem assembledEnd_paddedPlain {p : Bytes} (hp : p.length ≤ maxPlain) (s : State) :
    assembledEnd ((p.length + 31) / 32 + 1) (paddedPlain p) s = afterSuccess s p := by
  rw [assembledEnd, paddedPlain_drop, trailerValue_trailerBytes hp, if_pos (by omega), Int.toNat_natCast,
    paddedPlain_take]

/-! The commands. -/

/-- A success on a ready machine has had an IV, a plaintext that fits and every block operation admitted. -/
theorem exec_enc_success_of_ready {len : BitVec 32} {s t : State} (hr : Ready s) (hlen : s.ibuf.len = len.toNat)
    (h : exec (.enc len) s = .next t) (hok : okFlag t.status = true) :
    ∃ (iv : Vector Byte 32) (as : List RngAnswer), len.toNat ≤ maxPlain ∧ t = afterSuccess
      { s with rngIn := as, scratchIn := s.scratchIn.drop ((len.toNat + 31) / 32 + 1) }
      (messageEncrypt (storedEncrypt s) iv.toList s.ibuf.bytes) := by
  obtain ⟨iv, as, -, -, -, -, hrng, hl, -⟩ := exec_enc_success h hok
  refine ⟨iv, as, hl, ?_⟩
  rcases scratchOk_or_firstRefused ((len.toNat + 31) / 32 + 1) s with hs | ⟨j, hj, hf⟩
  · exact (Host.Outcome.next.inj ((exec_enc_admitted hr hlen hl hrng hs).symm.trans h)).symm
  · cases (exec_enc_firstRefused hr hlen hl hrng hj hf).symm.trans h
    simp [okFlag_afterFailure] at hok

/-- DEC of a message that was encrypted under the stored key and tweak. -/
theorem exec_dec_of_messageEncrypt {u : State} {iv p : Bytes} (hr : Ready u) (hiv : iv.length = 32)
    (hp : p.length ≤ maxPlain) (hu : u.ibuf = Memory.ofBytes (messageEncrypt (storedEncrypt u) iv p))
    (hs : ScratchOk ((p.length + 31) / 32 + 1) u) :
    exec (.dec (BitVec.ofNat 32 u.ibuf.len)) u =
      .next (afterSuccess { u with scratchIn := u.scratchIn.drop ((p.length + 31) / 32 + 1) } p) := by
  have hsize : u.ibuf.len = 32 * ((p.length + 31) / 32 + 1 + 1) := by
    rw [hu, Memory.ofBytes_len, messageEncrypt_length (storedEncrypt_length u) hiv]
  have hlen : (BitVec.ofNat 32 u.ibuf.len).toNat = u.ibuf.len := by
    rw [maxPlain] at hp
    rw [BitVec.toNat_ofNat]
    exact Nat.mod_eq_of_lt (by omega)
  have hbuf : messageAssemble (storedDecrypt u) u.ibuf.bytes = paddedPlain p := by
    rw [hu, Memory.bytes_ofBytes]
    exact messageAssemble_messageEncrypt (storedEncrypt_length u) (fun _ => storedDecrypt_storedEncrypt u) hiv p
  rw [exec_dec_admitted (acceptsBody_of_whole hr hlen.symm (hlen.trans hsize) (Nat.le_add_left 1 _)) hs, hbuf,
    assembledEnd_paddedPlain hp]

/-- Settles O56: the result of ENC is a message encrypted under the key and tweak that DEC finds stored. -/
theorem messageRoundTrip : Obligations.MessageRoundTrip := by
  intro len s t hr hlen hwf h hok hs
  obtain ⟨iv, as, hl, rfl⟩ := exec_enc_success_of_ready hr hlen h hok
  have hp : s.ibuf.bytes.length = len.toNat := by rw [Memory.bytes_length, hlen]
  refine ⟨_, exec_dec_of_messageEncrypt ?_ (Vector.length_toList (xs := iv)) (hp ▸ hl) rfl ?_, afterSuccess_bytes _ hwf⟩
  · exact { hr with }
  · rw [hp]
    exact hs

end Sys2Proof.Machine
end

section
/-! How a command ends (60_exceptions.md rules R230 to R235; 70_reset_and_hazards.md rule R268): that it answers but
where it waits for the RNG, the response of a completion, and what a failure leaves. -/

namespace Sys2Proof.Machine

/-! Progress: where `IBUF` holds the `LEN` bytes of its payload, a command answers, or is an ENC that waits. -/

theorem PersistentLegal.ready {s : State} (h : PersistentLegal s) (hc : configured s = true) : Ready s where
  klen := h.klen.resolve_left (configured_eq_true_iff.1 hc).1
  tlen := h.tlen.resolve_left (configured_eq_true_iff.1 hc).2
  blen := h.blen_of_configured hc

section
variable {s : State} {len : BitVec 32} (hlen : s.ibuf.len = len.toNat)
include hlen

theorem exec_setkey_answers : ∃ t, exec (.setkey len) s = .next t := by
  by_cases h32 : len = 32
  · subst h32
    exact ⟨_, exec_setkey_stores hlen⟩
  · by_cases h0 : len = 0
    · subst h0
      exact ⟨_, exec_setkey_erases s⟩
    · exact ⟨_, exec_setkey_rejects h32 h0 s⟩

theorem exec_settweak_answers : ∃ t, exec (.settweak len) s = .next t := by
  by_cases h16 : len = 16
  · subst h16
    exact ⟨_, exec_settweak_stores hlen⟩
  · exact ⟨_, exec_settweak_rejects h16 s⟩

theorem exec_blockCommands_answer (hs : PersistentLegal s) :
    (∃ t, exec (.encb len) s = .next t) ∧ ∃ t, exec (.decb len) s = .next t := by
  have both : ∀ {t t'}, exec (.encb len) s = .next t ∧ exec (.decb len) s = .next t' →
      (∃ t, exec (.encb len) s = .next t) ∧ ∃ t, exec (.decb len) s = .next t := fun h => ⟨⟨_, h.1⟩, ⟨_, h.2⟩⟩
  cases hc : configured s with
  | false => exact both (exec_blockCommands_not_configured hc len)
  | true =>
    by_cases h32 : len = 32
    · subst h32
      cases ha : scratchAnswer s with
      | false => exact both (exec_blockCommands_refused (hs.ready hc) hlen ha)
      | true => exact both ⟨exec_encb_admitted (hs.ready hc) hlen ha, exec_decb_admitted (hs.ready hc) hlen ha⟩
    · exact both (exec_blockCommands_wrong_length hc h32)

/-- ENC takes its tests in order: only a request without an answer stops it. -/
theorem exec_enc_answers_or_waits :
    (∃ t, exec (.enc len) s = .next t)
    ∨ exec (.enc len) s = .fault .rngPending ∧ configured s = true ∧ s.rngIn = [] := by
  cases hc : configured s with
  | false => exact .inl ⟨_, exec_enc_not_configured hc⟩
  | true =>
    rcases ivgen_cases s with ⟨hrng, -⟩ | ⟨as, hrng, -⟩ | ⟨iv, as, hrng, -⟩
    · exact .inr ⟨execEnc_of_rngIn_nil hc hrng len, rfl, hrng⟩
    · exact .inl ⟨_, exec_enc_random hc hrng⟩
    · rcases Nat.lt_or_ge maxPlain len.toNat with hl | hl
      · exact .inl ⟨_, exec_enc_length hc hrng hl⟩
      · have hp := operandL_eq_some len s hlen
        rcases hcbce : cbce (messageLoaded s.ibuf.bytes iv as s) with ⟨s2, _ | cs⟩
        · exact .inl ⟨_, exec_enc_resource hc hrng hl hp hcbce⟩
        · exact .inl ⟨_, exec_enc_chained hc hrng hl hp hcbce⟩

theorem exec_dec_answers (hs : PersistentLegal s) : ∃ t, exec (.dec len) s = .next t := by
  cases hc : configured s with
  | false => exact ⟨_, exec_dec_not_configured hc⟩
  | true =>
    have hr := hs.ready hc
    rcases Nat.lt_or_ge len.toNat 32 with hshort | h32
    · exact ⟨_, exec_dec_short hr hshort⟩
    · cases hbad : badBody s.cfg 32 (len.toNat - 32) with
      | true => exact ⟨_, exec_dec_badBody hr hlen h32 hbad⟩
      | false =>
        rcases Nat.eq_zero_or_pos ((len.toNat - 32) / 32) with h0 | hpos
        · exact ⟨_, exec_dec_noBlock hr hlen h32 h0⟩
        · exact ⟨_, exec_dec_of_acceptsBody ⟨hr, hlen, rfl, hpos, hbad⟩⟩

end

/-- XORA and the diagnostic commands: the length check fails, or the payload holds the operand. -/
theorem exec_diagnostic_answers {i : Instr} (hi : i.opcode ∈ [Opcode.xora, .mix, .unmix, .perm, .unperm, .ksx])
    {s : State} (hlen : s.ibuf.len = i.len.toNat) : ∃ t, exec i s = .next t := by
  by_cases hwf : i.WF
  · cases i with
    | setkey | settweak | encb | decb | enc | dec => simp [Instr.opcode] at hi
    | xora lena len => exact ⟨_, exec_xora_returns hlen (by simpa [Instr.WF, Instr.check] using hwf)⟩
    | mix row col len =>
      obtain rfl : len = 16 := by simpa [Instr.WF, Instr.check] using hwf
      exact ⟨_, exec_mix_of_operandM (operandM_eq_some s hlen) row col⟩
    | unmix row col len =>
      obtain rfl : len = 16 := by simpa [Instr.WF, Instr.check] using hwf
      exact ⟨_, exec_unmix_of_operandM (operandM_eq_some s hlen) row col⟩
    | perm len =>
      obtain rfl : len = 32 := by simpa [Instr.WF, Instr.check] using hwf
      exact ⟨_, exec_perm_of_operandWords (operandWords_eq_some s hlen)⟩
    | unperm len =>
      obtain rfl : len = 32 := by simpa [Instr.WF, Instr.check] using hwf
      exact ⟨_, exec_unperm_of_operandWords (operandWords_eq_some s hlen)⟩
    | ksx len =>
      obtain rfl : len = 48 := by simpa [Instr.WF, Instr.check] using hwf
      exact ⟨_, exec_ksx_of_operandKeyTweak (operandKeyTweak_eq_some s hlen)⟩
  · exact ⟨_, exec_illegal hwf s⟩

theorem exec_answers_or_waits (i : Instr) {s : State} (hs : PersistentLegal s) (hlen : s.ibuf.len = i.len.toNat) :
    (∃ t, exec i s = .next t)
    ∨ exec i s = .fault .rngPending ∧ configured s = true ∧ s.rngIn = [] ∧ ∃ len, i = .enc len := by
  cases i with
  | setkey len => exact .inl (exec_setkey_answers hlen)
  | settweak len => exact .inl (exec_settweak_answers hlen)
  | encb len => exact .inl (exec_blockCommands_answer hlen hs).1
  | decb len => exact .inl (exec_blockCommands_answer hlen hs).2
  | enc len => exact (exec_enc_answers_or_waits hlen).imp_right fun ⟨he, hc, hrng⟩ => ⟨he, hc, hrng, len, rfl⟩
  | dec len => exact .inl (exec_dec_answers hlen hs)
  | xora | mix | unmix | perm | unperm | ksx => exact .inl (exec_diagnostic_answers (by simp [Instr.opcode]) hlen)

theorem runCommand_answers_or_waits (h : BitVec 64) (p : Bytes) {s : State} (hs : PersistentLegal s) :
    (∃ t, runCommand h p s = .next t)
    ∨ runCommand h p s = .fault .rngPending ∧ configured s = true ∧ s.rngIn = [] ∧ ∃ len, decode h = .ok (.enc len) := by
  cases hd : decode h with
  | error e => exact .inl ⟨_, runCommand_of_error hd p s⟩
  | ok i =>
    have hlen : (presentPayload (hdrLen h) p s).ibuf.len = i.len.toNat := by
      rw [← hdrLen_of_decode hd, presentPayload_ibuf]
    rw [runCommand_of_decode hd]
    exact (exec_answers_or_waits i (hs.presentPayload _ p) hlen).imp_right
      fun ⟨he, hc, hrng, len, hi⟩ => ⟨he, hc, hrng, len, congrArg _ hi⟩

/-- Settles O12, by the event a step takes: only a presented command can wait. -/
theorem everyStepAnswersOrWaitsForTheRng : Obligations.EveryStepAnswersOrWaitsForTheRng := by
  intro s hs
  unfold step
  split
  case h_1 => exact .inl ⟨_, rfl⟩
  case h_2 h p es hev =>
    have hes : PersistentLegal { s with hostIn := es } := { hs with }
    exact (runCommand_answers_or_waits h p hes).imp_right
      fun ⟨he, hc, hrng, len, hd⟩ => ⟨he, hc, hrng, len, h, p, es, hev, hd⟩
  case h_3 => exact .inl ⟨_, rfl⟩
  case h_4 => exact .inl ⟨_, rfl⟩

/-! The response of a completion (rules R28, R84). -/

theorem runCommand_hostIn {h : BitVec 64} {p : Bytes} {s t : State} (he : runCommand h p s = .next t) :
    t.hostIn = s.hostIn := by
  cases hd : decode h with
  | ok i =>
    rw [runCommand_of_decode hd] at he
    obtain ⟨-, hhost, -⟩ := exec_inputs_kept he
    exact hhost
  | error e =>
    rw [runCommand_of_error hd] at he
    cases he
    rfl

/-- Settles O13: the response part of the invariant that a completion leaves, split on `OK`. -/
theorem commandEndsInSuccessOrFailure : Obligations.CommandEndsInSuccessOrFailure := by
  intro s t h p es hs hev hstep
  rw [step_of_command hev] at hstep
  have hes : PersistentLegal { s with hostIn := es } := { hs with }
  obtain ⟨hres, hrlen, hsucc, hfail⟩ := (runCommand_invariant hes hstep).response
  refine ⟨runCommand_hostIn hstep, hres, hrlen, ?_⟩
  cases hok : okFlag t.status with
  | true => exact .inl ⟨rfl, hsucc hok⟩
  | false =>
    obtain ⟨hreason, hobuf⟩ := hfail hok
    exact .inr ⟨rfl, hreason, by rw [hobuf, Memory.empty_len]⟩

/-! What a failure leaves (rules R232, R234, R235). -/

/-- A command that ends with `OK = 0` has ended in `raise Fail` and not in a success. -/
theorem exec_raised {i : Instr} {s t : State} (h : exec i s = .next t) (hok : okFlag t.status = false) :
    ∃ r s1, r ≠ .none ∧ OnlyScratch s s1 ∧ t = raiseFail r s1 := by
  have hsucc : ∀ {out s1}, t ≠ succeed out s1 := by
    rintro out s1 rfl
    simp [statusOk] at hok
  rcases exec_shape h with hf | ⟨_, _, -, ht⟩ | ⟨_, _, -, -, ht⟩ | ⟨_, _, -, -, ht⟩
  · exact hf
  all_goals exact absurd ht hsucc

/-- A command that completes has taken at most one answer of the RNG, and only an ENC any. -/
theorem exec_rngIn_drop {i : Instr} {s t : State} (h : exec i s = .next t) :
    ∃ n ≤ 1, ((∀ len, i ≠ .enc len) → n = 0) ∧ t.rngIn = s.rngIn.drop n := by
  obtain ⟨hone, hunset, hother⟩ := oneRngRequestPerConfiguredEnc i s t h
  by_cases hi : ∀ len, i ≠ .enc len
  · exact ⟨0, by omega, fun _ => rfl, hother hi⟩
  · obtain ⟨len, hlen⟩ : ∃ len, i = .enc len := by simpa using hi
    cases hc : configured s with
    | false => exact ⟨0, by omega, fun _ => rfl, hunset len hlen hc⟩
    | true =>
      obtain ⟨a, ha⟩ := hone len hlen hc
      exact ⟨1, le_rfl, fun h => absurd h hi, by simp [ha]⟩

/-- Settles O17: a raised failure leaves scratch and answers alone changed, and the RNG's are counted. -/
theorem failureLeavesNoTrace : Obligations.FailureLeavesNoTrace := by
  intro i s t h hok
  obtain ⟨n, hn, henc, hrng⟩ := exec_rngIn_drop h
  obtain ⟨r, _, hr, ⟨_, _, _, k, rfl⟩, rfl⟩ := exec_raised h hok
  refine ⟨r, n, k, hr, hn, henc, ?_⟩
  rw [← hrng]
  rfl

/-- Settles O18: every way a command's meaning ends has a reason of its row. -/
theorem onlyTabledFailures : Obligations.OnlyTabledFailures := by
  intro i s t h
  obtain ⟨r, hr, hreason, -⟩ := exec_endsAsTabled i s t h
  exact ⟨r, hr, hreason⟩

end Sys2Proof.Machine
end

section
/-! Idle and reset events (70_reset_and_hazards.md rule R260; 20_memory.md rule R64; 43_block_ops.md rule R152): which
commands consult the scratch oracle, and which of a complete run's answers an abandoned command has taken. -/

namespace Sys2Proof.Machine

/-! Who consults the scratch oracle. -/

/-- The commands that run block operations. -/
def cipherOpcodes : List Opcode := [.encb, .decb, .enc, .dec]

/-- No other command consults the oracle. -/
theorem exec_scratchIn_of_not_cipher {i : Instr} {s t : State} (hi : i.opcode ∉ cipherOpcodes)
    (h : exec i s = .next t) : t.scratchIn = s.scratchIn := by
  cases i with
  | encb | decb | enc | dec => simp [Instr.opcode, cipherOpcodes] at hi
  | setkey len =>
    simp only [exec, execSetkey] at h
    split at h
    · cases h
      rfl
    · split at h
      · split at h <;> cases h
        rfl
      · cases h
        rfl
  | settweak len =>
    simp only [exec, execSettweak] at h
    split at h
    · split at h <;> cases h
      rfl
    · cases h
      rfl
  | xora | mix | unmix | perm | unperm | ksx =>
    simp only [exec, execXora, execMix, execUnmix, execPerm, execUnperm, execKsx] at h
    split at h
    · cases h
      rfl
    · split at h <;> cases h
      simp

/-- A cipher command without key or tweak fails before its first block operation (rule R233). -/
theorem exec_cipher_not_configured {i : Instr} {s : State} (hi : i.opcode ∈ cipherOpcodes)
    (hc : configured s = false) : exec i s = .next (afterFailure s .config) := by
  cases i with
  | encb len => exact (exec_blockCommands_not_configured hc len).1
  | decb len => exact (exec_blockCommands_not_configured hc len).2
  | enc len => exact exec_enc_not_configured hc
  | dec len => exact exec_dec_not_configured hc
  | setkey | settweak | xora | mix | unmix | perm | unperm | ksx => simp [Instr.opcode, cipherOpcodes] at hi

/-- A command that has taken an answer of the oracle is a cipher command past its configuration check. -/
theorem exec_scratchIn_changed {i : Instr} {s t : State} (h : exec i s = .next t) (hne : t.scratchIn ≠ s.scratchIn) :
    configured s = true ∧ i.opcode ∈ cipherOpcodes := by
  have hi : i.opcode ∈ cipherOpcodes := by
    by_contra hi
    exact hne (exec_scratchIn_of_not_cipher hi h)
  refine ⟨?_, hi⟩
  by_contra hc
  rw [exec_cipher_not_configured hi (by simpa using hc)] at h
  cases h
  exact hne rfl

/-- The same of a presented command: an illegal header takes none. -/
theorem runCommand_scratchIn_changed {h : BitVec 64} {p : Bytes} {s t : State} (he : runCommand h p s = .next t)
    (hne : t.scratchIn ≠ s.scratchIn) :
    configured s = true ∧ ∃ i, decode h = .ok i ∧ i.opcode ∈ cipherOpcodes := by
  cases hd : decode h with
  | error e =>
    rw [runCommand_of_error hd] at he
    cases he
    exact absurd rfl hne
  | ok i =>
    rw [runCommand_of_decode hd] at he
    obtain ⟨hc, hi⟩ := exec_scratchIn_changed he hne
    exact ⟨hc, i, rfl, hi⟩

/-! The answers of a complete run. -/

theorem exec_answers_drop {i : Instr} {s t : State} (h : exec i s = .next t) :
    ∃ r k : Nat, t.rngIn = s.rngIn.drop r ∧ t.scratchIn = s.scratchIn.drop k := by
  rcases exec_shape h with
    ⟨_, _, -, ⟨_, _, r, k, rfl⟩, rfl⟩ | ⟨_, _, ⟨_, _, r, k, rfl⟩, rfl⟩ | ⟨_, _, -, rfl | ⟨_, -, rfl⟩, rfl⟩
      | ⟨_, _, -, ⟨_, -, rfl⟩, rfl⟩
  case inl | inr.inl => exact ⟨r, k, rfl, rfl⟩
  all_goals exact ⟨0, 0, rfl, rfl⟩

theorem runCommand_answers_drop {h : BitVec 64} {p : Bytes} {s t : State} (he : runCommand h p s = .next t) :
    ∃ r k : Nat, t.rngIn = s.rngIn.drop r ∧ t.scratchIn = s.scratchIn.drop k := by
  cases hd : decode h with
  | error e =>
    rw [runCommand_of_error hd] at he
    cases he
    exact ⟨0, 0, rfl, rfl⟩
  | ok i =>
    rw [runCommand_of_decode hd] at he
    simpa using exec_answers_drop he

theorem answersTaken_of_next {h : BitVec 64} {p : Bytes} {s t : State} (he : runCommand h p s = .next t) :
    answersTaken h p s = (s.rngIn.length - t.rngIn.length, s.scratchIn.length - t.scratchIn.length) := by
  simp only [answersTaken, he]

/-- Answers are counted by the lists' lengths, so where a command asks past a list's end the count is the smaller. -/
theorem runCommand_drops_answersTaken {h : BitVec 64} {p : Bytes} {s t : State} (he : runCommand h p s = .next t) :
    ∃ r k : Nat, t.rngIn = s.rngIn.drop r ∧ t.scratchIn = s.scratchIn.drop k
      ∧ (answersTaken h p s).1 ≤ r ∧ (answersTaken h p s).2 ≤ k := by
  obtain ⟨r, k, hr, hk⟩ := runCommand_answers_drop he
  refine ⟨r, k, hr, hk, ?_⟩
  simp only [answersTaken_of_next he, hr, hk, List.length_drop]
  omega

theorem answersTaken_eq_of_enc {h : BitVec 64} {p : Bytes} {s t : State} {len : BitVec 32}
    (he : runCommand h p s = .next t) (hc : configured s = true) (hd : decode h = .ok (.enc len)) :
    (answersTaken h p s).1 = 1 := by
  have hexec := (runCommand_of_decode hd p s).symm.trans he
  obtain ⟨a, ha⟩ : ∃ a, s.rngIn = a :: t.rngIn := by simpa using exec_enc_takes_first hexec hc
  simp [answersTaken_of_next he, ha]

theorem decode_enc_of_opcode {h : BitVec 64} {i : Instr} (hd : decode h = .ok i) (hi : i.opcode = .enc) :
    ∃ len, decode h = .ok (.enc len) := by
  cases i with
  | enc len => exact ⟨len, hd⟩
  | _ => cases hi

/-- Who takes answers of the scratch oracle in a complete run, and that an ENC takes the RNG's with them. -/
theorem answersTaken_scratch {h : BitVec 64} {p : Bytes} {s : State} (hk : (answersTaken h p s).2 ≠ 0) :
    configured s = true ∧ ∃ i, decode h = .ok i ∧ i.opcode ∈ cipherOpcodes
      ∧ (i.opcode = .enc → (answersTaken h p s).1 = 1) := by
  cases he : runCommand h p s with
  | fault | refused => simp [answersTaken, he] at hk
  | next t =>
    have hne : t.scratchIn ≠ s.scratchIn := by
      intro heq
      simp [answersTaken_of_next he, heq] at hk
    obtain ⟨hc, i, hd, hi⟩ := runCommand_scratchIn_changed he hne
    refine ⟨hc, i, hd, hi, fun henc => ?_⟩
    obtain ⟨len, hlen⟩ := decode_enc_of_opcode hd henc
    exact answersTaken_eq_of_enc he hc hlen

/-- Settles O9: an abandoned command's answers come first among its complete run's, which are the RNG's one of an
answered ENC, then the oracle's of a cipher command. -/
theorem idleAndResetEvents : Obligations.IdleAndResetEvents := by
  refine fun s => ⟨fun hev => by rw [step, hev], fun es hev => by rw [step, hev]; rfl, fun h p answers es hev => ?_⟩
  obtain ⟨r, k, hle, hr, hk, hfirst, heq⟩ := resetAbandoning_cases h p answers { s with hostIn := es }
  have hrng := answersTaken_rng h p { s with hostIn := es }
  refine ⟨r, k, ?_, hle, ?_, fun hr1 => ?_, fun hk0 => ?_, fun t ht => ?_⟩
  · rw [step, hev]
    exact congrArg _ heq
  · rcases hrng with h0 | ⟨-, h1⟩ <;> omega
  · obtain ⟨henc, -⟩ := hrng.resolve_left (by omega)
    exact ⟨henc.configured, henc.enc⟩
  · obtain ⟨hc, i, hd, hi, henc⟩ := answersTaken_scratch (h := h) (p := p) (s := { s with hostIn := es }) (by omega)
    exact ⟨hc, i, hd, hi, fun hi => (hfirst hk0).trans (henc hi)⟩
  · obtain ⟨r', k', hr', hk', hler, hlek⟩ := runCommand_drops_answersTaken ((step_of_command rfl).symm.trans ht)
    refine ⟨r' - r, k' - k, ?_, ?_⟩
    · rw [Nat.add_sub_cancel' (hr.trans hler), hr']
    · rw [Nat.add_sub_cancel' (hk.trans hlek), hk']

end Sys2Proof.Machine
end

section
/-! How a machine becomes ready, and the wait for the RNG (70_reset_and_hazards.md rules R261, R268): what SETKEY and
SETTWEAK store and what each keeps of the other. -/

namespace Sys2Proof.Machine

section
variable {s : State} {h : BitVec 64} {p : Bytes} {es : List HostEvent} (hev : s.hostIn = .command h p :: es)
include hev

/-- A presented SETKEY of 32 bytes sets key and block length and keeps the tweak. -/
theorem step_setkey_stores (hd : decode h = .ok (.setkey 32)) :
    ∃ t, step s = .next t ∧ t.hostIn = es ∧ t.klen = 32 ∧ t.blen = 32 ∧ (p.length = 32 → t.key.toList = p)
      ∧ t.tlen = s.tlen ∧ t.tweak = s.tweak := by
  obtain ⟨m, hstep, hlen, -, hbytes⟩ := stepRunsTheDecodedCommand s h p es _ hev hd
  refine ⟨_, hstep.trans (exec_setkey_stores hlen), rfl, rfl, rfl, fun hp => ?_, rfl, rfl⟩
  obtain rfl := hbytes hp
  exact regOfBytes_toList 32 _ hp

/-- A presented SETTWEAK of 16 bytes sets the tweak and keeps key and block length. -/
theorem step_settweak_stores (hd : decode h = .ok (.settweak 16)) :
    ∃ t, step s = .next t ∧ t.hostIn = es ∧ t.tlen = 16 ∧ (p.length = 16 → t.tweak.toList = p)
      ∧ t.klen = s.klen ∧ t.blen = s.blen ∧ t.key = s.key := by
  obtain ⟨m, hstep, hlen, -, hbytes⟩ := stepRunsTheDecodedCommand s h p es _ hev hd
  refine ⟨_, hstep.trans (exec_settweak_stores hlen), rfl, rfl, fun hp => ?_, rfl, rfl, rfl⟩
  obtain rfl := hbytes hp
  exact regOfBytes_toList 16 _ hp

end

/-- Settles O26: each of the two commands keeps what the other has stored. -/
theorem setkeyAndSettweakMakeReady : Obligations.SetkeyAndSettweakMakeReady := by
  intro s hk ht k tw es hdk hdt hev
  rcases hev with hev | hev
  · obtain ⟨t, hst, hrest, hklen, hblen, hkey, -, -⟩ := step_setkey_stores hev hdk
    obtain ⟨u, htu, hes, htlen, htweak, hklen', hblen', hkey'⟩ := step_settweak_stores hrest hdt
    exact ⟨t, u, hst, htu, ⟨hklen'.trans hklen, htlen, hblen'.trans hblen⟩, hes, by rwa [hkey'], htweak⟩
  · obtain ⟨t, hst, hrest, htlen, htweak, -, -, -⟩ := step_settweak_stores hev hdt
    obtain ⟨u, htu, hes, hklen, hblen, hkey, htlen', htweak'⟩ := step_setkey_stores hrest hdk
    exact ⟨t, u, hst, htu, ⟨hklen, htlen'.trans htlen, hblen⟩, hes, hkey, by rwa [htweak']⟩

/-- Settles O50: past its configuration check an ENC makes its request first, and it is pending. -/
theorem encWaitsForTheRng : Obligations.EncWaitsForTheRng :=
  fun len _ hc hrng => execEnc_of_rngIn_nil hc hrng len

end Sys2Proof.Machine
end
